-- ==== Sys2Proof/Word.lean ====
section
/-! DEFINITION. The word types of the block: every digital quantity is an unsigned integer of a stated width (R9, R12). -/

namespace Sys2Proof

/-- Register data and the OSC read: 8 bits (R9). -/
abbrev Byte := BitVec 8

/-- The phase accumulator: 24 bits (R9, R21). -/
abbrev Accumulator := BitVec 24

/-- The frequency register: 16 bits (R9, R22). -/
abbrev Frequency := BitVec 16

/-- A 12-bit quantity: the pulse width, the phase, a table index, the noise word (R9). -/
abbrev Word12 := BitVec 12

/-- The waveform code and the port select: 4 bits (R9, R51). -/
abbrev Nibble := BitVec 4

/-- The noise shift register and its masks: 23 bits (R9, R26). -/
abbrev NoiseReg := BitVec 23

end Sys2Proof
end

