-- ==== Sys2Proof/Machine/Flags.lean ====
section
/-! DEFINITION. The edge detectors of CLOCK: the flag `msbRising` and the noise clock (R124, R125). -/

namespace Sys2Proof.Machine

/-- The sync edge detector: bit 23 is 0 before the addition and 1 after it (R124). -/
def msbRises (prev next : Accumulator) : Bool := !prev.getLsbD 23 && next.getLsbD 23

/-- The noise clock edge detector: bit 19 is 0 before the addition and 1 after it (R125). -/
def noiseClockRises (prev next : Accumulator) : Bool := !prev.getLsbD 19 && next.getLsbD 19

/-- The flag a CLOCK under test leaves, from its old value and the switch `MSB_STALE_UNDER_TEST` (R121, D12). -/
def msbUnderTest (stale old : Bool) : Bool := stale && old

end Sys2Proof.Machine
end

