-- ==== Sys2Proof/Config.lean ====
section
/-! DEFINITION. The configuration record `CFG` of R10 and the uninterpreted constants for what the source leaves open.
The values R10 proposes as defaults are in Machine/Defaults.lean. `Cfg` takes the types `Sample` and `NL` of R10 as
arguments; `CfgData` is a `Cfg` written as plain data, the form that State holds (log 1). -/

namespace Sys2Proof

/-- The two chip models of R33, "written 0 and 1 in this spec". -/
inductive ChipModel where
  | model0
  | model1
  deriving DecidableEq, Repr

/-- The analog items of R10 for a type of samples and a type of coefficients. -/
structure Analog (Sample NL : Type) where
  /-- The addition `+` on `Sample`: any total function (R15). -/
  add : Sample → Sample → Sample
  /-- `DACW(m, i)`, the weight of output bit `i` in `0..11` (R54). -/
  dacw : ChipModel → Nat → Sample
  /-- `ZERO(m)` (R207). -/
  zero : ChipModel → Sample
  /-- `WFROM(m, nl, t, p)`, entry `p` of page `t` in `0..10` (R53). -/
  wfrom : ChipModel → NL → Nat → Word12 → Sample

/-- The items of R10 that no analog type enters. -/
structure CfgDigital where
  /-- `NVOICES`. -/
  nvoices : Nat
  /-- `src(v)`, entry `v` (R34). -/
  src : List Nat
  /-- `dst(v)`, entry `v` (R34). -/
  dst : List Nat
  /-- `NOISE_TAPS`: pairs of register bit and noise word bit (R77). -/
  noiseTaps : List (Fin 23 × Fin 12)
  /-- `TEST_FORCE_MASK` (R79). -/
  testForceMask : NoiseReg
  /-- `NOISE_OVERWRITE_DELAY` (R122). -/
  noiseOverwriteDelay : Nat
  /-- `TEST_RISE_CLEARS_ACC` (D11). -/
  testRiseClearsAcc : Bool
  /-- `MSB_STALE_UNDER_TEST` (D12). -/
  msbStaleUnderTest : Bool
  /-- `FORCE_APPLIES_CLEAR` (D13). -/
  forceAppliesClear : Bool
  /-- `NOISE_RESET` (D16). -/
  noiseReset : NoiseReg
  deriving DecidableEq, Repr

/-- The configuration record `CFG` of R10, every item of its table an argument or a field: the types `Sample` and `NL`,
the items of `CfgDigital` and `Analog`, and `PREV_RESET`. -/
structure Cfg (Sample NL : Type) extends CfgDigital, Analog Sample NL where
  /-- `PREV_RESET` (D17). -/
  prevReset : Sample

/-- The default R10 proposes for the type `Sample`, the rationals (D3, log 3). -/
abbrev Sample := Rat

/-- The default R10 proposes for the type `NL`, the rationals (D18, log 3). -/
abbrev NL := Rat

namespace Config

/-- FREE VALUE. The chip's addition on samples, of which R15 lets a model assume only that it is total (log 3). -/
opaque sampleAdd : Sample → Sample → Sample

/-- FREE VALUE. `DACW(m, i)`: the weight of output bit `i` in `0..11` of chip model `m` (R54, R200, log 11). -/
opaque dacWeight : ChipModel → Nat → Sample

/-- FREE VALUE. `ZERO(m)`: the zero level of chip model `m` (R207, log 11). -/
opaque zeroLevel : ChipModel → Sample

/-- FREE VALUE. `WFROM(m, nl, t, p)`: entry `p` of page `t` in `0..10` of the waveform table (R53, R203, log 11). -/
opaque waveSample : ChipModel → NL → Nat → Word12 → Sample

/-- FREE VALUE. `PREV_RESET`: the held sample after RESET, "any `Sample`" (R261, D17, log 8). -/
opaque prevReset : Sample

end Config

/-- Named contents of the four items of `Analog`. -/
inductive AnalogSet where
  /-- The chip's: the uninterpreted constants of `Config` (R200, R203, R207). -/
  | chip
  /-- `CFG_LINEAR` of R208: "not the chip's table", for tests that want numbers. -/
  | linear
  deriving DecidableEq, Repr

/-- A `Cfg Sample NL` as plain data: each analog item by its values at listed arguments, and elsewhere by named
contents. Any contents agree with such data at the finitely many arguments a run reads (log 1). -/
structure CfgData extends CfgDigital where
  /-- `PREV_RESET` (D17). -/
  prevReset : Sample
  /-- Listed values of `+`. -/
  addAt : List ((Sample × Sample) × Sample)
  /-- Listed values of `DACW`. -/
  dacwAt : List ((ChipModel × Nat) × Sample)
  /-- Listed values of `ZERO`. -/
  zeroAt : List (ChipModel × Sample)
  /-- Listed values of `WFROM`. -/
  wfromAt : List ((ChipModel × NL × Nat × Word12) × Sample)
  /-- The contents at every other argument. -/
  rest : AnalogSet
  deriving DecidableEq, Repr

end Sys2Proof
end

