-- ==== Sys2Proof/Machine/Osc.lean ====
section
/-! DEFINITION. The record of one oscillator: exactly the fields of R20. -/

namespace Sys2Proof.Machine

/-- One oscillator (R20), for any type of samples. -/
structure OscOf (S : Type) where
  /-- The phase accumulator (R21). -/
  accumulator : Accumulator
  /-- Added to the accumulator each cycle unless held (R22). -/
  frequency : Frequency
  /-- The pulse threshold (R23). -/
  pulseWidth : Word12
  /-- The waveform code: bit 0 triangle, 1 sawtooth, 2 pulse, 3 noise (R24, R73). -/
  waveformSelect : Nibble
  /-- The test flag (R25). -/
  testHeld : Bool
  /-- Ring modulation (R25). -/
  ringModEnabled : Bool
  /-- Hard sync (R25). -/
  syncEnabled : Bool
  /-- The noise generator's shift register (R26). -/
  noiseShiftRegister : NoiseReg
  /-- The cached noise word (R27). -/
  cachedNoiseSample : Word12
  /-- The cached analog noise sample (R27). -/
  cachedNoiseVoltage : S
  /-- The hold latch (R28). -/
  previousOutputVoltage : S
  /-- The zero level, written by CONFIG only (R29). -/
  zeroLevelVoltage : S
  /-- The accumulator's top bit rose in this cycle's CLOCK (R30). -/
  msbRising : Bool
  /-- The countdown, 0 when not running (R31). -/
  noiseOverwriteDelay : Nat
  deriving DecidableEq, Repr

/-- One oscillator of State. -/
abbrev Osc := OscOf Sample

/-- An oscillator whose analog fields are `y` and whose other fields are 0. It stands for an index that names no
oscillator, which no operation of R81 reads: every meaning refuses such an index first, and the wiring of a legal configuration
names oscillators only (log 10). -/
def blankOsc {S : Type} (y : S) : OscOf S where
  accumulator := 0
  frequency := 0
  pulseWidth := 0
  waveformSelect := 0
  testHeld := false
  ringModEnabled := false
  syncEnabled := false
  noiseShiftRegister := 0
  cachedNoiseSample := 0
  cachedNoiseVoltage := y
  previousOutputVoltage := y
  zeroLevelVoltage := y
  msbRising := false
  noiseOverwriteDelay := 0

end Sys2Proof.Machine
end

