-- ==== Sys2Proof/Machine/Operands.lean ====
section
/-! DEFINITION. Operands: the fields of the data bytes (R70 to R74), the wiring (R34), and what OUTPUT forms from the
accumulator and the waveform code (R75, R76, R179 to R182). -/

namespace Sys2Proof.Machine

variable {S : Type}

/-- FREQ_LO: the data byte becomes bits 7:0 (R70, R101). -/
def withFreqLo (f : Frequency) (d : Byte) : Frequency := f.extractLsb' 8 8 ++ d

/-- FREQ_HI: the data byte becomes bits 15:8 (R70, R102). -/
def withFreqHi (f : Frequency) (d : Byte) : Frequency := d ++ f.extractLsb' 0 8

/-- PW_LO: the data byte becomes bits 7:0 (R71, R103). -/
def withPwLo (p : Word12) (d : Byte) : Word12 := p.extractLsb' 8 4 ++ d

/-- PW_HI: data bits 3:0 become bits 11:8, bits 7:4 are ignored (R71, R104). -/
def withPwHi (p : Word12) (d : Byte) : Word12 := d.extractLsb' 0 4 ++ p.extractLsb' 0 8

/-- CONTROL bits 7:4: the waveform code (R72). -/
def ctlWaveform (d : Byte) : Nibble := d.extractLsb' 4 4

/-- CONTROL bit 3: test (R72, D4). -/
def ctlTest (d : Byte) : Bool := d.getLsbD 3

/-- CONTROL bit 2: ring modulation (R72, D4). -/
def ctlRing (d : Byte) : Bool := d.getLsbD 2

/-- CONTROL bit 1: sync (R72, D4). -/
def ctlSync (d : Byte) : Bool := d.getLsbD 1

/-- The OSC byte: the top 8 bits of the accumulator (R74). -/
def oscByte (acc : Accumulator) : Byte := acc.extractLsb' 16 8

/-- The sync source `src(v)` (R34; `v` itself where the list ends, log 10). -/
def srcOf (cfg : CfgDigital) (v : Nat) : Nat := cfg.src.getD v v

/-- The sync destination `dst(v)` (R34; `v` itself where the list ends, log 10). -/
def dstOf (cfg : CfgDigital) (v : Nat) : Nat := cfg.dst.getD v v

/-- The phase: the top 12 bits of the accumulator (R179). -/
def phaseOf (acc : Accumulator) : Word12 := acc.extractLsb' 12 12

/-- The ring-modulation condition: triangle bit, the flag, and the top bit of the sync source (R180). -/
def ringActive (o source : OscOf S) : Bool :=
  o.waveformSelect.getLsbD 0 && o.ringModEnabled && source.accumulator.getLsbD 23

/-- The table index: the phase, its bit 11 inverted under ring modulation (R76, R180). -/
def romIndex (o source : OscOf S) : Word12 :=
  if ringActive o source then phaseOf o.accumulator ^^^ 0x800#12 else phaseOf o.accumulator

/-- The pulse level, on the unflipped phase (R181, C1, C3). -/
def pulseHigh (o : OscOf S) : Bool := o.testHeld || decide (o.pulseWidth.toNat ≤ (phaseOf o.accumulator).toNat)

/-- The page of a waveform code in `1..7` and a pulse level (R75, R182). -/
def pageNumber (c : Nat) (high : Bool) : Nat := if 4 ≤ c ∧ high = true then c + 3 else c - 1

end Sys2Proof.Machine
end

