-- ==== Sys2Proof/Machine/Defaults.lean ====
section
/-! DEFINITION. The defaults that the table of R10 proposes for the parameters (log 1, log 2). -/

namespace Sys2Proof.Machine

/-- The default wiring `src(v) = (v + NVOICES - 1) mod NVOICES` (R10, D2). -/
def ringSrc (n : Nat) : List Nat := (List.range n).map fun v => (v + n - 1) % n

/-- The default wiring `dst(v) = (v + 1) mod NVOICES` (R10, D2). -/
def ringDst (n : Nat) : List Nat := (List.range n).map fun v => (v + 1) % n

/-- The default `NOISE_TAPS` (R10, R77, D7). -/
def defaultTaps : List (Fin 23 × Fin 12) :=
  [(22, 11), (20, 10), (16, 9), (13, 8), (11, 7), (7, 6), (4, 5), (2, 4)]

/-- The default `TEST_FORCE_MASK` (R10, R79, D9). -/
def defaultForceMask : NoiseReg := 0x7FFFFC#23

/-- The record `CFG` with every default of R10; `PREV_RESET` and the analog items
have none and stay uninterpreted. -/
def defaultCfg : CfgData where
  nvoices := 3
  src := ringSrc 3
  dst := ringDst 3
  noiseTaps := defaultTaps
  testForceMask := defaultForceMask
  noiseOverwriteDelay := 200000
  testRiseClearsAcc := false
  msbStaleUnderTest := false
  forceAppliesClear := false
  noiseReset := defaultForceMask
  prevReset := Config.prevReset
  addAt := []
  dacwAt := []
  zeroAt := []
  wfromAt := []
  rest := .chip

end Sys2Proof.Machine
end

