-- ==== Sys2Proof/Syntax.lean ====
section
/-! DEFINITION. The operations of R81, one constructor per row of spec/opcode_table.json, and the operation word of R80. -/

namespace Sys2Proof

/-- One operation of R81, for any type `N` of coefficients, the default of R10 where none is named: `v` is the `V` digit,
`sel` the `S` digit, `d` the `DD` byte. -/
inductive Instr : (N : Type := NL) → Type where
  /-- WR_FREQ_LO (R101). -/
  | wrFreqLo {N : Type} (v : Nat) (d : Byte) : Instr N
  /-- WR_FREQ_HI (R102). -/
  | wrFreqHi {N : Type} (v : Nat) (d : Byte) : Instr N
  /-- WR_PW_LO (R103). -/
  | wrPwLo {N : Type} (v : Nat) (d : Byte) : Instr N
  /-- WR_PW_HI (R104). -/
  | wrPwHi {N : Type} (v : Nat) (d : Byte) : Instr N
  /-- WR_CONTROL (R105). -/
  | wrControl {N : Type} (v : Nat) (d : Byte) : Instr N
  /-- WR_OTHER, select `sel` in `5..15` (R107). -/
  | wrOther {N : Type} (v : Nat) (sel : Nibble) (d : Byte) : Instr N
  /-- RD_OSC (R106). -/
  | rdOsc {N : Type} (v : Nat) : Instr N
  /-- CLOCK (R120). -/
  | clock {N : Type} (v : Nat) : Instr N
  /-- SYNCHRONIZE (R160). -/
  | synchronize {N : Type} (v : Nat) : Instr N
  /-- OUTPUT (R175). -/
  | output {N : Type} (v : Nat) : Instr N
  /-- CYCLE (R220). -/
  | cycle {N : Type} : Instr N
  /-- RESET (R260). -/
  | reset {N : Type} : Instr N
  /-- CONFIG: the chip model of the word and the coefficient carried beside it (R205, R86). -/
  | config {N : Type} (m : ChipModel) (nl : N) : Instr N
  deriving DecidableEq, Repr

/-- An operation as the host hands it over: the bytes of the 20-bit word, least significant byte first, the four bits
above bit 19 being 0 (log 4), and beside it the coefficient, which only CONFIG reads (R86);
for any type `N` of coefficients. -/
structure OpWordOf (N : Type) where
  bytes : List Byte
  nl : N
  deriving DecidableEq, Repr

/-- The same at the default type of coefficients. -/
abbrev OpWord := OpWordOf NL

end Sys2Proof
end

