-- ==== Sys2Proof/WellFormed.lean ====
section
/-! DEFINITION. Which operations are well formed: the operand ranges of R81 to R83 and R107. -/

namespace Sys2Proof

/-- The `V` digit names an oscillator: below `NVOICES`, and one hexadecimal digit (R80, R82). -/
def voiceOk (nvoices v : Nat) : Bool := decide (v < nvoices) && decide (v < 16)

/-- The operation is one of R81's rows with its operands in range, for `nvoices` oscillators. -/
def Instr.wf {N : Type} (nvoices : Nat) : Instr N → Bool
  | .wrFreqLo v _ => voiceOk nvoices v
  | .wrFreqHi v _ => voiceOk nvoices v
  | .wrPwLo v _ => voiceOk nvoices v
  | .wrPwHi v _ => voiceOk nvoices v
  | .wrControl v _ => voiceOk nvoices v
  | .wrOther v sel _ => voiceOk nvoices v && decide (5 ≤ sel.toNat)
  | .rdOsc v => voiceOk nvoices v
  | .clock v => voiceOk nvoices v
  | .synchronize v => voiceOk nvoices v
  | .output v => voiceOk nvoices v
  | .cycle => true
  | .reset => true
  | .config _ _ => true

end Sys2Proof
end

