-- ==== Sys2Proof/Decode.lean ====
section
/-! DEFINITION. Decoding an operation word, total on any bytes and rejecting by name, and the encoder (R80 to R83, R86).
The table of R81 stands here a second time as rows of mask and pattern, the way spec/opcode_table.json writes it. -/

namespace Sys2Proof

variable {N : Type}

/-- Why bytes are not an operation word (R83). -/
inductive Reject where
  /-- Not the three bytes of one word. -/
  | badLength
  /-- A bit above bit 19 is set: an operation word is 20 bits (R80). -/
  | notTwentyBits
  /-- `K` is 0 or 9..15. -/
  | badKind
  /-- `V >= NVOICES`. -/
  | noSuchOscillator
  /-- A field that R81 shows as 0 is not 0. -/
  | nonzeroField
  /-- `K = 2` with `S` not 7 (R108). -/
  | noSuchReadPort
  /-- `K = 8` with `S > 1`. -/
  | badModel
  /-- A write to "another" select, with a select of one of this block's own ports (R107). -/
  | badSelect
  deriving DecidableEq, Repr

/-- The field `K` of a word (R80). -/
def kindField (w : BitVec 24) : Nibble := w.extractLsb' 16 4

/-- The field `V` of a word (R80). -/
def voiceField (w : BitVec 24) : Nibble := w.extractLsb' 12 4

/-- The field `S` of a word (R80). -/
def selectField (w : BitVec 24) : Nibble := w.extractLsb' 8 4

/-- The field `DD` of a word (R80). -/
def dataField (w : BitVec 24) : Byte := w.extractLsb' 0 8

/-- The write operation of select `sel` (R81): the five ports, and WR_OTHER for `5..15`. -/
def decodeWrite (v : Nat) (sel : Nibble) (d : Byte) : Instr N :=
  match sel.toNat with
  | 0 => .wrFreqLo v d
  | 1 => .wrFreqHi v d
  | 2 => .wrPwLo v d
  | 3 => .wrPwHi v d
  | 4 => .wrControl v d
  | _ => .wrOther v sel d

/-- The oscillator index of a word, checked against `NVOICES` (R82). -/
def withVoice (nvoices : Nat) (w : BitVec 24) (k : Nat → Instr N) : Except Reject (Instr N) :=
  if (voiceField w).toNat < nvoices then .ok (k (voiceField w).toNat) else .error .noSuchOscillator

/-- A word whose `S` and `DD` must be 0 (R81). -/
def plainVoice (nvoices : Nat) (w : BitVec 24) (k : Nat → Instr N) : Except Reject (Instr N) :=
  if selectField w = 0#4 ∧ dataField w = 0#8 then withVoice nvoices w k else .error .nonzeroField

/-- A word whose `V`, `S` and `DD` must be 0 (R81). -/
def bareWord (w : BitVec 24) (i : Instr N) : Except Reject (Instr N) :=
  if voiceField w = 0#4 ∧ selectField w = 0#4 ∧ dataField w = 0#8 then .ok i else .error .nonzeroField

/-- The CONFIG word: `V` and `DD` 0, `S` the chip model (R86). -/
def decodeConfig (w : BitVec 24) (nl : N) : Except Reject (Instr N) :=
  if voiceField w = 0#4 ∧ dataField w = 0#8 then
    match (selectField w).toNat with
    | 0 => .ok (.config .model0 nl)
    | 1 => .ok (.config .model1 nl)
    | _ => .error .badModel
  else .error .nonzeroField

/-- Decode one word and the coefficient beside it (R81, R83). -/
def decodeWord (nvoices : Nat) (w : BitVec 24) (nl : N) : Except Reject (Instr N) :=
  if w.extractLsb' 20 4 ≠ 0#4 then .error .notTwentyBits
  else
    match (kindField w).toNat with
    | 1 => withVoice nvoices w fun v => decodeWrite v (selectField w) (dataField w)
    | 2 =>
      if selectField w ≠ 7#4 then .error .noSuchReadPort
      else if dataField w ≠ 0#8 then .error .nonzeroField
      else withVoice nvoices w .rdOsc
    | 3 => plainVoice nvoices w .clock
    | 4 => plainVoice nvoices w .synchronize
    | 5 => plainVoice nvoices w .output
    | 6 => bareWord w .cycle
    | 7 => bareWord w .reset
    | 8 => decodeConfig w nl
    | _ => .error .badKind

/-- Decode an operation as the host hands it over: three bytes, least significant first (log 4). -/
def decode (nvoices : Nat) (op : OpWordOf N) : Except Reject (Instr N) :=
  match op.bytes with
  | [b0, b1, b2] => decodeWord nvoices (b2 ++ b1 ++ b0) op.nl
  | _ => .error .badLength

/-- The word `K V S DD` (R80). -/
def packWord (k v s : Nibble) (d : Byte) : BitVec 24 := 0#4 ++ k ++ v ++ s ++ d

/-- The `S` digit of a CONFIG word (R86). -/
def modelDigit : ChipModel → Nibble
  | .model0 => 0#4
  | .model1 => 1#4

/-- The word of an operation, row by row from R81. -/
def encodeWord : Instr N → BitVec 24
  | .wrFreqLo v d => packWord 1#4 (BitVec.ofNat 4 v) 0#4 d
  | .wrFreqHi v d => packWord 1#4 (BitVec.ofNat 4 v) 1#4 d
  | .wrPwLo v d => packWord 1#4 (BitVec.ofNat 4 v) 2#4 d
  | .wrPwHi v d => packWord 1#4 (BitVec.ofNat 4 v) 3#4 d
  | .wrControl v d => packWord 1#4 (BitVec.ofNat 4 v) 4#4 d
  | .wrOther v sel d => packWord 1#4 (BitVec.ofNat 4 v) sel d
  | .rdOsc v => packWord 2#4 (BitVec.ofNat 4 v) 7#4 0#8
  | .clock v => packWord 3#4 (BitVec.ofNat 4 v) 0#4 0#8
  | .synchronize v => packWord 4#4 (BitVec.ofNat 4 v) 0#4 0#8
  | .output v => packWord 5#4 (BitVec.ofNat 4 v) 0#4 0#8
  | .cycle => packWord 6#4 0#4 0#4 0#8
  | .reset => packWord 7#4 0#4 0#4 0#8
  | .config m _ => packWord 8#4 0#4 (modelDigit m) 0#8

/-- The coefficient beside the word: CONFIG's operand, 0 for the others, which do not read it (R86). -/
def encodeNl [Zero N] : Instr N → N
  | .config _ nl => nl
  | _ => 0

/-- The three bytes of a word, least significant first (log 4). -/
def splitWord (w : BitVec 24) : List Byte := [w.extractLsb' 0 8, w.extractLsb' 8 8, w.extractLsb' 16 8]

/-- Encode an operation. -/
def encode [Zero N] (i : Instr N) : OpWordOf N where
  bytes := splitWord (encodeWord i)
  nl := encodeNl i

/-- The operation word whose bits are `w`, as the host hands it over: three bytes where `w` fits in them, and a
fourth, which no operation word has, where it does not. The coefficient beside it is 0, "operand words of zeros". -/
def opWordOfNat (nbits w : Nat) : OpWord where
  bytes :=
    let b := w % 2 ^ nbits
    if b < 2 ^ 24 then splitWord (BitVec.ofNat 24 b)
    else splitWord (BitVec.ofNat 24 b) ++ [BitVec.ofNat 8 (b / 2 ^ 24)]
  nl := 0

/-- The operation this decoder reads from the word whose bits are `w`, for the default `NVOICES`. -/
def decodeTableWord (nbits w : Nat) : Option Instr :=
  (decode Machine.defaultCfg.nvoices (opWordOfNat nbits w)).toOption

/-- The mnemonic of an operation, as R81 and spec/opcode_table.json spell it. -/
def Instr.mnemonic : Instr N → String
  | .wrFreqLo _ _ => "WR_FREQ_LO"
  | .wrFreqHi _ _ => "WR_FREQ_HI"
  | .wrPwLo _ _ => "WR_PW_LO"
  | .wrPwHi _ _ => "WR_PW_HI"
  | .wrControl _ _ => "WR_CONTROL"
  | .wrOther _ _ _ => "WR_OTHER"
  | .rdOsc _ => "RD_OSC"
  | .clock _ => "CLOCK"
  | .synchronize _ => "SYNCHRONIZE"
  | .output _ => "OUTPUT"
  | .cycle => "CYCLE"
  | .reset => "RESET"
  | .config _ _ => "CONFIG"

/-- One row of the opcode table: the bits that are fixed, and whether the row's `V` is an oscillator index. -/
structure OpcodeRow where
  mnemonic : String
  pattern : BitVec 20
  mask : BitVec 20
  hasVoice : Bool
  minSelect : Nat
  deriving DecidableEq, Repr

/-- The 13 rows of the table of R81, "match" and "mask" as spec/opcode_table.json gives them, with the constraint
`S >= 5` of WR_OTHER. -/
def opcodeRows : List OpcodeRow :=
  [⟨"WR_FREQ_LO", 0x10000#20, 0xF0F00#20, true, 0⟩,
   ⟨"WR_FREQ_HI", 0x10100#20, 0xF0F00#20, true, 0⟩,
   ⟨"WR_PW_LO", 0x10200#20, 0xF0F00#20, true, 0⟩,
   ⟨"WR_PW_HI", 0x10300#20, 0xF0F00#20, true, 0⟩,
   ⟨"WR_CONTROL", 0x10400#20, 0xF0F00#20, true, 0⟩,
   ⟨"WR_OTHER", 0x10000#20, 0xF0000#20, true, 5⟩,
   ⟨"RD_OSC", 0x20700#20, 0xF0FFF#20, true, 0⟩,
   ⟨"CLOCK", 0x30000#20, 0xF0FFF#20, true, 0⟩,
   ⟨"SYNCHRONIZE", 0x40000#20, 0xF0FFF#20, true, 0⟩,
   ⟨"OUTPUT", 0x50000#20, 0xF0FFF#20, true, 0⟩,
   ⟨"CYCLE", 0x60000#20, 0xFFFFF#20, false, 0⟩,
   ⟨"RESET", 0x70000#20, 0xFFFFF#20, false, 0⟩,
   ⟨"CONFIG", 0x80000#20, 0xFFEFF#20, false, 0⟩]

/-- The row fits the word, for `nvoices` oscillators. -/
def OpcodeRow.fits (r : OpcodeRow) (nvoices : Nat) (w : BitVec 20) : Bool :=
  decide (w &&& r.mask = r.pattern) && decide (r.minSelect ≤ (w.extractLsb' 8 4).toNat)
    && (!r.hasVoice || decide ((w.extractLsb' 12 4).toNat < nvoices))

end Sys2Proof
end

