-- ==== Sys2Proof/Machine/Tables.lean ====
section
/-! DEFINITION. The two read-only tables, the zero level and the addition on samples (R15, R53, R54, R200 to R208), and
the configuration record that plain data stands for. -/

namespace Sys2Proof.Machine

/-- The ideal triangle of `CFG_LINEAR` (R208). -/
def linearTriangle (p : Word12) : Word12 :=
  ((p ^^^ (if p.getLsbD 11 then 0xFFF#12 else 0x000#12)) <<< 1) &&& 0xFFE#12

/-- Entry `p` of page `t` of `CFG_LINEAR`: the AND of the ideal waveforms the page combines (R208). -/
def linearWave (t : Nat) (p : Word12) : Word12 :=
  match t with
  | 0 => linearTriangle p
  | 1 => p
  | 2 => linearTriangle p &&& p
  | 7 => 0xFFF#12
  | 8 => linearTriangle p
  | 9 => p
  | 10 => linearTriangle p &&& p
  | _ => 0x000#12

/-- `CFG_LINEAR`, for any type that has the numbers (R208: the integers). -/
def linearAnalog {S N : Type} [NatCast S] [Add S] : Analog S N where
  add x y := x + y
  dacw _ i := ((2 ^ i : Nat) : S)
  zero _ := ((0 : Nat) : S)
  wfrom _ _ t p := ((linearWave t p).toNat : S)

/-- The chip's contents (R200, R203, R207). -/
def chipAnalog : Analog Sample NL where
  add := Config.sampleAdd
  dacw := Config.dacWeight
  zero := Config.zeroLevel
  wfrom := Config.waveSample

/-- The contents a name stands for. -/
def namedAnalog : AnalogSet → Analog Sample NL
  | .chip => chipAnalog
  | .linear => linearAnalog

/-- A function with the values of a list of pairs instead of its own. -/
def withListed {α β : Type} [BEq α] (listed : List (α × β)) (f : α → β) (a : α) : β := (listed.lookup a).getD (f a)

end Sys2Proof.Machine

namespace Sys2Proof

/-- The analog items that plain data stands for. -/
def CfgData.analog (d : CfgData) : Analog Sample NL where
  add x y := Machine.withListed d.addAt (fun a => (Machine.namedAnalog d.rest).add a.1 a.2) (x, y)
  dacw m i := Machine.withListed d.dacwAt (fun a => (Machine.namedAnalog d.rest).dacw a.1 a.2) (m, i)
  zero m := Machine.withListed d.zeroAt (Machine.namedAnalog d.rest).zero m
  wfrom m nl t p := Machine.withListed d.wfromAt
    (fun a => (Machine.namedAnalog d.rest).wfrom a.1 a.2.1 a.2.2.1 a.2.2.2) (m, nl, t, p)

/-- The record `CFG` that plain data stands for (R10). -/
abbrev CfgData.toCfg (d : CfgData) : Cfg Sample NL where
  toCfgDigital := d.toCfgDigital
  toAnalog := d.analog
  prevReset := d.prevReset

end Sys2Proof

namespace Sys2Proof.Machine

variable {S N : Type}

/-- `DacRead(i)` for chip model `m` (R54, R65, R200). -/
def dacRead (a : Analog S N) (m : ChipModel) (i : Nat) : S := a.dacw m i

/-- `ZERO(m)` (R207). -/
def zeroLevelOf (a : Analog S N) (m : ChipModel) : S := a.zero m

/-- `RomRead(t, p)` for chip model `m` and coefficient `nl` (R53, R65, R203). -/
def romRead (a : Analog S N) (m : ChipModel) (nl : N) (t : Nat) (p : Word12) : S := a.wfrom m nl t p

end Sys2Proof.Machine
end

