-- ==== Sys2Proof/Machine/Noise.lean ====
section
/-! DEFINITION. The noise generator: step, force, noise word, noise DAC and recompute (R140 to R152). -/

namespace Sys2Proof.Machine

variable {S N : Type}

/-- The OR of the register positions of the taps: `NOISE_CLEAR_MASK` (R78). -/
def noiseClearMask (taps : List (Fin 23 × Fin 12)) : NoiseReg :=
  taps.foldl (fun acc t => acc ||| BitVec.twoPow 23 t.1.val) 0#23

/-- `NoiseWord(r)`: register bit `s` to word bit `o` for each tap `(s, o)`, the other word bits 0 (R144). -/
def noiseWord (taps : List (Fin 23 × Fin 12)) (r : NoiseReg) : Word12 :=
  taps.foldl (fun acc t => if r.getLsbD t.1.val then acc ||| BitVec.twoPow 12 t.2.val else acc) 0#12

/-- `NoiseDac(w)` from a zero level: the weights of the set bits, by ascending bit number (R145). -/
def noiseDac (a : Analog S N) (m : ChipModel) (zero : S) (w : Word12) : S :=
  (List.range 12).foldl (fun acc i => if w.getLsbD i then a.add acc (dacRead a m i) else acc) zero

/-- `NoiseRecompute`: the cache from the register, the oscillator's zero level and the current weights (R146). -/
def noiseRecompute (cfg : Cfg S N) (m : ChipModel) (o : OscOf S) : OscOf S :=
  { o with
    cachedNoiseSample := noiseWord cfg.noiseTaps o.noiseShiftRegister
    cachedNoiseVoltage :=
      noiseDac cfg.toAnalog m o.zeroLevelVoltage (noiseWord cfg.noiseTaps o.noiseShiftRegister) }

/-- The feedback bit, of the value before the shift (R141). -/
def noiseFeedback (r : NoiseReg) : Bool := r.getLsbD 22 ^^ r.getLsbD 17

/-- The shift by one with the feedback bit at position 0 (R142). -/
def noiseShift (r : NoiseReg) : NoiseReg := (r <<< 1) ||| (if noiseFeedback r then 1#23 else 0#23)

/-- The clear of the tap bits for a waveform code above 8 (R143). -/
def noiseClear (taps : List (Fin 23 × Fin 12)) (c : Nibble) (r : NoiseReg) : NoiseReg :=
  if 8 < c.toNat then r &&& ~~~ noiseClearMask taps else r

/-- `NoiseStep` (R140). -/
def noiseStep (cfg : Cfg S N) (m : ChipModel) (o : OscOf S) : OscOf S :=
  noiseRecompute cfg m
    { o with noiseShiftRegister := noiseClear cfg.noiseTaps o.waveformSelect (noiseShift o.noiseShiftRegister) }

/-- The register after `NoiseForce` (R147). -/
def forcedRegister (cfg : CfgDigital) (c : Nibble) (r : NoiseReg) : NoiseReg :=
  if cfg.forceAppliesClear then noiseClear cfg.noiseTaps c (r ||| cfg.testForceMask) else r ||| cfg.testForceMask

/-- `NoiseForce` (R147). -/
def noiseForce (cfg : Cfg S N) (m : ChipModel) (o : OscOf S) : OscOf S :=
  noiseRecompute cfg m
    { o with noiseShiftRegister := forcedRegister cfg.toCfgDigital o.waveformSelect o.noiseShiftRegister }

end Sys2Proof.Machine
end

