-- ==== Sys2Proof/Machine/ResetValues.lean ====
section
/-! DEFINITION. The value of every field of an oscillator after RESET (R40, R260). -/

namespace Sys2Proof.Machine

variable {S N : Type}

/-- The oscillator after RESET: the table of R40; `zeroLevelVoltage` is not changed. -/
def resetOsc (cfg : Cfg S N) (m : ChipModel) (o : OscOf S) : OscOf S :=
  noiseRecompute cfg m
    { accumulator := 0#24
      frequency := 0#16
      pulseWidth := 0#12
      waveformSelect := 0#4
      testHeld := false
      ringModEnabled := false
      syncEnabled := false
      noiseShiftRegister := cfg.noiseReset
      cachedNoiseSample := o.cachedNoiseSample
      cachedNoiseVoltage := o.cachedNoiseVoltage
      previousOutputVoltage := cfg.prevReset
      zeroLevelVoltage := o.zeroLevelVoltage
      msbRising := false
      noiseOverwriteDelay := 0 }

/-- The chip model and the coefficient in force at `State.reset`; the spec states neither (log 7). -/
def resetModel : ChipModel := .model0

/-- See `resetModel`. -/
def resetNl : NL := 0

/-- The oscillators at `State.reset`: RESET after the configuration of `resetModel` (R40, R262). -/
def resetOscs (cfg : Cfg S N) : List (OscOf S) :=
  List.replicate cfg.nvoices (resetOsc cfg resetModel (blankOsc (zeroLevelOf cfg.toAnalog resetModel)))

end Sys2Proof.Machine
end

