-- ==== Sys2Proof/Machine/State.lean ====
section
/-! DEFINITION. The machine's state as plain data, the reasons a step is refused, and the state after reset. -/

namespace Sys2Proof.Machine

/-- The sequencer of R221. A set of oscillators is the strictly rising list of its members, so that equal sets are
equal data. -/
inductive Sequencer where
  | idle
  | clocking (served : List Nat)
  | syncing (served : List Nat)
  | outputting (served : List Nat)
  deriving DecidableEq, Repr

/-- What a run yields (R16, R224), for any type of samples. -/
inductive Result : (S : Type := Sample) → Type where
  /-- The sample OUTPUT returned for oscillator `v` (R175). -/
  | sample {S : Type} (v : Nat) (y : S) : Result S
  /-- The byte RD_OSC returned for oscillator `v` (R106). -/
  | osc {S : Type} (v : Nat) (b : Byte) : Result S
  deriving DecidableEq, Repr

/-- The state that the step relation acts on, for any types of samples and of coefficients: the oscillators (R20), the
shared configuration registers (R33), the sequencer (R221), whether the first RESET has happened (R261), and the model's
own `inputs` and `results`. The parameters `CFG` of R10 are no part of it but the argument of the step relation (R37). -/
structure StateOf (S N : Type) where
  /-- Oscillator `v` is entry `v`. -/
  oscs : List (OscOf S)
  /-- The chip model in force (R33). -/
  model : ChipModel
  /-- The nonlinearity coefficient in force (R33). -/
  nl : N
  /-- The sequencer (R221). -/
  seq : Sequencer
  /-- The first RESET has happened (R261). -/
  hasReset : Bool
  /-- The host's operations still to be performed, oldest first (R37, R224, log 5). -/
  inputs : List (OpWordOf N)
  /-- The results yielded so far, oldest first (R224, log 6). -/
  results : List (Result S)
  deriving DecidableEq, Repr

/-- A state together with the parameters it runs under, all plain data, at the default types of R10 (log 3). -/
structure State extends StateOf Sample NL where
  /-- The parameters `CFG` of the step relation (R10), as plain data: no operation writes them (R37, log 1). -/
  cfg : CfgData
  deriving DecidableEq, Repr

/-- The hardware has no fault (R235, R238, R247): no constructor. -/
inductive Fault where
  deriving DecidableEq, Repr

/-- Why a step is refused: the causes of R247, none of them a hardware event. Every one is safe: the model gives the
operation no next state. -/
inductive Refusal where
  /-- An instruction without a meaning: raised by no arm of `exec`. Safe. -/
  | notModelled (mnemonic : String)
  /-- An invalid operation word, raised by `step` when decoding rejects it and by a meaning whose operands are out of
  range (R83, U9). Safe. -/
  | invalidWord (why : Reject)
  /-- An operation not legal in the current sequencer state, raised by the meanings (R221, R222, U3, U4). Safe. -/
  | outOfSequence
  /-- A read of a port that does not exist, raised by `step` and by `regRead` (R108, U11). Safe. -/
  | noSuchPort
  /-- An operation other than RESET and CONFIG before the first RESET, raised by the meanings (R261, U10). Safe. -/
  | beforeReset
  /-- No operation is left to perform, raised by `step` (R224, log 5). Safe. -/
  | inputExhausted
  deriving DecidableEq, Repr

/-- The state right after RESET under the parameters `cfg`, with coefficient `nl` in force (R40, R260, log 7). -/
def bootState {S N : Type} (cfg : Cfg S N) (nl : N) : StateOf S N where
  oscs := resetOscs cfg
  model := resetModel
  nl := nl
  seq := .idle
  hasReset := true
  inputs := []
  results := []

/-- The machine right after RESET, with the default parameters of R10 (R40, R260). -/
def State.reset : State where
  toStateOf := bootState defaultCfg.toCfg resetNl
  cfg := defaultCfg

end Sys2Proof.Machine
end

