-- ==== Sys2Proof/Machine/Ops.lean ====
section
/-! DEFINITION. The operations every meaning is built from: reading and writing an oscillator, the register ports
(R65), the sequencer (R221, R222), the results (R224), and the three ways an operation is admitted or refused.
There is no exception to take and none to return from (R235, R238). -/

namespace Sys2Proof.Machine

variable {S N : Type}

/-- The outcome of an operation in the step relation. -/
abbrev OutOf (S N : Type) := Host.Outcome (StateOf S N) Fault Refusal

/-- The outcome of an operation on a state that carries its parameters. -/
abbrev Out := Host.Outcome State Fault Refusal

/-- The step relation's operation `op` at the parameters that the state carries; the parameters stay (R37). -/
def State.underCfg (s : State) (op : Cfg Sample NL → StateOf Sample NL → OutOf Sample NL) : Out :=
  match op s.cfg.toCfg s.toStateOf with
  | .next t => .next { s with toStateOf := t }
  | .fault f => .fault f
  | .refused r => .refused r

/-- Oscillator `v`. -/
def readOsc (cfg : Cfg S N) (s : StateOf S N) (v : Nat) : OscOf S := s.oscs.getD v (blankOsc cfg.prevReset)

/-- Oscillator `v` of a state that carries its parameters. -/
def State.osc (s : State) (v : Nat) : Osc := readOsc s.cfg.toCfg s.toStateOf v

/-- Change oscillator `v`. -/
def StateOf.modifyOsc (s : StateOf S N) (v : Nat) (f : OscOf S → OscOf S) : StateOf S N :=
  { s with oscs := s.oscs.modify v f }

/-- Yield a result. -/
def StateOf.yieldResult (s : StateOf S N) (r : Result S) : StateOf S N := { s with results := s.results ++ [r] }

/-- Put an index into a strictly rising list. -/
def insertVoice (v : Nat) : List Nat → List Nat
  | [] => [v]
  | u :: us => if v < u then v :: u :: us else if v = u then u :: us else u :: insertVoice v us

/-- The set is `all`: every oscillator has been served (R221). -/
def allServed (nvoices : Nat) (served : List Nat) : Bool := (List.range nvoices).all fun v => served.contains v

/-- The sequencer after CLOCK `v`, where it is legal (R221). -/
def seqClock (v : Nat) : Sequencer → Option Sequencer
  | .idle => some (.clocking [v])
  | .clocking served => if served.contains v then none else some (.clocking (insertVoice v served))
  | .syncing _ => none
  | .outputting _ => none

/-- The sequencer after SYNCHRONIZE `v`, where it is legal (R221). -/
def seqSync (nvoices v : Nat) : Sequencer → Option Sequencer
  | .idle => none
  | .clocking served => if allServed nvoices served then some (.syncing [v]) else none
  | .syncing served => if served.contains v then none else some (.syncing (insertVoice v served))
  | .outputting _ => none

/-- The sequencer after an OUTPUT that has served this set: `IDLE` when it is `all` (R221). -/
def seqAfterOutput (nvoices : Nat) (served : List Nat) : Sequencer :=
  if allServed nvoices served then .idle else .outputting served

/-- The sequencer after OUTPUT `v`, where it is legal (R221). -/
def seqOutput (nvoices v : Nat) : Sequencer → Option Sequencer
  | .idle => none
  | .clocking _ => none
  | .syncing served => if allServed nvoices served then some (seqAfterOutput nvoices [v]) else none
  | .outputting served => if served.contains v then none else some (seqAfterOutput nvoices (insertVoice v served))

/-- Admit an operation of the host on the whole block: after the first RESET and in `IDLE` (R222, R261; the order of the
causes of a refusal, here and below, is log 9). -/
def hostOp (s next : StateOf S N) : OutOf S N :=
  if s.hasReset = false then .refused .beforeReset
  else if s.seq = .idle then .next next
  else .refused .outOfSequence

/-- Admit an operation of the host on oscillator `v` (R83, R222, R261). -/
def hostVoiceOp (nvoices v : Nat) (s next : StateOf S N) : OutOf S N :=
  if nvoices ≤ v then .refused (.invalidWord .noSuchOscillator) else hostOp s next

/-- Admit a micro-operation on oscillator `v` whose sequencer transition is `after` (R83, R221, R261). -/
def microOp (nvoices v : Nat) (s : StateOf S N) (after : Option Sequencer) (next : StateOf S N) : OutOf S N :=
  if nvoices ≤ v then .refused (.invalidWord .noSuchOscillator)
  else if s.hasReset = false then .refused .beforeReset
  else
    match after with
    | none => .refused .outOfSequence
    | some q => .next { next with seq := q }

/-- The FREQ_LO port (R51, R101). -/
def portFreqLo (d : Byte) (o : OscOf S) : OscOf S := { o with frequency := withFreqLo o.frequency d }

/-- The FREQ_HI port (R51, R102). -/
def portFreqHi (d : Byte) (o : OscOf S) : OscOf S := { o with frequency := withFreqHi o.frequency d }

/-- The PW_LO port (R51, R103). -/
def portPwLo (d : Byte) (o : OscOf S) : OscOf S := { o with pulseWidth := withPwLo o.pulseWidth d }

/-- The PW_HI port (R51, R104). -/
def portPwHi (d : Byte) (o : OscOf S) : OscOf S := { o with pulseWidth := withPwHi o.pulseWidth d }

/-- Step 1 of R105: the rising edge of test loads the countdown, and clears the accumulator under the switch. -/
def testRise (cfg : CfgDigital) (d : Byte) (o : OscOf S) : OscOf S :=
  if ctlTest d && !o.testHeld then
    { o with
      noiseOverwriteDelay := cfg.noiseOverwriteDelay
      accumulator := if cfg.testRiseClearsAcc then 0#24 else o.accumulator }
  else o

/-- The CONTROL port: step 1, then the four fields of step 2 (R51, R105). -/
def portControl (cfg : CfgDigital) (d : Byte) (o : OscOf S) : OscOf S :=
  { testRise cfg d o with
    waveformSelect := ctlWaveform d
    testHeld := ctlTest d
    ringModEnabled := ctlRing d
    syncEnabled := ctlSync d }

/-- `RegWrite(v, sel, d)` on the oscillator: the port `sel` selects, nothing for `5..15` (R51, R65). -/
def regWrite (cfg : CfgDigital) (sel : Nibble) (d : Byte) (o : OscOf S) : OscOf S :=
  match sel.toNat with
  | 0 => portFreqLo d o
  | 1 => portFreqHi d o
  | 2 => portPwLo d o
  | 3 => portPwHi d o
  | 4 => portControl cfg d o
  | _ => o

/-- `RegRead(v, sel)`: the OSC byte for select 7, refused for any other (R52, R65, R108). -/
def regRead (sel : Nibble) (o : OscOf S) : Except Refusal Byte :=
  if sel = 7#4 then .ok (oscByte o.accumulator) else .error .noSuchPort

/-- The refusal a rejected word turns into (R83, R108). -/
def refusalOf : Reject → Refusal
  | .noSuchReadPort => .noSuchPort
  | r => .invalidWord r

end Sys2Proof.Machine
end

