-- ==== Sys2Proof/Machine/RegisterAccess.lean ====
section
/-! DEFINITION. The register writes and the OSC read (R100 to R109). -/

namespace Sys2Proof.Machine

variable {S N : Type}

/-- WR_FREQ_LO (R101). -/
def opWrFreqLo (v : Nat) (d : Byte) (cfg : Cfg S N) (s : StateOf S N) : OutOf S N :=
  hostVoiceOp cfg.nvoices v s (s.modifyOsc v (portFreqLo d))

/-- WR_FREQ_LO on a state that carries its parameters. -/
def execWrFreqLo (v : Nat) (d : Byte) (s : State) : Out := s.underCfg (opWrFreqLo v d)

/-- WR_FREQ_HI (R102). -/
def opWrFreqHi (v : Nat) (d : Byte) (cfg : Cfg S N) (s : StateOf S N) : OutOf S N :=
  hostVoiceOp cfg.nvoices v s (s.modifyOsc v (portFreqHi d))

/-- WR_FREQ_HI on a state that carries its parameters. -/
def execWrFreqHi (v : Nat) (d : Byte) (s : State) : Out := s.underCfg (opWrFreqHi v d)

/-- WR_PW_LO (R103). -/
def opWrPwLo (v : Nat) (d : Byte) (cfg : Cfg S N) (s : StateOf S N) : OutOf S N :=
  hostVoiceOp cfg.nvoices v s (s.modifyOsc v (portPwLo d))

/-- WR_PW_LO on a state that carries its parameters. -/
def execWrPwLo (v : Nat) (d : Byte) (s : State) : Out := s.underCfg (opWrPwLo v d)

/-- WR_PW_HI (R104). -/
def opWrPwHi (v : Nat) (d : Byte) (cfg : Cfg S N) (s : StateOf S N) : OutOf S N :=
  hostVoiceOp cfg.nvoices v s (s.modifyOsc v (portPwHi d))

/-- WR_PW_HI on a state that carries its parameters. -/
def execWrPwHi (v : Nat) (d : Byte) (s : State) : Out := s.underCfg (opWrPwHi v d)

/-- WR_CONTROL (R105). -/
def opWrControl (v : Nat) (d : Byte) (cfg : Cfg S N) (s : StateOf S N) : OutOf S N :=
  hostVoiceOp cfg.nvoices v s (s.modifyOsc v (portControl cfg.toCfgDigital d))

/-- WR_CONTROL on a state that carries its parameters. -/
def execWrControl (v : Nat) (d : Byte) (s : State) : Out := s.underCfg (opWrControl v d)

/-- WR_OTHER: `RegWrite` with a select that names no port of this block (R107); selects `0..4` are other rows (R81). -/
def opWrOther (v : Nat) (sel : Nibble) (d : Byte) (cfg : Cfg S N) (s : StateOf S N) : OutOf S N :=
  if 5 ≤ sel.toNat then hostVoiceOp cfg.nvoices v s (s.modifyOsc v (regWrite cfg.toCfgDigital sel d))
  else .refused (.invalidWord .badSelect)

/-- WR_OTHER on a state that carries its parameters. -/
def execWrOther (v : Nat) (sel : Nibble) (d : Byte) (s : State) : Out := s.underCfg (opWrOther v sel d)

/-- RD_OSC: yields the OSC byte and writes nothing (R106). -/
def opRdOsc (v : Nat) (cfg : Cfg S N) (s : StateOf S N) : OutOf S N :=
  match regRead 7#4 (readOsc cfg s v) with
  | .ok b => hostVoiceOp cfg.nvoices v s (s.yieldResult (.osc v b))
  | .error r => .refused r

/-- RD_OSC on a state that carries its parameters. -/
def execRdOsc (v : Nat) (s : State) : Out := s.underCfg (opRdOsc v)

end Sys2Proof.Machine
end

