-- ==== Sys2Proof/Machine/Clock.lean ====
section
/-! DEFINITION. CLOCK: the phase accumulator step and the test branch (R120 to R127). -/

namespace Sys2Proof.Machine

variable {S N : Type}

/-- The countdown of R122: decremented before it is tested, the force on the CLOCK that takes it from 1 to 0. -/
def countDown (cfg : Cfg S N) (m : ChipModel) (o : OscOf S) : OscOf S :=
  match o.noiseOverwriteDelay with
  | 0 => o
  | 1 => noiseForce cfg m { o with noiseOverwriteDelay := 0 }
  | n + 2 => { o with noiseOverwriteDelay := n + 1 }

/-- CLOCK with `testHeld` true (R121). -/
def clockHeld (cfg : Cfg S N) (m : ChipModel) (o : OscOf S) : OscOf S :=
  countDown cfg m { o with msbRising := msbUnderTest cfg.msbStaleUnderTest o.msbRising }

/-- The accumulator after the addition, modulo 2^24 (R123). -/
def advance (o : OscOf S) : Accumulator := o.accumulator + o.frequency.setWidth 24

/-- Steps 1 to 4 of CLOCK with `testHeld` false (R123). -/
def advanceOsc (o : OscOf S) : OscOf S :=
  { o with accumulator := advance o, msbRising := msbRises o.accumulator (advance o) }

/-- CLOCK with `testHeld` false (R123). -/
def clockRunning (cfg : Cfg S N) (m : ChipModel) (o : OscOf S) : OscOf S :=
  if noiseClockRises o.accumulator (advance o) then noiseStep cfg m (advanceOsc o) else advanceOsc o

/-- CLOCK on one oscillator (R120). -/
def clockOsc (cfg : Cfg S N) (m : ChipModel) (o : OscOf S) : OscOf S :=
  if o.testHeld then clockHeld cfg m o else clockRunning cfg m o

/-- The effect of CLOCK `v` on the state, the sequencer apart. -/
def clockVoice (cfg : Cfg S N) (s : StateOf S N) (v : Nat) : StateOf S N := s.modifyOsc v (clockOsc cfg s.model)

/-- CLOCK (R120). -/
def opClock (v : Nat) (cfg : Cfg S N) (s : StateOf S N) : OutOf S N :=
  microOp cfg.nvoices v s (seqClock v s.seq) (clockVoice cfg s v)

/-- CLOCK on a state that carries its parameters. -/
def execClock (v : Nat) (s : State) : Out := s.underCfg (opClock v)

end Sys2Proof.Machine
end

