-- ==== Sys2Proof/Machine/Output.lean ====
section
/-! DEFINITION. OUTPUT: the analog output multiplexer and the hold latch (R175 to R188). -/

namespace Sys2Proof.Machine

variable {S N : Type}

/-- Codes 1 to 7: the table lookup (R179 to R183). -/
def waveOut (a : Analog S N) (m : ChipModel) (nl : N) (o source : OscOf S) : S :=
  romRead a m nl (pageNumber o.waveformSelect.toNat (pulseHigh o)) (romIndex o source)

/-- `Out(v)`, from the record of `v` and of its sync source: the four-way selection on the waveform code (R176, R177,
R178, R186). -/
def outSample (a : Analog S N) (m : ChipModel) (nl : N) (o source : OscOf S) : S :=
  match o.waveformSelect.toNat with
  | 0 => o.previousOutputVoltage
  | 1 | 2 | 3 | 4 | 5 | 6 | 7 => waveOut a m nl o source
  | 8 => o.cachedNoiseVoltage
  | _ => o.zeroLevelVoltage

/-- `Out(v)` in a state (R176). -/
def outOf (cfg : Cfg S N) (s : StateOf S N) (v : Nat) : S :=
  outSample cfg.toAnalog s.model s.nl (readOsc cfg s v) (readOsc cfg s (srcOf cfg.toCfgDigital v))

/-- The hold latch (R184). -/
def latch (y : S) (o : OscOf S) : OscOf S := { o with previousOutputVoltage := y }

/-- The effect of OUTPUT `v` on the state, the sequencer apart (R175). -/
def outputVoice (cfg : Cfg S N) (s : StateOf S N) (v : Nat) : StateOf S N :=
  (s.modifyOsc v (latch (outOf cfg s v))).yieldResult (.sample v (outOf cfg s v))

/-- OUTPUT (R175). -/
def opOutput (v : Nat) (cfg : Cfg S N) (s : StateOf S N) : OutOf S N :=
  microOp cfg.nvoices v s (seqOutput cfg.nvoices v s.seq) (outputVoice cfg s v)

/-- OUTPUT on a state that carries its parameters. -/
def execOutput (v : Nat) (s : State) : Out := s.underCfg (opOutput v)

end Sys2Proof.Machine
end

