-- ==== Sys2Proof/Machine/Sync.lean ====
section
/-! DEFINITION. SYNCHRONIZE: the hard-sync network (R160 to R168). -/

namespace Sys2Proof.Machine

variable {S N : Type}

/-- The condition of R161, from the flags of `v`, of its destination and of its source. -/
def syncResets (o dest source : OscOf S) : Bool :=
  o.msbRising && dest.syncEnabled && !(o.syncEnabled && source.msbRising)

/-- The hard-sync reset of an accumulator (R161). -/
def clearAccumulator (o : OscOf S) : OscOf S := { o with accumulator := 0#24 }

/-- The effect of SYNCHRONIZE `v` on the state, the sequencer apart (R161). -/
def syncVoice (cfg : Cfg S N) (s : StateOf S N) (v : Nat) : StateOf S N :=
  if syncResets (readOsc cfg s v) (readOsc cfg s (dstOf cfg.toCfgDigital v))
      (readOsc cfg s (srcOf cfg.toCfgDigital v)) then
    s.modifyOsc (dstOf cfg.toCfgDigital v) clearAccumulator
  else s

/-- SYNCHRONIZE (R160). -/
def opSynchronize (v : Nat) (cfg : Cfg S N) (s : StateOf S N) : OutOf S N :=
  microOp cfg.nvoices v s (seqSync cfg.nvoices v s.seq) (syncVoice cfg s v)

/-- SYNCHRONIZE on a state that carries its parameters. -/
def execSynchronize (v : Nat) (s : State) : Out := s.underCfg (opSynchronize v)

end Sys2Proof.Machine
end

