-- ==== Sys2Proof/Machine/System.lean ====
section
/-! DEFINITION. CYCLE, RESET and CONFIG (R205, R220, R260). -/

namespace Sys2Proof.Machine

variable {S N : Type}

/-- One pass over all oscillators, by ascending index (R220). -/
def passOver (nvoices : Nat) (f : StateOf S N → Nat → StateOf S N) (s : StateOf S N) : StateOf S N :=
  (List.range nvoices).foldl f s

/-- The three passes of a cycle (R220). -/
def cycleState (cfg : Cfg S N) (s : StateOf S N) : StateOf S N :=
  passOver cfg.nvoices (outputVoice cfg)
    (passOver cfg.nvoices (syncVoice cfg) (passOver cfg.nvoices (clockVoice cfg) s))

/-- CYCLE (R220). -/
def opCycle (cfg : Cfg S N) (s : StateOf S N) : OutOf S N := hostOp s (cycleState cfg s)

/-- CYCLE on a state that carries its parameters. -/
def execCycle (s : State) : Out := s.underCfg opCycle

/-- The state after RESET; `model` and `nl` are not changed (R260). -/
def resetState (cfg : Cfg S N) (s : StateOf S N) : StateOf S N :=
  { s with oscs := s.oscs.map (resetOsc cfg s.model), seq := .idle, hasReset := true }

/-- RESET: legal in every sequencer state, and before the first RESET (R260, R261; before the first CONFIG, log 12). -/
def opReset (cfg : Cfg S N) (s : StateOf S N) : OutOf S N := .next (resetState cfg s)

/-- RESET on a state that carries its parameters. -/
def execReset (s : State) : Out := s.underCfg opReset

/-- CONFIG on one oscillator (R205). -/
def setZeroLevel (z : S) (o : OscOf S) : OscOf S := { o with zeroLevelVoltage := z }

/-- The state after CONFIG (R205). -/
def configState (m : ChipModel) (nl : N) (cfg : Cfg S N) (s : StateOf S N) : StateOf S N :=
  { s with model := m, nl := nl, oscs := s.oscs.map (setZeroLevel (zeroLevelOf cfg.toAnalog m)) }

/-- CONFIG: legal in `IDLE`, and before the first RESET (R205, R222, R261). -/
def opConfig (m : ChipModel) (nl : N) (cfg : Cfg S N) (s : StateOf S N) : OutOf S N :=
  if s.seq = .idle then .next (configState m nl cfg s) else .refused .outOfSequence

/-- CONFIG on a state that carries its parameters. -/
def execConfig (m : ChipModel) (nl : NL) (s : State) : Out := s.underCfg (opConfig m nl)

end Sys2Proof.Machine
end

