-- ==== Sys2Proof/Machine/Relation.lean ====
section
/-! DEFINITION. The step relation of R37: every parameter of R10, the types `Sample` and `NL` among them, is an argument.
`exec` and `step` are this relation on a state that carries its parameters. -/

namespace Sys2Proof.Machine

variable {S N : Type}

/-- The effect of one operation of R81 under the parameters `cfg`. -/
def perform (cfg : Cfg S N) (i : Instr N) (s : StateOf S N) : OutOf S N :=
  match i with
  | .wrFreqLo v d => opWrFreqLo v d cfg s
  | .wrFreqHi v d => opWrFreqHi v d cfg s
  | .wrPwLo v d => opWrPwLo v d cfg s
  | .wrPwHi v d => opWrPwHi v d cfg s
  | .wrControl v d => opWrControl v d cfg s
  | .wrOther v sel d => opWrOther v sel d cfg s
  | .rdOsc v => opRdOsc v cfg s
  | .clock v => opClock v cfg s
  | .synchronize v => opSynchronize v cfg s
  | .output v => opOutput v cfg s
  | .cycle => opCycle cfg s
  | .reset => opReset cfg s
  | .config m nl => opConfig m nl cfg s

/-- The next operation of the input, decoded, and the rest of the input. An invalid word is refused (R83, R108); so is a
step when the input is exhausted, a run being the list of its operations (R224, log 5). -/
def nextOp (nvoices : Nat) : List (OpWordOf N) → Except Refusal (Instr N × List (OpWordOf N))
  | [] => .error .inputExhausted
  | op :: rest =>
    match decode nvoices op with
    | .error r => .error (refusalOf r)
    | .ok i => .ok (i, rest)

/-- One step under the parameters `cfg`: the oldest operation of the input is taken from it and performed (R7, R224). -/
def stepOf (cfg : Cfg S N) (s : StateOf S N) : OutOf S N :=
  match nextOp cfg.nvoices s.inputs with
  | .error r => .refused r
  | .ok (i, rest) => perform cfg i { s with inputs := rest }

end Sys2Proof.Machine
end

