-- ==== Sys2Proof/Machine/Dispatch.lean ====
section
/-! DEFINITION. One arm per operation of R81. -/

namespace Sys2Proof.Machine

def exec (i : Instr) (s : State) : Host.Outcome State Fault Refusal :=
  match i with
  | .wrFreqLo v d => Sys2Proof.Machine.execWrFreqLo v d s
  | .wrFreqHi v d => Sys2Proof.Machine.execWrFreqHi v d s
  | .wrPwLo v d => Sys2Proof.Machine.execWrPwLo v d s
  | .wrPwHi v d => Sys2Proof.Machine.execWrPwHi v d s
  | .wrControl v d => Sys2Proof.Machine.execWrControl v d s
  | .wrOther v sel d => Sys2Proof.Machine.execWrOther v sel d s
  | .rdOsc v => Sys2Proof.Machine.execRdOsc v s
  | .clock v => Sys2Proof.Machine.execClock v s
  | .synchronize v => Sys2Proof.Machine.execSynchronize v s
  | .output v => Sys2Proof.Machine.execOutput v s
  | .cycle => Sys2Proof.Machine.execCycle s
  | .reset => Sys2Proof.Machine.execReset s
  | .config m nl => Sys2Proof.Machine.execConfig m nl s

end Sys2Proof.Machine
end

