-- ==== Sys2Proof/Machine/Step.lean ====
section
/-! DEFINITION. One step: the oldest operation of the input, decoded and performed (R7, R224). -/

namespace Sys2Proof.Machine

/-- Take the next operation from the input, decode it and perform it: `stepOf` on a state that carries its parameters
(`step_eq_stepOf`). -/
def step (s : State) : Host.Outcome State Fault Refusal :=
  match nextOp s.cfg.nvoices s.inputs with
  | .error r => .refused r
  | .ok (i, rest) => exec i { s with inputs := rest }

/-- The state whose next step performs the operation word with bits `w`: it stands first in the input. -/
def State.withFetchWord (s : State) (nbits w : Nat) : State := { s with inputs := opWordOfNat nbits w :: s.inputs }

end Sys2Proof.Machine
end

