-- ==== Sys2Proof/Machine/Pseudo.lean ====
section
/-! DEFINITION. The pseudo-operations of R85 and their expansions. -/

namespace Sys2Proof.Machine

variable {N : Type}

/-- `WR_FREQ v, #0xhhll`. -/
def pseudoWrFreq (v : Nat) (f : Frequency) : List (Instr N) :=
  [.wrFreqLo v (f.extractLsb' 0 8), .wrFreqHi v (f.extractLsb' 8 8)]

/-- `WR_PW v, #0xhll`. -/
def pseudoWrPw (v : Nat) (p : Word12) : List (Instr N) :=
  [.wrPwLo v (p.extractLsb' 0 8), .wrPwHi v (0#4 ++ p.extractLsb' 8 4)]

/-- `CYCLES n`. -/
def pseudoCycles (n : Nat) : List (Instr N) := List.replicate n .cycle

end Sys2Proof.Machine
end

