-- ==== Sys2Proof/Safety.lean ====
section
/-! DEFINITION. The terms the claims use: legal configurations, when an operation is legal, runs of operations, the
invariant of the machine, and the maps between types of samples and of coefficients. -/

namespace Sys2Proof.Machine

/-- The constraints of R10 on the parameters, and the one of R148 under `FORCE_APPLIES_CLEAR`. -/
def cfgWf (c : CfgDigital) : Bool :=
  decide (1 ≤ c.nvoices)
    && decide (c.src.length = c.nvoices) && c.src.all (fun u => decide (u < c.nvoices))
    && decide (c.dst.length = c.nvoices) && c.dst.all (fun u => decide (u < c.nvoices))
    && decide (c.noiseTaps.length = 8)
    && decide ((c.noiseTaps.map Prod.fst).Nodup) && decide ((c.noiseTaps.map Prod.snd).Nodup)
    && decide (c.testForceMask ≠ 0#23) && decide (1 ≤ c.noiseOverwriteDelay) && decide (c.noiseReset ≠ 0#23)
    && (!c.forceAppliesClear || decide (c.testForceMask &&& ~~~ noiseClearMask c.noiseTaps ≠ 0#23))

/-- The wiring is a ring (R10): `dst(src(v)) = v` and `src(dst(v)) = v`. -/
def IsRing (c : CfgDigital) : Prop := ∀ v, v < c.nvoices → dstOf c (srcOf c v) = v ∧ srcOf c (dstOf c v) = v

/-- A set of oscillators in its one form: strictly rising, nonempty, indices below `NVOICES`. -/
def servedWf (nvoices : Nat) (served : List Nat) : Bool :=
  decide (served ≠ []) && decide (served.Pairwise (· < ·)) && served.all (fun u => decide (u < nvoices))

/-- The sequencer holds a set in its one form, and OUTPUTTING never the full set (R221). -/
def seqWf (nvoices : Nat) : Sequencer → Bool
  | .idle => true
  | .clocking served => servedWf nvoices served
  | .syncing served => servedWf nvoices served
  | .outputting served => servedWf nvoices served && !allServed nvoices served

/-- The invariant that every step under the parameters `cfg` keeps, for any types of samples and of coefficients. The
clauses about the oscillators hold from the first RESET on (R261). -/
structure InvOf {S N : Type} (cfg : CfgDigital) (s : StateOf S N) : Prop where
  /-- The parameters meet their constraints (R10). -/
  cfgOk : cfgWf cfg = true
  /-- There are `NVOICES` oscillators (R244). -/
  count : s.oscs.length = cfg.nvoices
  /-- The sequencer is in a legal value (R221). -/
  seqOk : seqWf cfg.nvoices s.seq = true
  /-- The sequencer is `IDLE` before the first RESET (R261). -/
  idleFirst : s.hasReset = false → s.seq = .idle
  /-- The countdown is at most `NOISE_OVERWRITE_DELAY` (R31, R38 (c)). -/
  countdown : s.hasReset = true → ∀ o ∈ s.oscs, o.noiseOverwriteDelay ≤ cfg.noiseOverwriteDelay
  /-- The cached noise word is the noise word of the register (R27, R38 (b)). -/
  noiseWordOk : s.hasReset = true → ∀ o ∈ s.oscs, o.cachedNoiseSample = noiseWord cfg.noiseTaps o.noiseShiftRegister

/-- The invariant of a state that carries its parameters. -/
abbrev Inv (s : State) : Prop := InvOf s.cfg.toCfgDigital s.toStateOf

/-- Every oscillator's zero level is `ZERO(model)` of the configuration in force (R29, R207). -/
def ConfiguredOf {S N : Type} (cfg : Cfg S N) (s : StateOf S N) : Prop :=
  ∀ o ∈ s.oscs, o.zeroLevelVoltage = zeroLevelOf cfg.toAnalog s.model

/-- The same of a state that carries its parameters. -/
abbrev Configured (s : State) : Prop := ConfiguredOf s.cfg.toCfg s.toStateOf

/-- Every cached analog noise sample is the noise DAC of the cached word, with the weights and the zero level in force
(R38 (b)). -/
def NoiseCacheFreshOf {S N : Type} (cfg : Cfg S N) (s : StateOf S N) : Prop :=
  ∀ o ∈ s.oscs, o.cachedNoiseVoltage = noiseDac cfg.toAnalog s.model o.zeroLevelVoltage o.cachedNoiseSample

/-- The same of a state that carries its parameters. -/
abbrev NoiseCacheFresh (s : State) : Prop := NoiseCacheFreshOf s.cfg.toCfg s.toStateOf

/-- Replace the record of oscillator `v`. -/
def State.withOsc (s : State) (v : Nat) (o : Osc) : State := { s with oscs := s.oscs.set v o }

/-- An operation of the host on oscillator `v`, whose record is `o`, may run: after the first RESET, in `IDLE` (R100). -/
structure HostReady (s : State) (v : Nat) (o : Osc) : Prop where
  afterReset : s.hasReset = true
  idle : s.seq = .idle
  voice : v < s.cfg.nvoices
  record : s.oscs[v]? = some o

/-- A micro-operation on oscillator `v`, whose record is `o`, may run, its legality in the sequencer apart. -/
structure MicroReady (s : State) (v : Nat) (o : Osc) : Prop where
  afterReset : s.hasReset = true
  voice : v < s.cfg.nvoices
  record : s.oscs[v]? = some o

/-- CLOCK `v` is legal (R221). -/
def ClockLegal (s : State) (v : Nat) : Prop :=
  s.seq = .idle ∨ ∃ served, s.seq = .clocking served ∧ v ∉ served

/-- SYNCHRONIZE `v` is legal (R221). -/
def SyncLegal (s : State) (v : Nat) : Prop :=
  (∃ served, s.seq = .clocking served ∧ ∀ u, u < s.cfg.nvoices → u ∈ served)
    ∨ ∃ served, s.seq = .syncing served ∧ v ∉ served

/-- OUTPUT `v` is legal (R221). -/
def OutputLegal (s : State) (v : Nat) : Prop :=
  (∃ served, s.seq = .syncing served ∧ ∀ u, u < s.cfg.nvoices → u ∈ served)
    ∨ ∃ served, s.seq = .outputting served ∧ v ∉ served

/-- The operation is legal in the state (R221, R222, R220, R260, R261). -/
def OpLegal (s : State) : Instr → Prop
  | .wrFreqLo _ _ => s.hasReset = true ∧ s.seq = .idle
  | .wrFreqHi _ _ => s.hasReset = true ∧ s.seq = .idle
  | .wrPwLo _ _ => s.hasReset = true ∧ s.seq = .idle
  | .wrPwHi _ _ => s.hasReset = true ∧ s.seq = .idle
  | .wrControl _ _ => s.hasReset = true ∧ s.seq = .idle
  | .wrOther _ _ _ => s.hasReset = true ∧ s.seq = .idle
  | .rdOsc _ => s.hasReset = true ∧ s.seq = .idle
  | .clock v => s.hasReset = true ∧ ClockLegal s v
  | .synchronize v => s.hasReset = true ∧ SyncLegal s v
  | .output v => s.hasReset = true ∧ OutputLegal s v
  | .cycle => s.hasReset = true ∧ s.seq = .idle
  | .reset => True
  | .config _ _ => s.seq = .idle

/-- Perform operations one after another under the parameters `cfg`, stopping at the first refusal (R224). -/
def runOf {S N : Type} (cfg : Cfg S N) : List (Instr N) → StateOf S N → OutOf S N
  | [], s => .next s
  | i :: rest, s =>
    match perform cfg i s with
    | .next t => runOf cfg rest t
    | .fault f => .fault f
    | .refused r => .refused r

/-- The same on a state that carries its parameters. -/
def runInstrs : List Instr → State → Out
  | [], s => .next s
  | i :: rest, s =>
    match exec i s with
    | .next t => runInstrs rest t
    | .fault f => .fault f
    | .refused r => .refused r

/-- The run is complete: the input is exhausted with the sequencer `IDLE` (R224). -/
def Complete (s : State) : Prop := s.inputs = [] ∧ s.seq = .idle

/-! ### Other types of samples and of coefficients -/

section Map
variable {S N S' N' : Type}

/-- The oscillator with every sample replaced by its image. -/
def OscOf.map (f : S → S') (o : OscOf S) : OscOf S' where
  accumulator := o.accumulator
  frequency := o.frequency
  pulseWidth := o.pulseWidth
  waveformSelect := o.waveformSelect
  testHeld := o.testHeld
  ringModEnabled := o.ringModEnabled
  syncEnabled := o.syncEnabled
  noiseShiftRegister := o.noiseShiftRegister
  cachedNoiseSample := o.cachedNoiseSample
  cachedNoiseVoltage := f o.cachedNoiseVoltage
  previousOutputVoltage := f o.previousOutputVoltage
  zeroLevelVoltage := f o.zeroLevelVoltage
  msbRising := o.msbRising
  noiseOverwriteDelay := o.noiseOverwriteDelay

/-- The result with its sample replaced by its image. -/
def Result.map (f : S → S') : Result S → Result S'
  | .sample v y => .sample v (f y)
  | .osc v b => .osc v b

/-- The operation word with its coefficient replaced by its image. -/
def mapOpWord (g : N → N') (op : OpWordOf N) : OpWordOf N' where
  bytes := op.bytes
  nl := g op.nl

/-- The state with every sample and every coefficient replaced by its image. -/
def StateOf.map (f : S → S') (g : N → N') (s : StateOf S N) : StateOf S' N' where
  oscs := s.oscs.map (OscOf.map f)
  model := s.model
  nl := g s.nl
  seq := s.seq
  hasReset := s.hasReset
  inputs := s.inputs.map (mapOpWord g)
  results := s.results.map (Result.map f)

/-- The outcome with its next state replaced by its image. -/
def mapOutcome {A B : Type} (h : A → B) : Host.Outcome A Fault Refusal → Host.Outcome B Fault Refusal
  | .next a => .next (h a)
  | .fault x => .fault x
  | .refused r => .refused r

/-- `f` and `g` carry the parameters `cfg` over to `cfg'`: the digital items are the same, the analog ones correspond. -/
structure CarriedOver (f : S → S') (g : N → N') (cfg : Cfg S N) (cfg' : Cfg S' N') : Prop where
  digital : cfg'.toCfgDigital = cfg.toCfgDigital
  add : ∀ x y, cfg'.add (f x) (f y) = f (cfg.add x y)
  dacw : ∀ m i, cfg'.dacw m i = f (cfg.dacw m i)
  zero : ∀ m, cfg'.zero m = f (cfg.zero m)
  wfrom : ∀ m nl t p, cfg'.wfrom m (g nl) t p = f (cfg.wfrom m nl t p)
  prevReset : cfg'.prevReset = f cfg.prevReset

end Map

end Sys2Proof.Machine

namespace Sys2Proof

/-- The operation with its coefficient replaced by its image. -/
def Instr.map {N N' : Type} (g : N → N') : Instr N → Instr N'
  | .wrFreqLo v d => .wrFreqLo v d
  | .wrFreqHi v d => .wrFreqHi v d
  | .wrPwLo v d => .wrPwLo v d
  | .wrPwHi v d => .wrPwHi v d
  | .wrControl v d => .wrControl v d
  | .wrOther v sel d => .wrOther v sel d
  | .rdOsc v => .rdOsc v
  | .clock v => .clock v
  | .synchronize v => .synchronize v
  | .output v => .output v
  | .cycle => .cycle
  | .reset => .reset
  | .config m nl => .config m (g nl)

end Sys2Proof
end

