-- ==== Sys2Proof/Certificates/Slice0/Obligations.lean ====
section
/-! DEFINITION. The statements for the provers. Numbers are written as in the rules; a register's new value is given by
arithmetic on its old value, so that a statement does not repeat a definition of the model. -/

open Sys2Proof Sys2Proof.Machine

/-! ### Decoding and the step -/

/-- One step performs exactly the operation that stands first in the input, and takes it from the input (R7, R224). That
the host's operations are a list in the state, of which a step takes the first and decodes it, is the model's choice
(log 5). -/
def Obligations.StepRunsTheDecodedOperation : Prop :=
  ∀ (s : State) (op : OpWord) (rest : List OpWord) (i : Instr),
    s.inputs = op :: rest → decode s.cfg.nvoices op = .ok i → step s = exec i { s with inputs := rest }

/-- Which words are operation words, and that a step refuses any other (R83). The fields are those of the 20-bit word of
R80. That the word is handed over as 24 bits in three bytes, and that one with a bit above bit 19 is no operation, is
the model's choice (log 4). -/
def Obligations.DecoderAcceptsExactlyTheOperationWords : Prop :=
  ∀ (n : Nat) (w : BitVec 24) (nl : NL),
    ((∃ i, decode n ⟨splitWord w, nl⟩ = .ok i) ↔
      w.toNat < 2 ^ 20 ∧
      ((w.toNat / 0x10000 = 1 ∧ w.toNat / 0x1000 % 16 < n)
        ∨ (w.toNat / 0x10000 = 2 ∧ w.toNat / 0x1000 % 16 < n ∧ w.toNat % 0x1000 = 0x700)
        ∨ (3 ≤ w.toNat / 0x10000 ∧ w.toNat / 0x10000 ≤ 5 ∧ w.toNat / 0x1000 % 16 < n ∧ w.toNat % 0x1000 = 0)
        ∨ w.toNat = 0x60000 ∨ w.toNat = 0x70000 ∨ w.toNat = 0x80000 ∨ w.toNat = 0x80100)) ∧
    ∀ (s : State) (rest : List OpWord), s.inputs = ⟨splitWord w, nl⟩ :: rest →
      (∀ i, decode s.cfg.nvoices ⟨splitWord w, nl⟩ ≠ .ok i) → ∃ r, step s = .refused r

/-- Decoding the encoding of any well-formed operation gives it back, with every operand (R81, R82, R86), for any type of
coefficients; the zero of that type is what the encoder carries beside the words that have none. -/
def Obligations.DecodeAfterEncodeIsTheOperation : Prop :=
  ∀ (N : Type) [Zero N] (n : Nat) (i : Instr N), i.wf n = true → decode n (encode i) = .ok i

/-- What the decoder accepts is well formed, and its encoding is the word it was read from. -/
def Obligations.EncodeAfterDecodeIsTheWord : Prop :=
  ∀ (N : Type) [Zero N] (n : Nat) (op : OpWordOf N) (i : Instr N),
    decode n op = .ok i → i.wf n = true ∧ (encode i).bytes = op.bytes

/-- The decoder reads a word as the operation of the row of the opcode table that fits it, no two rows fit one word, and
the operands of the operation are the fields of the word, `V`, `S` and `DD`, and for CONFIG the coefficient beside it
(R80, R81, R86). The word is handed over in three bytes, the model's choice (log 4). -/
def Obligations.DecoderAgreesWithTheOpcodeTable : Prop :=
  ∀ (N : Type) (n : Nat) (w : BitVec 20) (nl : N),
    (∀ m : String, (∃ i, decode n ⟨splitWord (0#4 ++ w), nl⟩ = .ok i ∧ i.mnemonic = m) ↔
      ∃ r ∈ opcodeRows, r.mnemonic = m ∧ r.fits n w = true) ∧
    opcodeRows.Pairwise (fun a b => ¬ (a.fits n w = true ∧ b.fits n w = true)) ∧
    ∀ i, decode n ⟨splitWord (0#4 ++ w), nl⟩ = .ok i →
      match i with
      | .wrFreqLo v d | .wrFreqHi v d | .wrPwLo v d | .wrPwHi v d | .wrControl v d =>
        v = w.toNat / 0x1000 % 16 ∧ d.toNat = w.toNat % 0x100
      | .wrOther v sel d =>
        v = w.toNat / 0x1000 % 16 ∧ sel.toNat = w.toNat / 0x100 % 16 ∧ d.toNat = w.toNat % 0x100
      | .rdOsc v | .clock v | .synchronize v | .output v => v = w.toNat / 0x1000 % 16
      | .cycle | .reset => True
      | .config model k => k = nl ∧ (model = .model0 ∧ w.toNat / 0x100 % 16 = 0 ∨
          model = .model1 ∧ w.toNat / 0x100 % 16 = 1)

/-- Words of the vectors V-DEC, one for each operation, bytes least significant first (log 4). -/
def Obligations.WordsOfTheVectorsDecode : Prop :=
  decode 3 ⟨[0x34#8, 0x12#8, 0x01#8], 0⟩ = .ok (.wrPwLo 1 0x34#8) ∧
  decode 3 ⟨[0xFF#8, 0x21#8, 0x01#8], 0⟩ = .ok (.wrFreqHi 2 0xFF#8) ∧
  decode 3 ⟨[0x48#8, 0x04#8, 0x01#8], 0⟩ = .ok (.wrControl 0 0x48#8) ∧
  decode 3 ⟨[0x00#8, 0x2F#8, 0x01#8], 0⟩ = .ok (.wrOther 2 0xF#4 0x00#8) ∧
  decode 3 ⟨[0x00#8, 0x27#8, 0x02#8], 0⟩ = .ok (.rdOsc 2) ∧
  decode 3 ⟨[0x00#8, 0x10#8, 0x03#8], 0⟩ = .ok (.clock 1) ∧
  decode 3 ⟨[0x00#8, 0x20#8, 0x04#8], 0⟩ = .ok (.synchronize 2) ∧
  decode 3 ⟨[0x00#8, 0x00#8, 0x05#8], 0⟩ = .ok (.output 0) ∧
  decode 3 ⟨[0x00#8, 0x00#8, 0x06#8], 0⟩ = .ok .cycle ∧
  decode 3 ⟨[0x00#8, 0x01#8, 0x08#8], 0⟩ = .ok (.config .model1 0) ∧
  decode 3 ⟨[0x00#8, 0x30#8, 0x01#8], 0⟩ = .error .noSuchOscillator ∧
  decode 3 ⟨[0x01#8, 0x07#8, 0x02#8], 0⟩ = .error .nonzeroField

/-- A read word with a select other than 7 yields no value: the step is refused, whatever the rest of the word. The name
`noSuchPort` rests on the model's order of causes where R83 or R261 give another cause as well (log 9); the refusal is
that of R108. -/
def Obligations.ReadOfAnotherPortIsRefused : Prop :=
  ∀ (s : State) (v sel : Nibble) (d : Byte) (nl : NL) (rest : List OpWord), sel ≠ 7#4 →
    s.inputs = ⟨splitWord (packWord 2#4 v sel d), nl⟩ :: rest → step s = .refused .noSuchPort

/-! ### The register ports -/

/-- R101, with its encoding. Every other field of every oscillator and of the state is unchanged. -/
def Obligations.WrFreqLoSetsTheLowByte : Prop :=
  ∀ (s : State) (v : Nat) (d : Byte) (o : Osc), HostReady s v o →
    exec (.wrFreqLo v d) s = .next (s.withOsc v
      { o with frequency := BitVec.ofNat 16 (o.frequency.toNat / 256 * 256 + d.toNat) }) ∧
    (v < 16 → (encodeWord (.wrFreqLo v d : Instr)).toNat = 0x10000 + v * 0x1000 + d.toNat)

/-- R102, with its encoding. Every other field is unchanged. -/
def Obligations.WrFreqHiSetsTheHighByte : Prop :=
  ∀ (s : State) (v : Nat) (d : Byte) (o : Osc), HostReady s v o →
    exec (.wrFreqHi v d) s = .next (s.withOsc v
      { o with frequency := BitVec.ofNat 16 (d.toNat * 256 + o.frequency.toNat % 256) }) ∧
    (v < 16 → (encodeWord (.wrFreqHi v d : Instr)).toNat = 0x10100 + v * 0x1000 + d.toNat)

/-- R103, with its encoding. Every other field is unchanged. -/
def Obligations.WrPwLoSetsTheLowByte : Prop :=
  ∀ (s : State) (v : Nat) (d : Byte) (o : Osc), HostReady s v o →
    exec (.wrPwLo v d) s = .next (s.withOsc v
      { o with pulseWidth := BitVec.ofNat 12 (o.pulseWidth.toNat / 256 * 256 + d.toNat) }) ∧
    (v < 16 → (encodeWord (.wrPwLo v d : Instr)).toNat = 0x10200 + v * 0x1000 + d.toNat)

/-- R104, with its encoding: data bits 7:4 are ignored. Every other field is unchanged. -/
def Obligations.WrPwHiSetsTheHighBits : Prop :=
  ∀ (s : State) (v : Nat) (d : Byte) (o : Osc), HostReady s v o →
    exec (.wrPwHi v d) s = .next (s.withOsc v
      { o with pulseWidth := BitVec.ofNat 12 (d.toNat % 16 * 256 + o.pulseWidth.toNat % 256) }) ∧
    (v < 16 → (encodeWord (.wrPwHi v d : Instr)).toNat = 0x10300 + v * 0x1000 + d.toNat)

/-- R105, with its encoding: the four fields (bit positions by the spec's decision D4), the countdown load on the rising
edge of test (D10) and the switch `TEST_RISE_CLEARS_ACC` (D11). Bit 0 does not occur. Every other field is unchanged. -/
def Obligations.WrControlSetsItsFields : Prop :=
  ∀ (s : State) (v : Nat) (d : Byte) (o : Osc), HostReady s v o →
    exec (.wrControl v d) s = .next (s.withOsc v
      { o with
        waveformSelect := BitVec.ofNat 4 (d.toNat / 16)
        testHeld := decide (d.toNat / 8 % 2 = 1)
        ringModEnabled := decide (d.toNat / 4 % 2 = 1)
        syncEnabled := decide (d.toNat / 2 % 2 = 1)
        noiseOverwriteDelay :=
          if d.toNat / 8 % 2 = 1 ∧ o.testHeld = false then s.cfg.noiseOverwriteDelay else o.noiseOverwriteDelay
        accumulator :=
          if d.toNat / 8 % 2 = 1 ∧ o.testHeld = false ∧ s.cfg.testRiseClearsAcc = true then 0#24
          else o.accumulator }) ∧
    (v < 16 → (encodeWord (.wrControl v d : Instr)).toNat = 0x10400 + v * 0x1000 + d.toNat)

/-- R107, with its encoding: a write with select 5 to 15 changes nothing. -/
def Obligations.WrOtherChangesNothing : Prop :=
  ∀ (s : State) (v : Nat) (sel : Nibble) (d : Byte),
    s.hasReset = true → s.seq = .idle → v < s.cfg.nvoices → 5 ≤ sel.toNat →
    exec (.wrOther v sel d) s = .next s ∧
    (v < 16 → (encodeWord (.wrOther v sel d : Instr)).toNat = 0x10000 + v * 0x1000 + sel.toNat * 0x100 + d.toNat)

/-- R106, with its encoding: the result is the top 8 bits of the accumulator, and nothing is written. -/
def Obligations.RdOscYieldsTheTopByte : Prop :=
  ∀ (s : State) (v : Nat) (o : Osc), HostReady s v o →
    exec (.rdOsc v) s =
      .next { s with results := s.results ++ [.osc v (BitVec.ofNat 8 (o.accumulator.toNat / 0x10000))] } ∧
    (v < 16 → (encodeWord (.rdOsc v : Instr)).toNat = 0x20700 + v * 0x1000)

/-- The two bytes of a register, written one after the other, give the whole register: the pseudo-operations of R85. -/
def Obligations.PseudoWritesSetWholeRegisters : Prop :=
  ∀ (s : State) (v : Nat) (o : Osc), HostReady s v o →
    (∀ f : Frequency, runInstrs (pseudoWrFreq v f) s = .next (s.withOsc v { o with frequency := f })) ∧
    (∀ p : Word12, runInstrs (pseudoWrPw v p) s = .next (s.withOsc v { o with pulseWidth := p }))

/-- A register write done twice equals the same write done once. The spec derives this (R58). -/
def Obligations.RegisterWritesAreIdempotent : Prop :=
  ∀ (s t : State) (v : Nat) (sel : Nibble) (d : Byte),
    exec (decodeWrite v sel d) s = .next t → exec (decodeWrite v sel d) t = .next t

/-! ### Which operation is legal when -/

/-- R222: the register operations and CONFIG are refused outside `IDLE` and leave the sequencer `IDLE`; RESET is legal
in every sequencer state and leaves it `IDLE`. -/
def Obligations.HostOperationsOnlyInIdle : Prop :=
  ∀ (s : State) (i : Instr),
    ((∃ v sel d, i = decodeWrite v sel d) ∨ (∃ v, i = .rdOsc v) ∨ (∃ m nl, i = .config m nl)) →
    (s.seq ≠ .idle → s.hasReset = true → i.wf s.cfg.nvoices = true → exec i s = .refused .outOfSequence) ∧
    (∀ t, exec i s = .next t → s.seq = .idle ∧ t.seq = .idle) ∧
    (∃ t, exec .reset s = .next t ∧ t.seq = .idle)

/-- Before the first RESET every operation but RESET and CONFIG is refused; both of these run then. After RESET the hold
latch holds the open parameter `PREV_RESET`. The refusals are those of R261; that their name is `beforeReset` also where
the sequencer is a cause rests on the model's order of causes (log 9). -/
def Obligations.OnlyResetAndConfigBeforeTheFirstReset : Prop :=
  ∀ (s : State), s.hasReset = false →
    (∀ i : Instr, i.wf s.cfg.nvoices = true → i ≠ .reset → (∀ m nl, i ≠ .config m nl) →
      exec i s = .refused .beforeReset) ∧
    (∃ t, exec .reset s = .next t ∧ t.hasReset = true ∧
      ∀ o ∈ t.oscs, o.previousOutputVoltage = s.cfg.prevReset) ∧
    (∀ m nl, s.seq = .idle → ∃ t, exec (.config m nl) s = .next t ∧ t.hasReset = false)

/-- R221: the legality and the transitions of the three micro-operations, sets read by their members. -/
def Obligations.SequencerTransitions : Prop :=
  ∀ (s : State) (v : Nat), s.hasReset = true → v < s.cfg.nvoices →
    ((ClockLegal s v → ∃ t served, exec (.clock v) s = .next t ∧ t.seq = .clocking served ∧
        ∀ u, u ∈ served ↔ u = v ∨ ∃ old, s.seq = .clocking old ∧ u ∈ old) ∧
      (¬ ClockLegal s v → exec (.clock v) s = .refused .outOfSequence)) ∧
    ((SyncLegal s v → ∃ t served, exec (.synchronize v) s = .next t ∧ t.seq = .syncing served ∧
        ∀ u, u ∈ served ↔ u = v ∨ ∃ old, s.seq = .syncing old ∧ u ∈ old) ∧
      (¬ SyncLegal s v → exec (.synchronize v) s = .refused .outOfSequence)) ∧
    ((OutputLegal s v → ∃ t, exec (.output v) s = .next t ∧
        ((∀ u, u < s.cfg.nvoices → u = v ∨ ∃ old, s.seq = .outputting old ∧ u ∈ old) → t.seq = .idle) ∧
        (¬ (∀ u, u < s.cfg.nvoices → u = v ∨ ∃ old, s.seq = .outputting old ∧ u ∈ old) →
          ∃ served, t.seq = .outputting served ∧
            ∀ u, u ∈ served ↔ u = v ∨ ∃ old, s.seq = .outputting old ∧ u ∈ old)) ∧
      (¬ OutputLegal s v → exec (.output v) s = .refused .outOfSequence))

/-- R235: a well-formed operation completes exactly where it is legal, and nothing ever faults. -/
def Obligations.LegalOperationsComplete : Prop :=
  ∀ (s : State) (i : Instr), i.wf s.cfg.nvoices = true →
    ((∃ t, exec i s = .next t) ↔ OpLegal s i) ∧ ∀ f, exec i s ≠ .fault f

/-! ### CLOCK and the noise generator -/

/-- R123, with the detectors of R124 and R125 and the noise step of R140: CLOCK with test off. When bit 19 rises the new
noise register and cache are in place at the end of this CLOCK (R151). Every other field is unchanged. -/
def Obligations.ClockAdvancesThePhase : Prop :=
  ∀ (s : State) (v : Nat) (o : Osc) (next : Nat) (r : NoiseReg),
    MicroReady s v o → ClockLegal s v → o.testHeld = false →
    next = (o.accumulator.toNat + o.frequency.toNat) % 2 ^ 24 →
    (∀ i, i < 23 → r.getLsbD i =
      if 8 < o.waveformSelect.toNat ∧ (∃ p ∈ s.cfg.noiseTaps, p.1.val = i) then false
      else if i = 0 then o.noiseShiftRegister.getLsbD 22 != o.noiseShiftRegister.getLsbD 17
      else o.noiseShiftRegister.getLsbD (i - 1)) →
    ∃ q,
      (¬ (o.accumulator.toNat / 2 ^ 19 % 2 = 0 ∧ next / 2 ^ 19 % 2 = 1) →
        exec (.clock v) s = .next { s.withOsc v
          { o with
            accumulator := BitVec.ofNat 24 next
            msbRising := decide (o.accumulator.toNat < 0x800000 ∧ 0x800000 ≤ next) } with seq := q }) ∧
      (o.accumulator.toNat / 2 ^ 19 % 2 = 0 ∧ next / 2 ^ 19 % 2 = 1 →
        exec (.clock v) s = .next { s.withOsc v
          { o with
            accumulator := BitVec.ofNat 24 next
            msbRising := decide (o.accumulator.toNat < 0x800000 ∧ 0x800000 ≤ next)
            noiseShiftRegister := r
            cachedNoiseSample := noiseWord s.cfg.noiseTaps r
            cachedNoiseVoltage :=
              noiseDac s.cfg.analog s.model o.zeroLevelVoltage (noiseWord s.cfg.noiseTaps r) } with seq := q })

/-- R121 and R147: CLOCK with test on. The accumulator and the noise clock stand still; the CLOCK that takes the
countdown from 1 to 0 forces the noise register and recomputes the cache. Every other field is unchanged. The switches
are the spec's decisions D12 and D13. -/
def Obligations.ClockUnderTestCountsDown : Prop :=
  ∀ (s : State) (v : Nat) (o : Osc) (r : NoiseReg),
    MicroReady s v o → ClockLegal s v → o.testHeld = true →
    (∀ i, i < 23 → r.getLsbD i =
      if s.cfg.forceAppliesClear = true ∧ 8 < o.waveformSelect.toNat ∧ (∃ p ∈ s.cfg.noiseTaps, p.1.val = i) then false
      else o.noiseShiftRegister.getLsbD i || s.cfg.testForceMask.getLsbD i) →
    ∃ q,
      (o.noiseOverwriteDelay ≠ 1 →
        exec (.clock v) s = .next { s.withOsc v
          { o with
            msbRising := if s.cfg.msbStaleUnderTest = true then o.msbRising else false
            noiseOverwriteDelay := o.noiseOverwriteDelay - 1 } with seq := q }) ∧
      (o.noiseOverwriteDelay = 1 →
        exec (.clock v) s = .next { s.withOsc v
          { o with
            msbRising := if s.cfg.msbStaleUnderTest = true then o.msbRising else false
            noiseOverwriteDelay := 0
            noiseShiftRegister := r
            cachedNoiseSample := noiseWord s.cfg.noiseTaps r
            cachedNoiseVoltage :=
              noiseDac s.cfg.analog s.model o.zeroLevelVoltage (noiseWord s.cfg.noiseTaps r) } with seq := q })

/-- R143: with a code above 8 the noise step clears the bits of the taps after the shift, and so leaves the noise word 0
and the cached voltage at the zero level; with a code of at most 8 it clears nothing. -/
def Obligations.CombinedCodeClearsTheTaps : Prop :=
  ∀ (S N : Type) (cfg : Cfg S N) (m : ChipModel) (o : OscOf S) (shifted : NoiseReg),
    (∀ i, i < 23 → shifted.getLsbD i =
      if i = 0 then o.noiseShiftRegister.getLsbD 22 != o.noiseShiftRegister.getLsbD 17
      else o.noiseShiftRegister.getLsbD (i - 1)) →
    (8 < o.waveformSelect.toNat →
      (∀ i, i < 23 → (noiseStep cfg m o).noiseShiftRegister.getLsbD i =
        if ∃ p ∈ cfg.noiseTaps, p.1.val = i then false else shifted.getLsbD i) ∧
      (noiseStep cfg m o).cachedNoiseSample = 0#12 ∧
      (noiseStep cfg m o).cachedNoiseVoltage = o.zeroLevelVoltage) ∧
    (o.waveformSelect.toNat ≤ 8 → (noiseStep cfg m o).noiseShiftRegister = shifted)

/-- R148: under its constraints on the mask the register is nonzero immediately after every NoiseForce, and the default
mask meets both constraints. -/
def Obligations.ForcedRegisterIsNotZero : Prop :=
  (∀ (S N : Type) (cfg : Cfg S N) (m : ChipModel) (o : OscOf S), cfg.testForceMask ≠ 0#23 →
    (cfg.forceAppliesClear = true → cfg.testForceMask &&& ~~~ noiseClearMask cfg.noiseTaps ≠ 0#23) →
    (noiseForce cfg m o).noiseShiftRegister ≠ 0#23) ∧
  defaultCfg.testForceMask = 0x7FFFFC#23 ∧
  defaultCfg.testForceMask &&& ~~~ noiseClearMask defaultCfg.noiseTaps = 0x2ED768#23

/-- R144: for a legal tap list, bit `o` of the noise word is register bit `s` for each tap `(s, o)` and every other bit
is 0; and the formula of the default map. -/
def Obligations.NoiseWordTakesTheTaps : Prop :=
  (∀ (taps : List (Fin 23 × Fin 12)) (r : NoiseReg), (taps.map Prod.snd).Nodup →
    (∀ p ∈ taps, (noiseWord taps r).getLsbD p.2.val = r.getLsbD p.1.val) ∧
    (∀ i, i < 12 → (∀ p ∈ taps, p.2.val ≠ i) → (noiseWord taps r).getLsbD i = false)) ∧
  (∀ r : NoiseReg, (noiseWord defaultTaps r).toNat =
    (r.toNat / 2 ^ 22 % 2) * 2 ^ 11 + (r.toNat / 2 ^ 20 % 2) * 2 ^ 10 + (r.toNat / 2 ^ 16 % 2) * 2 ^ 9
      + (r.toNat / 2 ^ 13 % 2) * 2 ^ 8 + (r.toNat / 2 ^ 11 % 2) * 2 ^ 7 + (r.toNat / 2 ^ 7 % 2) * 2 ^ 6
      + (r.toNat / 2 ^ 4 % 2) * 2 ^ 5 + (r.toNat / 2 ^ 2 % 2) * 2 ^ 4)

/-- The clear mask has exactly the register positions of the taps, `0x512894` for the default map. The spec derives
this (R78). -/
def Obligations.ClearMaskIsTheTapPositions : Prop :=
  (∀ (taps : List (Fin 23 × Fin 12)) (i : Nat),
    (noiseClearMask taps).getLsbD i = true ↔ ∃ p ∈ taps, p.1.val = i) ∧
  noiseClearMask defaultTaps = 0x512894#23

/-- R145, for any type of samples with any addition (D3): the noise DAC of 0 is the zero level, and the weight
of the highest set bit is added last, to the noise DAC of the word without it. -/
def Obligations.NoiseDacAddsAscendingWeights : Prop :=
  ∀ (S N : Type) (a : Analog S N) (m : ChipModel) (zero : S),
    noiseDac a m zero 0#12 = zero ∧
    ∀ (w rest : Word12) (k : Nat), k < 12 → w.getLsbD k = true →
      (∀ j, k < j → w.getLsbD j = false) →
      (∀ j, rest.getLsbD j = (w.getLsbD j && decide (j ≠ k))) →
      noiseDac a m zero w = a.add (noiseDac a m zero rest) (dacRead a m k)

/-- Zero is a fixed point of the noise step, and with a code of at most 8 a nonzero register stays nonzero; the spec
derives both (R149). With a code of at most 8 no other register is a fixed point, an inference from R141 and R142: such
a register would have all bits equal, and its feedback bit is then 0. -/
def Obligations.ZeroIsTheOnlyStuckNoiseRegister : Prop :=
  ∀ (S N : Type) (cfg : Cfg S N) (m : ChipModel) (o : OscOf S),
    (o.noiseShiftRegister = 0#23 → (noiseStep cfg m o).noiseShiftRegister = 0#23) ∧
    (o.waveformSelect.toNat ≤ 8 → o.noiseShiftRegister ≠ 0#23 →
      (noiseStep cfg m o).noiseShiftRegister ≠ 0#23 ∧
      (noiseStep cfg m o).noiseShiftRegister ≠ o.noiseShiftRegister)

/-- Only RESET or the expiry of the countdown under test takes a noise register out of zero. The spec derives this
(R149). -/
def Obligations.OnlyForceOrResetLeavesZero : Prop :=
  ∀ (s t : State) (i : Instr) (v : Nat) (o p : Osc),
    exec i s = .next t → s.oscs[v]? = some o → t.oscs[v]? = some p →
    o.noiseShiftRegister = 0#23 → p.noiseShiftRegister ≠ 0#23 →
    i = .reset ∨ ((i = .clock v ∨ i = .cycle) ∧ o.testHeld = true ∧ o.noiseOverwriteDelay = 1)

/-- The two edges never fall in the same CLOCK. The spec derives this (R126 (c)). -/
def Obligations.EdgesNeverCoincide : Prop :=
  ∀ (prev : Accumulator) (f : Frequency),
    ¬ (msbRises prev (prev + f.setWidth 24) = true ∧ noiseClockRises prev (prev + f.setWidth 24) = true)

/-! ### SYNCHRONIZE -/

/-- R161: the reset of the destination's accumulator, and nothing else, exactly under the condition of the rule, on the
wiring `src(v) = a`, `dst(v) = b`. -/
def Obligations.SynchronizeResetsTheDestination : Prop :=
  ∀ (s : State) (v a b : Nat) (o source dest : Osc),
    MicroReady s v o → SyncLegal s v → s.cfg.src[v]? = some a → s.cfg.dst[v]? = some b →
    s.oscs[a]? = some source → s.oscs[b]? = some dest →
    ∃ q,
      ((o.msbRising = true ∧ dest.syncEnabled = true ∧ ¬ (o.syncEnabled = true ∧ source.msbRising = true)) →
        exec (.synchronize v) s = .next { s.withOsc b { dest with accumulator := 0#24 } with seq := q }) ∧
      (¬ (o.msbRising = true ∧ dest.syncEnabled = true ∧ ¬ (o.syncEnabled = true ∧ source.msbRising = true)) →
        exec (.synchronize v) s = .next { s with seq := q })

/-- An oscillator wired to itself never resets itself. The spec derives this (R166). -/
def Obligations.SelfWiredNeverResets : Prop :=
  ∀ (s : State) (v : Nat) (o : Osc), MicroReady s v o → SyncLegal s v →
    s.cfg.src[v]? = some v → s.cfg.dst[v]? = some v → ∃ q, exec (.synchronize v) s = .next { s with seq := q }

/-- R167: two oscillators that are each other's source and destination, both rising in the same cycle. With sync enabled
in both, neither is reset; with sync enabled in the second only, the second is reset and the first is not. -/
def Obligations.MutualSyncResetsNeither : Prop :=
  ∀ (s : State) (v u : Nat) (o p : Osc), v ≠ u →
    MicroReady s v o → MicroReady s u p → SyncLegal s v → SyncLegal s u →
    s.cfg.src[v]? = some u → s.cfg.dst[v]? = some u → s.cfg.src[u]? = some v → s.cfg.dst[u]? = some v →
    o.msbRising = true → p.msbRising = true → p.syncEnabled = true →
    ∃ q,
      (o.syncEnabled = true → runInstrs [.synchronize v, .synchronize u] s = .next { s with seq := q }) ∧
      (o.syncEnabled = false → runInstrs [.synchronize v, .synchronize u] s =
        .next { s.withOsc u { p with accumulator := 0#24 } with seq := q })

/-- Any two orders of a sync pass give the same state. The spec derives this (R163). -/
def Obligations.SyncOrderDoesNotMatter : Prop :=
  ∀ (s : State) (order : List Nat) (served : List Nat),
    s.hasReset = true → s.seq = .clocking served → (∀ u, u < s.cfg.nvoices → u ∈ served) →
    order.Perm (List.range s.cfg.nvoices) →
    ∃ t, runInstrs (order.map .synchronize) s = .next t ∧
      runInstrs ((List.range s.cfg.nvoices).map .synchronize) s = .next t

/-- The pull form of a sync pass on a ring: each accumulator is reset from its own source's flags. The spec derives this
(R164). -/
def Obligations.SyncPassPullForm : Prop :=
  ∀ (s : State) (served : List Nat),
    Inv s → s.hasReset = true → IsRing s.cfg.toCfgDigital → s.seq = .clocking served →
    (∀ u, u < s.cfg.nvoices → u ∈ served) →
    ∃ t, runInstrs ((List.range s.cfg.nvoices).map .synchronize) s = .next t ∧
      ∀ d, d < s.cfg.nvoices →
        t.osc d =
          if (s.osc (srcOf s.cfg.toCfgDigital d)).msbRising = true ∧ (s.osc d).syncEnabled = true ∧
              ¬ ((s.osc (srcOf s.cfg.toCfgDigital d)).syncEnabled = true ∧
                (s.osc (srcOf s.cfg.toCfgDigital (srcOf s.cfg.toCfgDigital d))).msbRising = true)
          then { s.osc d with accumulator := 0#24 } else s.osc d

/-! ### OUTPUT -/

/-- R177, R178, R186 and the latch of R184: codes 0, 8 and 9 to 15. Every other field is unchanged. -/
def Obligations.OutputWithoutTable : Prop :=
  ∀ (s : State) (v : Nat) (o : Osc) (y : Sample), MicroReady s v o → OutputLegal s v →
    ((o.waveformSelect.toNat = 0 ∧ y = o.previousOutputVoltage)
      ∨ (o.waveformSelect.toNat = 8 ∧ y = o.cachedNoiseVoltage)
      ∨ (9 ≤ o.waveformSelect.toNat ∧ y = o.zeroLevelVoltage)) →
    ∃ q, exec (.output v) s = .next { s.withOsc v { o with previousOutputVoltage := y } with
      results := s.results ++ [.sample v y], seq := q }

/-- R179 to R183 and the latch of R184: codes 1 to 7 read entry `idx` of page `page`, on the wiring `src(v) = a`. Every
other field is unchanged. -/
def Obligations.OutputReadsTheTable : Prop :=
  ∀ (s : State) (v a : Nat) (o source : Osc) (phase idx page : Nat), MicroReady s v o → OutputLegal s v →
    s.cfg.src[v]? = some a → s.oscs[a]? = some source →
    1 ≤ o.waveformSelect.toNat → o.waveformSelect.toNat ≤ 7 →
    phase = o.accumulator.toNat / 0x1000 →
    idx = (if o.waveformSelect.toNat % 2 = 1 ∧ o.ringModEnabled = true ∧ 0x800000 ≤ source.accumulator.toNat
      then (phase + 0x800) % 0x1000 else phase) →
    page = (if o.waveformSelect.toNat ≤ 3 then o.waveformSelect.toNat - 1
      else if o.testHeld = true ∨ o.pulseWidth.toNat ≤ phase then o.waveformSelect.toNat + 3
      else o.waveformSelect.toNat - 1) →
    page ≤ 10 ∧ ∃ q, exec (.output v) s = .next { s.withOsc v
        { o with previousOutputVoltage := romRead s.cfg.analog s.model s.nl page (BitVec.ofNat 12 idx) } with
      results := s.results ++ [.sample v (romRead s.cfg.analog s.model s.nl page (BitVec.ofNat 12 idx))], seq := q }

/-- What OUTPUT returns for `v` depends on `v`'s own record and, of every other oscillator, on bit 23 of the sync
source's accumulator only. The spec derives this (R61 (b)). -/
def Obligations.OutputSeesOneBitOfTheSource : Prop :=
  ∀ (s t s' t' : State) (v : Nat),
    s.cfg = t.cfg → s.model = t.model → s.nl = t.nl → s.osc v = t.osc v →
    (s.osc (srcOf s.cfg.toCfgDigital v)).accumulator.getLsbD 23 =
      (t.osc (srcOf t.cfg.toCfgDigital v)).accumulator.getLsbD 23 →
    s.oscs.length = t.oscs.length →
    exec (.output v) s = .next s' → exec (.output v) t = .next t' → s'.osc v = t'.osc v

/-- The page of a code in 1 to 7 is one of the eleven, and each page but none other is the page of one code and
pulse level. -/
def Obligations.PagesAreTheEleven : Prop :=
  (∀ c high, 1 ≤ c → c ≤ 7 → pageNumber c high ≤ 10) ∧
  (∀ c c' high high', 1 ≤ c → c ≤ 7 → 1 ≤ c' → c' ≤ 7 → pageNumber c high = pageNumber c' high' →
    c = c' ∧ (4 ≤ c → high = high')) ∧
  (∀ t, t ≤ 10 → ∃ c high, 1 ≤ c ∧ c ≤ 7 ∧ pageNumber c high = t)

/-! ### CYCLE, RESET, CONFIG -/

/-- R220, with its encoding: CYCLE is legal only in `IDLE`; it clocks every oscillator, resets the accumulators that the
sync pass resets, decided on the flags as the CLOCKs left them, then outputs every oscillator, and leaves the sequencer
`IDLE`. -/
def Obligations.CycleRunsTheThreePasses : Prop :=
  (encodeWord (.cycle : Instr)).toNat = 0x60000 ∧
  ∀ (s : State), Inv s → s.hasReset = true →
    (s.seq ≠ .idle → exec .cycle s = .refused .outOfSequence) ∧
    (s.seq = .idle →
    ∃ t, exec .cycle s = .next t ∧ t.seq = .idle ∧ t = { s with oscs := t.oscs, results := t.results } ∧
      t.oscs.length = s.oscs.length ∧
      t.results = s.results ++
        (List.range s.cfg.nvoices).map (fun v => Result.sample v (t.osc v).previousOutputVoltage) ∧
      ∀ v, v < s.cfg.nvoices → ∀ clocked : Nat → Osc, (∀ u, clocked u = clockOsc s.cfg.toCfg s.model (s.osc u)) →
        t.osc v = { clocked v with
          accumulator := (t.osc v).accumulator
          previousOutputVoltage := (t.osc v).previousOutputVoltage } ∧
        ((∃ u, u < s.cfg.nvoices ∧ dstOf s.cfg.toCfgDigital u = v ∧ (clocked u).msbRising = true ∧
            (clocked v).syncEnabled = true ∧
            ¬ ((clocked u).syncEnabled = true ∧ (clocked (srcOf s.cfg.toCfgDigital u)).msbRising = true)) →
          (t.osc v).accumulator = 0#24) ∧
        ((¬ ∃ u, u < s.cfg.nvoices ∧ dstOf s.cfg.toCfgDigital u = v ∧ (clocked u).msbRising = true ∧
            (clocked v).syncEnabled = true ∧
            ¬ ((clocked u).syncEnabled = true ∧ (clocked (srcOf s.cfg.toCfgDigital u)).msbRising = true)) →
          (t.osc v).accumulator = (clocked v).accumulator) ∧
        ((s.osc v).waveformSelect = 0#4 →
          (t.osc v).previousOutputVoltage = (s.osc v).previousOutputVoltage) ∧
        ((s.osc v).waveformSelect ≠ 0#4 → (t.osc v).previousOutputVoltage = outOf t.cfg.toCfg t.toStateOf v))

/-- A cycle performed as any legal sequence of micro-operations equals CYCLE: the same state, each oscillator's sample
the same, the samples listed in the order the OUTPUTs ran. The spec derives this (R223). -/
def Obligations.CycleEqualsAnyOrderOfMicroOperations : Prop :=
  ∀ (s : State) (clocks syncs outputs : List Nat), Inv s → s.hasReset = true → s.seq = .idle →
    clocks.Perm (List.range s.cfg.nvoices) → syncs.Perm (List.range s.cfg.nvoices) →
    outputs.Perm (List.range s.cfg.nvoices) →
    ∃ t, exec .cycle s = .next t ∧
      runInstrs (clocks.map .clock ++ (syncs.map .synchronize ++ outputs.map .output)) s =
        .next { t with results :=
          s.results ++ outputs.map (fun v => Result.sample v (t.osc v).previousOutputVoltage) }

/-- R260 with the table of R40 (values by the spec's decisions D16, D17) and its encoding: RESET in any state. `model`,
`nl` and the zero levels are not changed. Before the first CONFIG, for which the spec gives no zero level, the value of
`cachedNoiseVoltage` is the model's inference (log 12). -/
def Obligations.ResetOperationSetsEveryField : Prop :=
  (encodeWord (.reset : Instr)).toNat = 0x70000 ∧
  ∀ (s : State), exec .reset s = .next { s with
    seq := .idle
    hasReset := true
    oscs := s.oscs.map fun o =>
      { accumulator := 0#24, frequency := 0#16, pulseWidth := 0#12, waveformSelect := 0#4
        testHeld := false, ringModEnabled := false, syncEnabled := false
        noiseShiftRegister := s.cfg.noiseReset
        cachedNoiseSample := noiseWord s.cfg.noiseTaps s.cfg.noiseReset
        cachedNoiseVoltage := noiseDac s.cfg.analog s.model o.zeroLevelVoltage
          (noiseWord s.cfg.noiseTaps s.cfg.noiseReset)
        previousOutputVoltage := s.cfg.prevReset
        zeroLevelVoltage := o.zeroLevelVoltage
        msbRising := false
        noiseOverwriteDelay := 0 } }

/-- The state after reset, with the default parameters of R10, holds the values of the table of R40; the chip model 0 and
the coefficient 0 in force in it are the model's choice (log 7). -/
def Obligations.StateAfterResetHoldsTheTable : Prop :=
  State.reset.oscs.length = 3 ∧ State.reset.seq = .idle ∧
  ∀ o ∈ State.reset.oscs,
    o.accumulator = 0#24 ∧ o.frequency = 0#16 ∧ o.pulseWidth = 0#12 ∧ o.waveformSelect = 0#4 ∧
    o.testHeld = false ∧ o.ringModEnabled = false ∧ o.syncEnabled = false ∧
    o.noiseShiftRegister = 0x7FFFFC#23 ∧ o.cachedNoiseSample = 0xFF0#12 ∧
    o.cachedNoiseVoltage = noiseDac State.reset.cfg.analog State.reset.model o.zeroLevelVoltage 0xFF0#12 ∧
    o.previousOutputVoltage = State.reset.cfg.prevReset ∧
    o.zeroLevelVoltage = zeroLevelOf State.reset.cfg.analog State.reset.model ∧
    o.msbRising = false ∧ o.noiseOverwriteDelay = 0

/-- R205, with its encoding: CONFIG is legal only in `IDLE`; it writes the two configuration registers and every zero
level, and nothing else: in particular neither the noise cache nor the hold latch. With the values in force it changes
nothing, the zero levels being those of the chip model. -/
def Obligations.ConfigSetsTheConfiguration : Prop :=
  ∀ (s : State) (m : ChipModel) (nl : NL),
    (encodeWord (.config m nl : Instr)).toNat = (if m = .model0 then 0x80000 else 0x80100) ∧
    (encode (.config m nl)).nl = nl ∧
    (s.seq ≠ .idle → exec (.config m nl) s = .refused .outOfSequence) ∧
    (s.seq = .idle → exec (.config m nl) s = .next { s with
      model := m
      nl := nl
      oscs := s.oscs.map fun o => { o with zeroLevelVoltage := zeroLevelOf s.cfg.analog m } }) ∧
    (s.seq = .idle → Configured s → exec (.config s.model s.nl) s = .next s)

/-- The second of two equal CONFIGs changes nothing (R205), and CONFIG establishes the zero levels of R207. -/
def Obligations.ConfigTwiceIsConfigOnce : Prop :=
  ∀ (s t : State) (m : ChipModel) (nl : NL), exec (.config m nl) s = .next t →
    Configured t ∧ exec (.config m nl) t = .next t

/-! ### Whole-machine rules -/

/-- The column "written by" of the table of R20: which operation may change which field of oscillator `v`. CYCLE stands
for the CLOCKs, SYNCHRONIZEs and OUTPUTs it performs (R220). -/
def Obligations.FieldsAreWrittenByTheirWriters : Prop :=
  ∀ (s t : State) (i : Instr), exec i s = .next t →
    t.oscs.length = s.oscs.length ∧
    ∀ (v : Nat) (o p : Osc), s.oscs[v]? = some o → t.oscs[v]? = some p →
      (p.accumulator ≠ o.accumulator → i = .clock v ∨ i = .cycle ∨ i = .reset
        ∨ (∃ u, i = .synchronize u ∧ dstOf s.cfg.toCfgDigital u = v)
        ∨ ((∃ d, i = .wrControl v d) ∧ s.cfg.testRiseClearsAcc = true)) ∧
      (p.frequency ≠ o.frequency → (∃ d, i = .wrFreqLo v d ∨ i = .wrFreqHi v d) ∨ i = .reset) ∧
      (p.pulseWidth ≠ o.pulseWidth → (∃ d, i = .wrPwLo v d ∨ i = .wrPwHi v d) ∨ i = .reset) ∧
      ((p.waveformSelect ≠ o.waveformSelect ∨ p.testHeld ≠ o.testHeld ∨ p.ringModEnabled ≠ o.ringModEnabled
          ∨ p.syncEnabled ≠ o.syncEnabled) → (∃ d, i = .wrControl v d) ∨ i = .reset) ∧
      ((p.noiseShiftRegister ≠ o.noiseShiftRegister ∨ p.cachedNoiseSample ≠ o.cachedNoiseSample
          ∨ p.cachedNoiseVoltage ≠ o.cachedNoiseVoltage ∨ p.msbRising ≠ o.msbRising) →
        i = .clock v ∨ i = .cycle ∨ i = .reset) ∧
      (p.previousOutputVoltage ≠ o.previousOutputVoltage → i = .output v ∨ i = .cycle ∨ i = .reset) ∧
      (p.zeroLevelVoltage ≠ o.zeroLevelVoltage → ∃ m nl, i = .config m nl) ∧
      (p.noiseOverwriteDelay ≠ o.noiseOverwriteDelay →
        (∃ d, i = .wrControl v d) ∨ i = .clock v ∨ i = .cycle ∨ i = .reset)

/-- R33, R37 and R16: only CONFIG changes `model` and `nl`, only RESET the mark of the first RESET, nothing the
parameters or the rest of the input, and only RD_OSC, OUTPUT and CYCLE yield results. -/
def Obligations.SharedStateIsWrittenByItsWriters : Prop :=
  ∀ (s t : State) (i : Instr), exec i s = .next t →
    t.cfg = s.cfg ∧ t.inputs = s.inputs ∧
    ((t.model ≠ s.model ∨ t.nl ≠ s.nl) → ∃ m nl, i = .config m nl) ∧
    (t.hasReset ≠ s.hasReset → i = .reset) ∧
    s.results <+: t.results ∧
    (t.results ≠ s.results → (∃ v, i = .rdOsc v ∨ i = .output v) ∨ i = .cycle)

/-! ### Runs of cycles -/

/-- R127: with frequency 4096 from accumulator 0, after `n` cycles the accumulator is `n * 0x1000 mod 2^24`, and
`msbRising` is true after the cycles 2048, 2048 + 4096, ... and no others. Test and sync of this oscillator are off. -/
def Obligations.AccumulatorWrapsWithItsPeriod : Prop :=
  ∀ (s : State) (v : Nat) (o : Osc) (n : Nat), HostReady s v o →
    o.frequency = 0x1000#16 → o.accumulator = 0#24 → o.testHeld = false → o.syncEnabled = false →
    ∃ t p, runInstrs (pseudoCycles n) s = .next t ∧ t.oscs[v]? = some p ∧
      p.accumulator.toNat = n * 0x1000 % 2 ^ 24 ∧ (0 < n → (p.msbRising = true ↔ n % 4096 = 2048))

/-- R177: with waveform code 0 any number of cycles hold and return the same sample, whatever the accumulators do. -/
def Obligations.CodeZeroHoldsTheSample : Prop :=
  ∀ (s : State) (v : Nat) (o : Osc) (n : Nat), HostReady s v o → o.waveformSelect = 0#4 →
    ∃ t p, runInstrs (pseudoCycles n) s = .next t ∧ t.oscs[v]? = some p ∧
      p.previousOutputVoltage = o.previousOutputVoltage ∧
      ∀ y, Result.sample v y ∈ t.results.drop s.results.length → y = o.previousOutputVoltage

/-- Setting test and holding it for `NOISE_OVERWRITE_DELAY` cycles leaves the noise register as it was until the last of
them and nonzero immediately after it, from any register value (R105, R122, R148, R264). -/
def Obligations.HoldingTestRecoversTheNoiseRegister : Prop :=
  ∀ (s : State) (v : Nat) (o : Osc) (d : Byte), Inv s → HostReady s v o →
    o.testHeld = false → d.getLsbD 3 = true →
    (∀ k, k < s.cfg.noiseOverwriteDelay → ∃ t p,
      runInstrs (.wrControl v d :: pseudoCycles k) s = .next t ∧ t.oscs[v]? = some p ∧
        p.noiseShiftRegister = o.noiseShiftRegister ∧ p.noiseOverwriteDelay = s.cfg.noiseOverwriteDelay - k) ∧
    ∃ t p, runInstrs (.wrControl v d :: pseudoCycles s.cfg.noiseOverwriteDelay) s = .next t ∧
      t.oscs[v]? = some p ∧ p.noiseShiftRegister ≠ 0#23 ∧ p.noiseOverwriteDelay = 0

/-! ### Invariants -/

/-- The invariant is kept by every step of the step relation, for any types of samples and of coefficients and all
parameters, and by every step of the machine, from every state that has it (R38, R221, R261). -/
def Obligations.EveryStepKeepsTheMachineInvariant : Prop :=
  (∀ (S N : Type) (cfg : Cfg S N) (s t : StateOf S N),
    InvOf cfg.toCfgDigital s → stepOf cfg s = .next t → InvOf cfg.toCfgDigital t) ∧
  ∀ (s t : State), Inv s → step s = .next t → Inv t

/-- The state after reset has the invariant, and its zero levels and noise caches are those of its configuration. -/
def Obligations.StateAfterResetHasTheInvariant : Prop :=
  Inv State.reset ∧ Configured State.reset ∧ NoiseCacheFresh State.reset

/-- The zero levels follow the configuration in every step; the cached analog noise samples do in every step that does
not change the chip model (R29, R38 (b)). For any types of samples and of coefficients and all parameters, and of the
machine. -/
def Obligations.NoiseCacheFollowsTheConfiguration : Prop :=
  (∀ (S N : Type) (cfg : Cfg S N) (s t : StateOf S N), ConfiguredOf cfg s → stepOf cfg s = .next t →
    ConfiguredOf cfg t ∧ (NoiseCacheFreshOf cfg s → t.model = s.model → NoiseCacheFreshOf cfg t)) ∧
  ∀ (s t : State), Configured s → step s = .next t →
    Configured t ∧ (NoiseCacheFresh s → t.model = s.model → NoiseCacheFresh t)

/-! ### The test configuration -/

/-- R208: the tables of `CFG_LINEAR` in the integers, the ideal triangle given by arithmetic, and `NoiseDac(w) = w`. The
same contents in a state, with nothing listed beside them, are these numbers as rationals (log 3). -/
def Obligations.LinearConfigurationTables : Prop :=
  (∀ (N : Type) (a : Analog Int N) (m : ChipModel) (nl : N) (p : Word12) (tri : Word12), a = linearAnalog →
    tri.toNat = (if p.toNat < 0x800 then 2 * p.toNat else 2 * (0xFFF - p.toNat)) →
    zeroLevelOf a m = 0 ∧
    (∀ i, dacRead a m i = 2 ^ i) ∧
    romRead a m nl 0 p = tri.toNat ∧
    romRead a m nl 1 p = p.toNat ∧
    romRead a m nl 2 p = (tri &&& p).toNat ∧
    (∀ t, 3 ≤ t → t ≤ 6 → romRead a m nl t p = 0) ∧
    romRead a m nl 7 p = 0xFFF ∧
    romRead a m nl 8 p = tri.toNat ∧
    romRead a m nl 9 p = p.toNat ∧
    romRead a m nl 10 p = (tri &&& p).toNat ∧
    ∀ w, noiseDac a m 0 w = w.toNat) ∧
  (∀ (d : CfgData) (a : Analog Int NL), a = linearAnalog →
    d.rest = .linear → d.addAt = [] → d.dacwAt = [] → d.zeroAt = [] → d.wfromAt = [] →
    (∀ x y, d.analog.add x y = x + y) ∧
    (∀ m, zeroLevelOf d.analog m = ((zeroLevelOf a m : Int) : Sample)) ∧
    (∀ m i, dacRead d.analog m i = ((dacRead a m i : Int) : Sample)) ∧
    ∀ m nl t p, romRead d.analog m nl t p = ((romRead a m nl t p : Int) : Sample))

/-! ### The parameters as data -/

/-- The plain data of a state stand for any contents of the analog parameters of R10 at any finitely many arguments;
the other items are as they were. The form of the parameters in a state is the model's choice (log 1). -/
def Obligations.PlainDataStandForAnyContents : Prop :=
  ∀ (a : Analog Sample NL) (d : CfgData) (sums : List (Sample × Sample)) (weights : List (ChipModel × Nat))
    (zeros : List ChipModel) (waves : List (ChipModel × NL × Nat × Word12)),
    ∃ e : CfgData, e.toCfgDigital = d.toCfgDigital ∧ e.prevReset = d.prevReset ∧
      (∀ x y, (x, y) ∈ sums → e.toCfg.add x y = a.add x y) ∧
      (∀ m i, (m, i) ∈ weights → e.toCfg.dacw m i = a.dacw m i) ∧
      (∀ m, m ∈ zeros → e.toCfg.zero m = a.zero m) ∧
      (∀ m nl t p, (m, nl, t, p) ∈ waves → e.toCfg.wfrom m nl t p = a.wfrom m nl t p)

/-- Whatever the analog parameters of R10 contain, every finite run of the step relation under them, from any state, is a
run of the machine under some plain data with the same other items: no contents are shut out of a claim about every
state. The form of the parameters in a state is the model's choice (log 1). -/
def Obligations.RunsUnderAnyContentsAreRunsOfTheMachine : Prop :=
  ∀ (cfg : Cfg Sample NL) (is : List Instr) (s : StateOf Sample NL),
    ∃ d : CfgData, d.toCfgDigital = cfg.toCfgDigital ∧ d.prevReset = cfg.prevReset ∧
      runInstrs is ⟨s, d⟩ = mapOutcome (fun t => ⟨t, d⟩) (runOf cfg is s)

/-! ### The types of samples and of coefficients -/

/-- No operation looks into a sample or a coefficient: if `f` and `g` carry the analog parameters of `cfg` over to those
of `cfg'`, the step relation under `cfg'` does to the carried-over state what the one under `cfg` does to the state.
So what a step does, and whether it is refused, does not depend on what samples and coefficients are (R15, R37, log 3). -/
def Obligations.StepRelationIsTheSameForAllTypes : Prop :=
  ∀ (S N S' N' : Type) (f : S → S') (g : N → N') (cfg : Cfg S N) (cfg' : Cfg S' N'), CarriedOver f g cfg cfg' →
    ∀ (s : StateOf S N),
      (∀ i : Instr N, perform cfg' (i.map g) (s.map f g) = mapOutcome (StateOf.map f g) (perform cfg i s)) ∧
      stepOf cfg' (s.map f g) = mapOutcome (StateOf.map f g) (stepOf cfg s)
end

