-- ==== Sys2Proof/Laws/State.lean ====
section
/-! SUPPORT. What the parameters' data stand for, and what each named update of the state leaves in each field. -/

namespace Sys2Proof.Machine

section Cfg
variable (d : CfgData)

@[simp] theorem toCfg_toCfgDigital : d.toCfg.toCfgDigital = d.toCfgDigital := rfl
@[simp] theorem toCfg_toAnalog : d.toCfg.toAnalog = d.analog := rfl
@[simp] theorem toCfg_prevReset : d.toCfg.prevReset = d.prevReset := rfl

variable (m : ChipModel) (i t : Nat) (x y : Sample) (nl : NL) (p : Word12)

theorem analog_add : d.analog.add x y =
    withListed d.addAt (fun a => (namedAnalog d.rest).add a.1 a.2) (x, y) := rfl

theorem analog_dacw : d.analog.dacw m i =
    withListed d.dacwAt (fun a => (namedAnalog d.rest).dacw a.1 a.2) (m, i) := rfl

theorem analog_zero : d.analog.zero m = withListed d.zeroAt (namedAnalog d.rest).zero m := rfl

theorem analog_wfrom : d.analog.wfrom m nl t p =
    withListed d.wfromAt (fun a => (namedAnalog d.rest).wfrom a.1 a.2.1 a.2.2.1 a.2.2.2) (m, nl, t, p) := rfl

/-- With nothing listed a function is unchanged. -/
@[simp] theorem withListed_nil {α β : Type} [BEq α] (f : α → β) : withListed [] f = f := rfl

/-- A function with another one's values listed at the arguments `as` is that other one there. -/
theorem withListed_map {α β : Type} [BEq α] [LawfulBEq α] (as : List α) (f g : α → β) {a : α} (h : a ∈ as) :
    withListed (as.map fun b => (b, g b)) f a = g a := by
  induction as with
  | nil => simp at h
  | cons b as ih =>
    simp only [withListed, List.map_cons, List.lookup_cons] at ih ⊢
    cases hab : a == b with
    | true => rw [eq_of_beq hab]; rfl
    | false =>
      rcases List.mem_cons.mp h with rfl | h
      · simp at hab
      · exact ih h

/-- A state's data with nothing listed has the named contents. -/
theorem analog_of_nothing_listed (h : d.addAt = [] ∧ d.dacwAt = [] ∧ d.zeroAt = [] ∧ d.wfromAt = []) :
    d.analog = namedAnalog d.rest := by
  obtain ⟨h1, h2, h3, h4⟩ := h
  simp [CfgData.analog, h1, h2, h3, h4]

end Cfg

section ModifyOsc
variable {S N : Type} (cfg : Cfg S N) (s : StateOf S N) (v u : Nat) (f : OscOf S → OscOf S)

@[simp] theorem modifyOsc_model : (s.modifyOsc v f).model = s.model := rfl
@[simp] theorem modifyOsc_nl : (s.modifyOsc v f).nl = s.nl := rfl
@[simp] theorem modifyOsc_seq : (s.modifyOsc v f).seq = s.seq := rfl
@[simp] theorem modifyOsc_hasReset : (s.modifyOsc v f).hasReset = s.hasReset := rfl
@[simp] theorem modifyOsc_inputs : (s.modifyOsc v f).inputs = s.inputs := rfl
@[simp] theorem modifyOsc_results : (s.modifyOsc v f).results = s.results := rfl

@[simp] theorem modifyOsc_length : (s.modifyOsc v f).oscs.length = s.oscs.length := by
  simp [StateOf.modifyOsc]

theorem modifyOsc_getElem? :
    (s.modifyOsc v f).oscs[u]? = s.oscs[u]?.map (fun o => if v = u then f o else o) := by
  simp [StateOf.modifyOsc, List.getElem?_modify]

theorem modifyOsc_getElem?_of_ne (h : v ≠ u) : (s.modifyOsc v f).oscs[u]? = s.oscs[u]? := by
  simp [modifyOsc_getElem?, h]

theorem modifyOsc_getElem?_self {o : OscOf S} (h : s.oscs[v]? = some o) :
    (s.modifyOsc v f).oscs[v]? = some (f o) := by
  simp [modifyOsc_getElem?, h]

theorem readOsc_modifyOsc_of_ne (h : v ≠ u) : readOsc cfg (s.modifyOsc v f) u = readOsc cfg s u := by
  simp [readOsc, List.getD_eq_getElem?_getD, modifyOsc_getElem?, h]

theorem readOsc_modifyOsc_self (h : v < s.oscs.length) :
    readOsc cfg (s.modifyOsc v f) v = f (readOsc cfg s v) := by
  simp [readOsc, List.getD_eq_getElem?_getD, -modifyOsc_length, modifyOsc_getElem?, List.getElem?_eq_getElem h]

/-- Reading any oscillator after a change of oscillator `v`. -/
theorem readOsc_modifyOsc : readOsc cfg (s.modifyOsc v f) u =
    if v = u ∧ u < s.oscs.length then f (readOsc cfg s u) else readOsc cfg s u := by
  by_cases h : v = u
  · subst h
    by_cases hv : v < s.oscs.length
    · rw [if_pos ⟨rfl, hv⟩, readOsc_modifyOsc_self _ _ _ _ hv]
    · rw [if_neg fun hh => hv hh.2]
      have : s.oscs[v]? = none := by simpa using hv
      simp [readOsc, List.getD_eq_getElem?_getD, -modifyOsc_length, modifyOsc_getElem?, this]
  · rw [if_neg fun hh => h hh.1, readOsc_modifyOsc_of_ne _ _ _ _ _ h]

end ModifyOsc

section YieldResult
variable {S N : Type} (s : StateOf S N) (r : Result S)

@[simp] theorem yieldResult_oscs : (s.yieldResult r).oscs = s.oscs := rfl
@[simp] theorem yieldResult_model : (s.yieldResult r).model = s.model := rfl
@[simp] theorem yieldResult_nl : (s.yieldResult r).nl = s.nl := rfl
@[simp] theorem yieldResult_seq : (s.yieldResult r).seq = s.seq := rfl
@[simp] theorem yieldResult_hasReset : (s.yieldResult r).hasReset = s.hasReset := rfl
@[simp] theorem yieldResult_inputs : (s.yieldResult r).inputs = s.inputs := rfl
@[simp] theorem yieldResult_results : (s.yieldResult r).results = s.results ++ [r] := rfl

end YieldResult

section WithOsc
variable (s : State) (v : Nat) (o : Osc)

@[simp] theorem withOsc_cfg : (s.withOsc v o).cfg = s.cfg := rfl
@[simp] theorem withOsc_model : (s.withOsc v o).model = s.model := rfl
@[simp] theorem withOsc_nl : (s.withOsc v o).nl = s.nl := rfl
@[simp] theorem withOsc_seq : (s.withOsc v o).seq = s.seq := rfl
@[simp] theorem withOsc_hasReset : (s.withOsc v o).hasReset = s.hasReset := rfl
@[simp] theorem withOsc_inputs : (s.withOsc v o).inputs = s.inputs := rfl
@[simp] theorem withOsc_results : (s.withOsc v o).results = s.results := rfl
@[simp] theorem withOsc_oscs : (s.withOsc v o).oscs = s.oscs.set v o := rfl

end WithOsc

section ReadOsc
variable {S N : Type} {cfg : Cfg S N} {s : StateOf S N} {v : Nat} {o : OscOf S}

/-- Reading a listed oscillator. -/
theorem readOsc_eq_of_getElem? (h : s.oscs[v]? = some o) : readOsc cfg s v = o := by
  simp [readOsc, List.getD_eq_getElem?_getD, h]

/-- A listed oscillator is the one read. -/
theorem getElem?_eq_readOsc (h : v < s.oscs.length) : s.oscs[v]? = some (readOsc cfg s v) := by
  simp [readOsc, List.getD_eq_getElem?_getD, h]

/-- Changing a listed oscillator replaces its record. -/
theorem modifyOsc_oscs_eq_set (f : OscOf S → OscOf S) (h : s.oscs[v]? = some o) :
    (s.modifyOsc v f).oscs = s.oscs.set v (f o) := by
  apply List.ext_getElem?
  intro u
  rw [modifyOsc_getElem?, List.getElem?_set]
  obtain ⟨hv, rfl⟩ := List.getElem?_eq_some_iff.mp h
  by_cases huv : v = u
  · subst huv; simp [hv]
  · simp [huv]

end ReadOsc

/-- Reading a listed oscillator. -/
theorem osc_eq_of_getElem? {s : State} {v : Nat} {o : Osc} (h : s.oscs[v]? = some o) : s.osc v = o :=
  readOsc_eq_of_getElem? h

/-- A listed oscillator is the one read. -/
theorem getElem?_eq_osc {s : State} {v : Nat} (h : v < s.oscs.length) : s.oscs[v]? = some (s.osc v) :=
  getElem?_eq_readOsc h

/-- Changing a listed oscillator of a state that carries its parameters replaces its record. -/
theorem modifyOsc_eq_withOsc {s : State} {v : Nat} {o : Osc} (f : Osc → Osc) (h : s.oscs[v]? = some o) :
    { s with toStateOf := s.toStateOf.modifyOsc v f } = s.withOsc v (f o) := by
  rw [State.withOsc, ← modifyOsc_oscs_eq_set f h]
  rfl

/-- Replacing a record by itself changes nothing. -/
theorem withOsc_self {s : State} {v : Nat} {o : Osc} (h : s.oscs[v]? = some o) : s.withOsc v o = s := by
  obtain ⟨hv, rfl⟩ := List.getElem?_eq_some_iff.mp h
  simp [State.withOsc]

/-- A record replaced twice. -/
@[simp] theorem withOsc_withOsc (s : State) (v : Nat) (o p : Osc) : (s.withOsc v o).withOsc v p = s.withOsc v p := by
  simp [State.withOsc]

/-- What an operation does to a state that carries its parameters: what the step relation does, the parameters kept. -/
theorem underCfg_next_iff {s t : State} {op : Cfg Sample NL → StateOf Sample NL → OutOf Sample NL} :
    s.underCfg op = .next t ↔ op s.cfg.toCfg s.toStateOf = .next t.toStateOf ∧ t.cfg = s.cfg := by
  obtain ⟨t, c⟩ := t
  unfold State.underCfg
  cases op s.cfg.toCfg s.toStateOf <;> simp [eq_comm (a := c)]

/-- It is refused exactly where the step relation refuses. -/
theorem underCfg_refused_iff {s : State} {op : Cfg Sample NL → StateOf Sample NL → OutOf Sample NL} {r : Refusal} :
    s.underCfg op = .refused r ↔ op s.cfg.toCfg s.toStateOf = .refused r := by
  unfold State.underCfg
  cases op s.cfg.toCfg s.toStateOf <;> simp

end Sys2Proof.Machine
end

