-- ==== Sys2Proof/Laws/Ops.lean ====
section
/-! SUPPORT. What each shared operation can do, said once: admission, sets of oscillators, the sequencer, the ports. -/

namespace Sys2Proof.Machine

/-! ### Admission -/

section Admission
variable {S N : Type} {nvoices v : Nat} {s n t : StateOf S N} {after : Option Sequencer} {q : Sequencer}

theorem hostOp_next_iff : hostOp s n = .next t ↔ s.hasReset = true ∧ s.seq = .idle ∧ t = n := by
  unfold hostOp
  split_ifs with hr hi
  · simp [hr]
  · simp_all [eq_comm (a := t)]
  · simp [hi]

theorem hostOp_ready (n : StateOf S N) (h : s.hasReset = true) (hi : s.seq = .idle) : hostOp s n = .next n :=
  hostOp_next_iff.mpr ⟨h, hi, rfl⟩

theorem hostVoiceOp_next_iff :
    hostVoiceOp nvoices v s n = .next t ↔ v < nvoices ∧ s.hasReset = true ∧ s.seq = .idle ∧ t = n := by
  unfold hostVoiceOp
  split_ifs with h
  · simp; omega
  · simp [hostOp_next_iff]; omega

theorem hostVoiceOp_ready (n : StateOf S N) (hv : v < nvoices) (h : s.hasReset = true) (hi : s.seq = .idle) :
    hostVoiceOp nvoices v s n = .next n :=
  hostVoiceOp_next_iff.mpr ⟨hv, h, hi, rfl⟩

theorem microOp_next_iff : microOp nvoices v s after n = .next t ↔
    v < nvoices ∧ s.hasReset = true ∧ ∃ q, after = some q ∧ t = { n with seq := q } := by
  unfold microOp
  split_ifs with h hr
  · simp; omega
  · simp [hr]
  · cases after with
    | none => simp
    | some q => simp_all [eq_comm (a := t)]

theorem microOp_ready (n : StateOf S N) (hv : v < nvoices) (hr : s.hasReset = true) (hq : after = some q) :
    microOp nvoices v s after n = .next { n with seq := q } :=
  microOp_next_iff.mpr ⟨hv, hr, q, hq, rfl⟩

end Admission

/-! ### Sets of oscillators -/

@[simp] theorem mem_insertVoice {u v : Nat} {l : List Nat} : u ∈ insertVoice v l ↔ u = v ∨ u ∈ l := by
  induction l with
  | nil => simp [insertVoice]
  | cons w ws ih =>
    unfold insertVoice
    split_ifs with h h'
    · simp
    · subst h'; simp
    · simp [ih]; tauto

theorem insertVoice_pairwise {v : Nat} {l : List Nat} (h : l.Pairwise (· < ·)) :
    (insertVoice v l).Pairwise (· < ·) := by
  induction l with
  | nil => simp [insertVoice]
  | cons w ws ih =>
    obtain ⟨hw, hws⟩ := List.pairwise_cons.mp h
    unfold insertVoice
    split_ifs with h1 h2
    · refine List.pairwise_cons.mpr ⟨fun a ha => ?_, h⟩
      rcases List.mem_cons.mp ha with rfl | ha
      · exact h1
      · exact h1.trans (hw a ha)
    · exact h
    · refine List.pairwise_cons.mpr ⟨fun a ha => ?_, ih hws⟩
      rcases mem_insertVoice.mp ha with rfl | ha
      · omega
      · exact hw a ha

theorem allServed_iff {n : Nat} {l : List Nat} : allServed n l = true ↔ ∀ u, u < n → u ∈ l := by
  simp [allServed, List.all_eq_true]

/-- Two strictly rising lists with the same members are the same list. -/
theorem pairwise_lt_ext {l m : List Nat} (hl : l.Pairwise (· < ·)) (hm : m.Pairwise (· < ·))
    (h : ∀ u, u ∈ l ↔ u ∈ m) : l = m := by
  have hp : l.Perm m := (List.perm_ext_iff_of_nodup (hl.imp fun h => Nat.ne_of_lt h)
    (hm.imp fun h => Nat.ne_of_lt h)).mpr h
  exact hp.eq_of_pairwise (fun a b _ _ h1 h2 => absurd h1 (by omega)) hl hm

/-! ### The sequencer -/

theorem seqClock_some_iff {v : Nat} {q r : Sequencer} : seqClock v q = some r ↔
    (q = .idle ∧ r = .clocking [v]) ∨ ∃ l, q = .clocking l ∧ v ∉ l ∧ r = .clocking (insertVoice v l) := by
  cases q <;> simp [seqClock, eq_comm (a := r)]

theorem seqSync_some_iff {n v : Nat} {q r : Sequencer} : seqSync n v q = some r ↔
    (∃ l, q = .clocking l ∧ allServed n l = true ∧ r = .syncing [v]) ∨
      ∃ l, q = .syncing l ∧ v ∉ l ∧ r = .syncing (insertVoice v l) := by
  cases q <;> simp [seqSync, eq_comm (a := r)]

theorem seqOutput_some_iff {n v : Nat} {q r : Sequencer} : seqOutput n v q = some r ↔
    (∃ l, q = .syncing l ∧ allServed n l = true ∧ r = seqAfterOutput n [v]) ∨
      ∃ l, q = .outputting l ∧ v ∉ l ∧ r = seqAfterOutput n (insertVoice v l) := by
  cases q <;> simp [seqOutput, eq_comm (a := r)]

theorem clockLegal_iff {s : State} {v : Nat} : ClockLegal s v ↔ ∃ q, seqClock v s.seq = some q := by
  cases h : s.seq <;> simp [ClockLegal, seqClock, h]

theorem syncLegal_iff {s : State} {v : Nat} : SyncLegal s v ↔ ∃ q, seqSync s.cfg.nvoices v s.seq = some q := by
  cases h : s.seq <;> simp [SyncLegal, seqSync, h, allServed_iff]

theorem outputLegal_iff {s : State} {v : Nat} :
    OutputLegal s v ↔ ∃ q, seqOutput s.cfg.nvoices v s.seq = some q := by
  cases h : s.seq <;> simp [OutputLegal, seqOutput, h, allServed_iff]

/-! ### The ports -/

@[simp] theorem regRead_osc {S : Type} (o : OscOf S) : regRead 7#4 o = .ok (oscByte o.accumulator) := rfl

theorem regRead_other {S : Type} {sel : Nibble} (o : OscOf S) (h : sel ≠ 7#4) : regRead sel o = .error .noSuchPort := by
  simp [regRead, h]

theorem regWrite_other {S : Type} (cfg : CfgDigital) {sel : Nibble} (d : Byte) (o : OscOf S) (h : 5 ≤ sel.toNat) :
    regWrite cfg sel d o = o := by
  unfold regWrite
  split <;> first | omega | rfl

/-- The countdown and the accumulator apart, step 1 of a CONTROL write changes nothing. -/
theorem testRise_eq {S : Type} (cfg : CfgDigital) (d : Byte) (o : OscOf S) : testRise cfg d o =
    { o with
      noiseOverwriteDelay := if ctlTest d = true ∧ o.testHeld = false then cfg.noiseOverwriteDelay
        else o.noiseOverwriteDelay
      accumulator := if ctlTest d = true ∧ o.testHeld = false ∧ cfg.testRiseClearsAcc = true then 0#24
        else o.accumulator } := by
  obtain ⟨acc, freq, pw, code, held, ring, sync, reg, word, volt, prev, zero, msb, delay⟩ := o
  unfold testRise
  cases ctlTest d <;> cases held <;> cases cfg.testRiseClearsAcc <;> simp

end Sys2Proof.Machine
end

