-- ==== Sys2Proof/Laws/Exec.lean ====
section
/-! SUPPORT. What each operation can do, said once: when it answers a next state, and which; and that `exec` and `step` are
the step relation of R37 at the parameters a state carries. -/

namespace Sys2Proof.Machine

/-! ### The step relation -/

section Relation
variable {S N : Type} {cfg : Cfg S N} {s t : StateOf S N} {v : Nat} {d : Byte}

theorem perform_wrFreqLo_iff : perform cfg (.wrFreqLo v d) s = .next t ↔
    v < cfg.nvoices ∧ s.hasReset = true ∧ s.seq = .idle ∧ t = s.modifyOsc v (portFreqLo d) :=
  hostVoiceOp_next_iff

theorem perform_wrFreqHi_iff : perform cfg (.wrFreqHi v d) s = .next t ↔
    v < cfg.nvoices ∧ s.hasReset = true ∧ s.seq = .idle ∧ t = s.modifyOsc v (portFreqHi d) :=
  hostVoiceOp_next_iff

theorem perform_wrPwLo_iff : perform cfg (.wrPwLo v d) s = .next t ↔
    v < cfg.nvoices ∧ s.hasReset = true ∧ s.seq = .idle ∧ t = s.modifyOsc v (portPwLo d) :=
  hostVoiceOp_next_iff

theorem perform_wrPwHi_iff : perform cfg (.wrPwHi v d) s = .next t ↔
    v < cfg.nvoices ∧ s.hasReset = true ∧ s.seq = .idle ∧ t = s.modifyOsc v (portPwHi d) :=
  hostVoiceOp_next_iff

theorem perform_wrControl_iff : perform cfg (.wrControl v d) s = .next t ↔
    v < cfg.nvoices ∧ s.hasReset = true ∧ s.seq = .idle ∧ t = s.modifyOsc v (portControl cfg.toCfgDigital d) :=
  hostVoiceOp_next_iff

theorem perform_wrOther_iff {sel : Nibble} : perform cfg (.wrOther v sel d) s = .next t ↔
    5 ≤ sel.toNat ∧ v < cfg.nvoices ∧ s.hasReset = true ∧ s.seq = .idle ∧ t = s := by
  show opWrOther v sel d cfg s = .next t ↔ _
  unfold opWrOther
  split_ifs with h
  · have hid : s.modifyOsc v (regWrite cfg.toCfgDigital sel d) = s := by
      have : (regWrite cfg.toCfgDigital sel d : OscOf S → OscOf S) = id :=
        funext fun o => regWrite_other cfg.toCfgDigital d o h
      simp [StateOf.modifyOsc, this]
    rw [hid, hostVoiceOp_next_iff]
    simp [h]
  · simp [h]

theorem perform_rdOsc_iff : perform cfg (.rdOsc v) s = .next t ↔
    v < cfg.nvoices ∧ s.hasReset = true ∧ s.seq = .idle ∧
      t = s.yieldResult (.osc v (oscByte (readOsc cfg s v).accumulator)) :=
  hostVoiceOp_next_iff

theorem perform_clock_iff : perform cfg (.clock v) s = .next t ↔
    v < cfg.nvoices ∧ s.hasReset = true ∧
      ∃ q, seqClock v s.seq = some q ∧ t = { clockVoice cfg s v with seq := q } :=
  microOp_next_iff

theorem perform_synchronize_iff : perform cfg (.synchronize v) s = .next t ↔
    v < cfg.nvoices ∧ s.hasReset = true ∧
      ∃ q, seqSync cfg.nvoices v s.seq = some q ∧ t = { syncVoice cfg s v with seq := q } :=
  microOp_next_iff

theorem perform_output_iff : perform cfg (.output v) s = .next t ↔
    v < cfg.nvoices ∧ s.hasReset = true ∧
      ∃ q, seqOutput cfg.nvoices v s.seq = some q ∧ t = { outputVoice cfg s v with seq := q } :=
  microOp_next_iff

theorem perform_cycle_iff : perform cfg .cycle s = .next t ↔
    s.hasReset = true ∧ s.seq = .idle ∧ t = cycleState cfg s :=
  hostOp_next_iff

theorem perform_reset_iff : perform cfg .reset s = .next t ↔ t = resetState cfg s := by
  simp [perform, opReset, eq_comm]

theorem perform_config_iff {m : ChipModel} {nl : N} : perform cfg (.config m nl) s = .next t ↔
    s.seq = .idle ∧ t = configState m nl cfg s := by
  show opConfig m nl cfg s = .next t ↔ _
  unfold opConfig
  split_ifs with h <;> simp [h, eq_comm]

/-- What the next operation of an input is. -/
theorem nextOp_ok_iff {nvoices : Nat} {ops rest : List (OpWordOf N)} {i : Instr N} :
    nextOp nvoices ops = .ok (i, rest) ↔ ∃ op, ops = op :: rest ∧ decode nvoices op = .ok i := by
  cases ops with
  | nil => simp [nextOp]
  | cons op ops =>
    unfold nextOp
    cases h : decode nvoices op <;> simp [h]
    tauto

/-- A step that answers a next state performed the operation that stood first in the input. -/
theorem stepOf_next_iff : stepOf cfg s = .next t ↔
    ∃ op rest i, s.inputs = op :: rest ∧ decode cfg.nvoices op = .ok i ∧
      perform cfg i { s with inputs := rest } = .next t := by
  unfold stepOf
  cases h : nextOp cfg.nvoices s.inputs with
  | error r =>
    simp only [reduceCtorEq, false_iff, not_exists]
    rintro op rest i ⟨h1, h2, -⟩
    rw [nextOp_ok_iff.mpr ⟨op, h1, h2⟩] at h
    cases h
  | ok p =>
    obtain ⟨i, rest⟩ := p
    obtain ⟨op, h1, h2⟩ := nextOp_ok_iff.mp h
    simp [h1, h2]

end Relation

/-! ### On a state that carries its parameters -/

variable {s t : State} {v : Nat} {d : Byte}

/-- `exec` is the step relation's effect at the parameters of the state. -/
theorem exec_eq_perform (i : Instr) (s : State) : exec i s = s.underCfg fun cfg => perform cfg i := by
  cases i <;> rfl

/-- `step` is the step relation's step at the parameters of the state. -/
theorem step_eq_stepOf (s : State) : step s = s.underCfg stepOf := by
  unfold step State.underCfg stepOf
  simp only
  cases nextOp s.cfg.nvoices s.inputs with
  | error r => rfl
  | ok p => exact exec_eq_perform p.1 _

/-- When `exec` answers a next state, and which: the lemmas `perform_…_iff` say the rest. -/
theorem exec_next_iff {i : Instr} : exec i s = .next t ↔
    perform s.cfg.toCfg i s.toStateOf = .next t.toStateOf ∧ t.cfg = s.cfg := by
  rw [exec_eq_perform, underCfg_next_iff]

/-- When `exec` refuses. -/
theorem exec_refused_iff {i : Instr} {r : Refusal} :
    exec i s = .refused r ↔ perform s.cfg.toCfg i s.toStateOf = .refused r := by
  rw [exec_eq_perform, underCfg_refused_iff]

/-- A step that answers a next state performed the operation that stood first in the input. -/
theorem step_next_iff : step s = .next t ↔
    ∃ op rest i, s.inputs = op :: rest ∧ decode s.cfg.nvoices op = .ok i ∧
      exec i { s with inputs := rest } = .next t := by
  simp only [step_eq_stepOf, underCfg_next_iff, stepOf_next_iff, exec_next_iff]
  tauto

/-! ### Runs -/

/-- A run of the machine is the run of the step relation under the parameters of the state. -/
theorem runInstrs_eq_runOf (is : List Instr) (s : State) : runInstrs is s = s.underCfg fun cfg => runOf cfg is := by
  induction is generalizing s with
  | nil => rfl
  | cons i is ih =>
    rw [runInstrs, exec_eq_perform]
    unfold State.underCfg
    simp only [runOf]
    cases perform s.cfg.toCfg i s.toStateOf with
    | next t => exact ih _
    | fault f => rfl
    | refused r => rfl

theorem runInstrs_cons_next {i : Instr} {is : List Instr} {u : State} (h : exec i s = .next u) :
    runInstrs (i :: is) s = runInstrs is u := by
  simp [runInstrs, h]

theorem runInstrs_append_next {is js : List Instr} {u : State} (h : runInstrs is s = .next u) :
    runInstrs (is ++ js) s = runInstrs js u := by
  induction is generalizing s with
  | nil => simp_all [runInstrs]
  | cons i is ih =>
    simp only [List.cons_append, runInstrs] at h ⊢
    cases hi : exec i s with
    | next w => rw [hi] at h; exact ih h
    | fault f => rw [hi] at h; simp at h
    | refused r => rw [hi] at h; simp at h

end Sys2Proof.Machine
end

