-- ==== Sys2Proof/Laws/Noise.lean ====
section
/-! SUPPORT. The frame of the noise generator's operations and of CLOCK on one oscillator. -/

namespace Sys2Proof.Machine

variable {S N : Type} (cfg : Cfg S N) (m : ChipModel) (o : OscOf S)

/-- The cache after a recompute, and nothing else, depends on the register (R146). -/
theorem noiseRecompute_eq : noiseRecompute cfg m o = { o with
    cachedNoiseSample := noiseWord cfg.noiseTaps o.noiseShiftRegister
    cachedNoiseVoltage :=
      noiseDac cfg.toAnalog m o.zeroLevelVoltage (noiseWord cfg.noiseTaps o.noiseShiftRegister) } := rfl

/-- The bits of the shifted register (R141, R142). -/
theorem noiseShift_bit (r : NoiseReg) (i : Nat) (hi : i < 23) : (noiseShift r).getLsbD i =
    if i = 0 then r.getLsbD 22 != r.getLsbD 17 else r.getLsbD (i - 1) := by
  unfold noiseShift noiseFeedback
  simp only [BitVec.getLsbD_or, BitVec.getLsbD_shiftLeft, hi]
  by_cases h : i = 0
  · subst h; cases r.getLsbD 22 <;> cases r.getLsbD 17 <;> simp
  · simp [h, show ¬ i < 1 by omega]; split_ifs <;> simp [BitVec.getLsbD_one, h]

@[simp] theorem noiseStep_register : (noiseStep cfg m o).noiseShiftRegister =
    noiseClear cfg.noiseTaps o.waveformSelect (noiseShift o.noiseShiftRegister) := rfl

@[simp] theorem noiseForce_register : (noiseForce cfg m o).noiseShiftRegister =
    forcedRegister cfg.toCfgDigital o.waveformSelect o.noiseShiftRegister := rfl

@[simp] theorem advanceOsc_register : (advanceOsc o).noiseShiftRegister = o.noiseShiftRegister := rfl

/-- A predicate that does not look at the noise generator's fields, the accumulator, `msbRising` and the countdown
does not see CLOCK. -/
theorem clockOsc_frame : ∃ acc reg word volt msb delay, clockOsc cfg m o = { o with
    accumulator := acc, noiseShiftRegister := reg, cachedNoiseSample := word, cachedNoiseVoltage := volt
    msbRising := msb, noiseOverwriteDelay := delay } := by
  unfold clockOsc clockHeld clockRunning countDown
  split_ifs
  · split
    · exact ⟨o.accumulator, o.noiseShiftRegister, o.cachedNoiseSample, o.cachedNoiseVoltage, _,
        o.noiseOverwriteDelay, rfl⟩
    · exact ⟨o.accumulator, _, _, _, _, 0, rfl⟩
    · exact ⟨o.accumulator, o.noiseShiftRegister, o.cachedNoiseSample, o.cachedNoiseVoltage, _, _, rfl⟩
  · exact ⟨_, _, _, _, _, o.noiseOverwriteDelay, rfl⟩
  · exact ⟨_, o.noiseShiftRegister, o.cachedNoiseSample, o.cachedNoiseVoltage, _, o.noiseOverwriteDelay, rfl⟩

@[simp] theorem clockOsc_frequency : (clockOsc cfg m o).frequency = o.frequency := by
  obtain ⟨_, _, _, _, _, _, h⟩ := clockOsc_frame cfg m o; rw [h]

@[simp] theorem clockOsc_pulseWidth : (clockOsc cfg m o).pulseWidth = o.pulseWidth := by
  obtain ⟨_, _, _, _, _, _, h⟩ := clockOsc_frame cfg m o; rw [h]

@[simp] theorem clockOsc_waveformSelect : (clockOsc cfg m o).waveformSelect = o.waveformSelect := by
  obtain ⟨_, _, _, _, _, _, h⟩ := clockOsc_frame cfg m o; rw [h]

@[simp] theorem clockOsc_testHeld : (clockOsc cfg m o).testHeld = o.testHeld := by
  obtain ⟨_, _, _, _, _, _, h⟩ := clockOsc_frame cfg m o; rw [h]

@[simp] theorem clockOsc_ringModEnabled : (clockOsc cfg m o).ringModEnabled = o.ringModEnabled := by
  obtain ⟨_, _, _, _, _, _, h⟩ := clockOsc_frame cfg m o; rw [h]

@[simp] theorem clockOsc_syncEnabled : (clockOsc cfg m o).syncEnabled = o.syncEnabled := by
  obtain ⟨_, _, _, _, _, _, h⟩ := clockOsc_frame cfg m o; rw [h]

@[simp] theorem clockOsc_previousOutputVoltage :
    (clockOsc cfg m o).previousOutputVoltage = o.previousOutputVoltage := by
  obtain ⟨_, _, _, _, _, _, h⟩ := clockOsc_frame cfg m o; rw [h]

@[simp] theorem clockOsc_zeroLevelVoltage : (clockOsc cfg m o).zeroLevelVoltage = o.zeroLevelVoltage := by
  obtain ⟨_, _, _, _, _, _, h⟩ := clockOsc_frame cfg m o; rw [h]

end Sys2Proof.Machine
end

