-- ==== Sys2Proof/Laws/Cycle.lean ====
section
/-! SUPPORT. The three passes of a cycle: what each voice's part and each whole pass leave in every field. -/

namespace Sys2Proof.Machine

section Voice
variable {S N : Type} (cfg : Cfg S N) (s : StateOf S N) (v : Nat)

@[simp] theorem clockVoice_model : (clockVoice cfg s v).model = s.model := rfl
@[simp] theorem clockVoice_nl : (clockVoice cfg s v).nl = s.nl := rfl
@[simp] theorem clockVoice_seq : (clockVoice cfg s v).seq = s.seq := rfl
@[simp] theorem clockVoice_hasReset : (clockVoice cfg s v).hasReset = s.hasReset := rfl
@[simp] theorem clockVoice_inputs : (clockVoice cfg s v).inputs = s.inputs := rfl
@[simp] theorem clockVoice_results : (clockVoice cfg s v).results = s.results := rfl
@[simp] theorem clockVoice_length : (clockVoice cfg s v).oscs.length = s.oscs.length := modifyOsc_length ..

/-- The condition of R161. -/
theorem syncResets_iff (o dest source : OscOf S) : syncResets o dest source = true ↔
    o.msbRising = true ∧ dest.syncEnabled = true ∧ ¬ (o.syncEnabled = true ∧ source.msbRising = true) := by
  cases h1 : o.msbRising <;> cases h2 : dest.syncEnabled <;> cases h3 : o.syncEnabled <;>
    cases h4 : source.msbRising <;> simp [syncResets, h1, h2, h3, h4]

/-- SYNCHRONIZE changes the record of the destination, or nothing. -/
theorem syncVoice_eq : syncVoice cfg s v = s.modifyOsc (dstOf cfg.toCfgDigital v)
    (if syncResets (readOsc cfg s v) (readOsc cfg s (dstOf cfg.toCfgDigital v))
        (readOsc cfg s (srcOf cfg.toCfgDigital v))
      then clearAccumulator else id) := by
  unfold syncVoice
  split_ifs
  · rfl
  · simp [StateOf.modifyOsc]

@[simp] theorem syncVoice_model : (syncVoice cfg s v).model = s.model := by simp [syncVoice_eq]
@[simp] theorem syncVoice_nl : (syncVoice cfg s v).nl = s.nl := by simp [syncVoice_eq]
@[simp] theorem syncVoice_seq : (syncVoice cfg s v).seq = s.seq := by simp [syncVoice_eq]
@[simp] theorem syncVoice_hasReset : (syncVoice cfg s v).hasReset = s.hasReset := by simp [syncVoice_eq]
@[simp] theorem syncVoice_inputs : (syncVoice cfg s v).inputs = s.inputs := by simp [syncVoice_eq]
@[simp] theorem syncVoice_results : (syncVoice cfg s v).results = s.results := by simp [syncVoice_eq]
@[simp] theorem syncVoice_length : (syncVoice cfg s v).oscs.length = s.oscs.length := by simp [syncVoice_eq]

@[simp] theorem outputVoice_model : (outputVoice cfg s v).model = s.model := rfl
@[simp] theorem outputVoice_nl : (outputVoice cfg s v).nl = s.nl := rfl
@[simp] theorem outputVoice_seq : (outputVoice cfg s v).seq = s.seq := rfl
@[simp] theorem outputVoice_hasReset : (outputVoice cfg s v).hasReset = s.hasReset := rfl
@[simp] theorem outputVoice_inputs : (outputVoice cfg s v).inputs = s.inputs := rfl
@[simp] theorem outputVoice_results :
    (outputVoice cfg s v).results = s.results ++ [.sample v (outOf cfg s v)] := rfl
@[simp] theorem outputVoice_length : (outputVoice cfg s v).oscs.length = s.oscs.length := modifyOsc_length ..

/-- SYNCHRONIZE leaves every field that any SYNCHRONIZE reads. -/
theorem syncVoice_osc (u : Nat) :
    ∃ acc, readOsc cfg (syncVoice cfg s v) u = { readOsc cfg s u with accumulator := acc } := by
  rw [syncVoice_eq, readOsc_modifyOsc]
  split_ifs
  · exact ⟨0#24, rfl⟩
  · exact ⟨_, rfl⟩
  · exact ⟨_, rfl⟩

/-- OUTPUT changes the hold latches only. -/
theorem outputVoice_osc (u : Nat) :
    ∃ y, readOsc cfg (outputVoice cfg s v) u = { readOsc cfg s u with previousOutputVoltage := y } := by
  change ∃ y, readOsc cfg (s.modifyOsc v _) u = _
  rw [readOsc_modifyOsc]
  split_ifs
  · exact ⟨_, rfl⟩
  · exact ⟨_, rfl⟩

/-- `Out(v)` for code 0 (R177). -/
theorem outOf_hold (h : (readOsc cfg s v).waveformSelect.toNat = 0) :
    outOf cfg s v = (readOsc cfg s v).previousOutputVoltage := by
  simp [outOf, outSample, h]

/-- `Out(v)` for codes 1 to 7 (R179 to R183). -/
theorem outOf_table (h1 : 1 ≤ (readOsc cfg s v).waveformSelect.toNat)
    (h7 : (readOsc cfg s v).waveformSelect.toNat ≤ 7) :
    outOf cfg s v = waveOut cfg.toAnalog s.model s.nl (readOsc cfg s v) (readOsc cfg s (srcOf cfg.toCfgDigital v)) := by
  unfold outOf outSample
  generalize (readOsc cfg s v).waveformSelect.toNat = c at *
  rcases c with _|_|_|_|_|_|_|_|c <;> first | omega | rfl

/-- `Out(v)` for code 8 (R178). -/
theorem outOf_noise (h : (readOsc cfg s v).waveformSelect.toNat = 8) :
    outOf cfg s v = (readOsc cfg s v).cachedNoiseVoltage := by
  simp [outOf, outSample, h]

/-- `Out(v)` for codes 9 to 15 (R186). -/
theorem outOf_collapsed (h : 9 ≤ (readOsc cfg s v).waveformSelect.toNat) :
    outOf cfg s v = (readOsc cfg s v).zeroLevelVoltage := by
  unfold outOf outSample
  split <;> first | omega | rfl

/-- An OUTPUT of another oscillator does not change what OUTPUT `u` returns. -/
theorem outOf_outputVoice (u : Nat) (h : v ≠ u) : outOf cfg (outputVoice cfg s v) u = outOf cfg s u := by
  have h1 : readOsc cfg (outputVoice cfg s v) u = readOsc cfg s u := readOsc_modifyOsc_of_ne _ _ _ _ _ h
  obtain ⟨y, hy⟩ := outputVoice_osc cfg s v (srcOf cfg.toCfgDigital u)
  have h2 : ∀ o, romIndex o (readOsc cfg (outputVoice cfg s v) (srcOf cfg.toCfgDigital u)) =
      romIndex o (readOsc cfg s (srcOf cfg.toCfgDigital u)) := by
    intro o; rw [hy]; rfl
  unfold outOf outSample
  rw [h1]
  simp only [waveOut, outputVoice_model, outputVoice_nl, h2]

end Voice

/-- What a pass keeps: everything but the oscillators and the results. -/
structure SameShared {S N : Type} (s t : StateOf S N) : Prop where
  model : t.model = s.model
  nl : t.nl = s.nl
  seq : t.seq = s.seq
  hasReset : t.hasReset = s.hasReset
  inputs : t.inputs = s.inputs
  length : t.oscs.length = s.oscs.length

section Passes
variable {S N : Type} (cfg : Cfg S N)

theorem SameShared.trans {s t u : StateOf S N} (h : SameShared s t) (k : SameShared t u) : SameShared s u :=
  ⟨k.model.trans h.model, k.nl.trans h.nl, k.seq.trans h.seq, k.hasReset.trans h.hasReset,
    k.inputs.trans h.inputs, k.length.trans h.length⟩

theorem clockVoice_shared (s : StateOf S N) (v : Nat) : SameShared s (clockVoice cfg s v) := by
  constructor <;> simp

theorem syncVoice_shared (s : StateOf S N) (v : Nat) : SameShared s (syncVoice cfg s v) := by
  constructor <;> simp

theorem outputVoice_shared (s : StateOf S N) (v : Nat) : SameShared s (outputVoice cfg s v) := by
  constructor <;> simp

theorem foldl_shared {f : StateOf S N → Nat → StateOf S N} (hf : ∀ s v, SameShared s (f s v)) (l : List Nat)
    (s : StateOf S N) : SameShared s (l.foldl f s) := by
  induction l generalizing s with
  | nil => exact ⟨rfl, rfl, rfl, rfl, rfl, rfl⟩
  | cons v l ih => exact (hf s v).trans (ih _)

theorem clockPass_shared (s : StateOf S N) : SameShared s (passOver cfg.nvoices (clockVoice cfg) s) :=
  foldl_shared (clockVoice_shared cfg) ..

theorem syncPass_shared (s : StateOf S N) : SameShared s (passOver cfg.nvoices (syncVoice cfg) s) :=
  foldl_shared (syncVoice_shared cfg) ..

theorem outputPass_shared (s : StateOf S N) : SameShared s (passOver cfg.nvoices (outputVoice cfg) s) :=
  foldl_shared (outputVoice_shared cfg) ..

theorem cycleState_shared (s : StateOf S N) : SameShared s (cycleState cfg s) :=
  ((clockPass_shared cfg s).trans (syncPass_shared cfg _)).trans (outputPass_shared cfg _)

/-! ### The clock pass -/

theorem clockFold_getElem? (l : List Nat) (hl : l.Nodup) (s : StateOf S N) (u : Nat) :
    (l.foldl (clockVoice cfg) s).oscs[u]? =
      s.oscs[u]?.map (fun o => if u ∈ l then clockOsc cfg s.model o else o) := by
  induction l generalizing s with
  | nil => simp
  | cons v l ih =>
    obtain ⟨hv, hl⟩ := List.nodup_cons.mp hl
    rw [List.foldl_cons, ih hl]
    simp only [clockVoice, modifyOsc_getElem?, Option.map_map, modifyOsc_model]
    congr 1
    funext o
    by_cases huv : v = u
    · subst huv; simp [hv]
    · simp [huv, Ne.symm huv]

theorem clockFold_results (l : List Nat) (s : StateOf S N) : (l.foldl (clockVoice cfg) s).results = s.results := by
  induction l generalizing s with
  | nil => rfl
  | cons v l ih => rw [List.foldl_cons, ih]; simp

theorem clockPass_getElem? (s : StateOf S N) {u : Nat} (hu : u < cfg.nvoices) :
    (passOver cfg.nvoices (clockVoice cfg) s).oscs[u]? = s.oscs[u]?.map (clockOsc cfg s.model) := by
  rw [passOver, clockFold_getElem? _ _ List.nodup_range]
  simp [hu]

/-! ### The sync pass -/

/-- The sync pass only clears accumulators. -/
theorem syncFold_getElem? (l : List Nat) (s : StateOf S N) (u : Nat) (o : OscOf S) (h : s.oscs[u]? = some o) :
    ∃ acc, (l.foldl (syncVoice cfg) s).oscs[u]? = some { o with accumulator := acc } := by
  induction l generalizing s o with
  | nil => exact ⟨o.accumulator, h⟩
  | cons v l ih =>
    have hv : ∃ acc, (syncVoice cfg s v).oscs[u]? = some { o with accumulator := acc } := by
      rw [syncVoice_eq, modifyOsc_getElem?, h]
      split_ifs
      · exact ⟨0#24, rfl⟩
      · exact ⟨o.accumulator, rfl⟩
      · exact ⟨o.accumulator, rfl⟩
    obtain ⟨acc, hacc⟩ := hv
    obtain ⟨acc', hacc'⟩ := ih _ _ hacc
    exact ⟨acc', hacc'⟩

theorem syncFold_results (l : List Nat) (s : StateOf S N) : (l.foldl (syncVoice cfg) s).results = s.results := by
  induction l generalizing s with
  | nil => rfl
  | cons v l ih => rw [List.foldl_cons, ih]; simp

/-! ### The output pass -/

/-- The output pass only latches samples. -/
theorem outputFold_getElem? (l : List Nat) (s : StateOf S N) (u : Nat) (o : OscOf S) (h : s.oscs[u]? = some o) :
    ∃ y, (l.foldl (outputVoice cfg) s).oscs[u]? = some { o with previousOutputVoltage := y } := by
  induction l generalizing s o with
  | nil => exact ⟨o.previousOutputVoltage, h⟩
  | cons v l ih =>
    have hv : ∃ y, (outputVoice cfg s v).oscs[u]? = some { o with previousOutputVoltage := y } := by
      simp only [outputVoice, yieldResult_oscs, modifyOsc_getElem?, h, Option.map_some, latch]
      split_ifs
      · exact ⟨_, rfl⟩
      · exact ⟨o.previousOutputVoltage, rfl⟩
    obtain ⟨y, hy⟩ := hv
    obtain ⟨y', hy'⟩ := ih _ _ hy
    exact ⟨y', hy'⟩

end Passes

end Sys2Proof.Machine
end

