-- ==== Sys2Proof/Laws/PerInstr.lean ====
section
/-! SUPPORT. Statements about every operation as syntax, one lemma per operation. -/

namespace Sys2Proof.Laws.EncodedWord

/-- The encoding of an operation is three bytes, and its word has at most 20 bits (R80, log 4). -/
def Statement (i : Instr) : Prop := (encode i).bytes.length = 3 ∧ (encodeWord i).toNat < 2 ^ 20

/-- The word is its digits (R80). -/
theorem packWord_toNat (k v s : Nibble) (d : Byte) :
    (packWord k v s d).toNat = k.toNat * 0x10000 + v.toNat * 0x1000 + s.toNat * 0x100 + d.toNat := by
  have := k.isLt; have := v.isLt; have := s.isLt; have := d.isLt
  simp only [packWord, BitVec.toNat_append]
  rw [← Nat.shiftLeft_add_eq_or_of_lt (by omega) _, ← Nat.shiftLeft_add_eq_or_of_lt (by omega) _,
    ← Nat.shiftLeft_add_eq_or_of_lt (by omega) _, ← Nat.shiftLeft_add_eq_or_of_lt (by omega) _]
  simp [Nat.shiftLeft_eq]
  omega

/-- A packed word has at most 20 bits. -/
theorem packWord_lt (k v s : Nibble) (d : Byte) : (packWord k v s d).toNat < 2 ^ 20 := by
  have := k.isLt; have := v.isLt; have := s.isLt; have := d.isLt
  rw [packWord_toNat]
  omega

theorem wrFreqLo (v : Nat) (d : Byte) : Statement (.wrFreqLo v d) := ⟨rfl, packWord_lt ..⟩
theorem wrFreqHi (v : Nat) (d : Byte) : Statement (.wrFreqHi v d) := ⟨rfl, packWord_lt ..⟩
theorem wrPwLo (v : Nat) (d : Byte) : Statement (.wrPwLo v d) := ⟨rfl, packWord_lt ..⟩
theorem wrPwHi (v : Nat) (d : Byte) : Statement (.wrPwHi v d) := ⟨rfl, packWord_lt ..⟩
theorem wrControl (v : Nat) (d : Byte) : Statement (.wrControl v d) := ⟨rfl, packWord_lt ..⟩
theorem wrOther (v : Nat) (sel : Nibble) (d : Byte) : Statement (.wrOther v sel d) := ⟨rfl, packWord_lt ..⟩
theorem rdOsc (v : Nat) : Statement (.rdOsc v) := ⟨rfl, packWord_lt ..⟩
theorem clock (v : Nat) : Statement (.clock v) := ⟨rfl, packWord_lt ..⟩
theorem synchronize (v : Nat) : Statement (.synchronize v) := ⟨rfl, packWord_lt ..⟩
theorem output (v : Nat) : Statement (.output v) := ⟨rfl, packWord_lt ..⟩
theorem cycle : Statement .cycle := ⟨rfl, packWord_lt ..⟩
theorem reset : Statement .reset := ⟨rfl, packWord_lt ..⟩
theorem config (m : ChipModel) (nl : NL) : Statement (.config m nl) := ⟨rfl, packWord_lt ..⟩

end Sys2Proof.Laws.EncodedWord
end

