-- ==== Sys2Proof/Tests/Slice0.lean ====
section
/-! SUPPORT. Tests: ill-formed terms, words of V-DEC, one step per operation from the vectors of spec/95_test_vectors.md,
and for every obligation with hypotheses a concrete state and operands that meet them. -/

namespace Sys2Proof.Tests

open Sys2Proof Sys2Proof.Machine

/-! ### A small machine -/

/-- `n` oscillators in the default ring, `CFG_LINEAR`, and a short countdown, as program P4 has it. -/
def smallCfg (n : Nat) : CfgData :=
  { defaultCfg with
    nvoices := n, src := ringSrc n, dst := ringDst n, noiseOverwriteDelay := 3, prevReset := 7, rest := .linear }

/-- The oscillator after RESET, by the values of V-RST in `CFG_LINEAR`. -/
def freshOsc : Osc :=
  { blankOsc (0 : Sample) with
    noiseShiftRegister := 0x7FFFFC#23, cachedNoiseSample := 0xFF0#12, cachedNoiseVoltage := 4080
    previousOutputVoltage := 7 }

/-- A state with these oscillators and this sequencer. -/
def smallState (oscs : List Osc) (q : Sequencer) : State where
  cfg := smallCfg oscs.length
  oscs := oscs
  model := .model0
  nl := 0
  seq := q
  hasReset := true
  inputs := []
  results := []

/-- Three oscillators, the first one given. -/
def threeWith (o : Osc) (q : Sequencer) : State := smallState [o, freshOsc, freshOsc] q

/-- A field of oscillator `v` after an operation that completes. -/
def fieldAfter {α : Type} (i : Instr) (s : State) (v : Nat) (f : Osc → α) : Option α :=
  match exec i s with
  | .next t => some (f (t.osc v))
  | .fault _ => none
  | .refused _ => none

/-- A part of the state after an operation that completes. -/
def partAfter {α : Type} (i : Instr) (s : State) (f : State → α) : Option α :=
  match exec i s with
  | .next t => some (f t)
  | .fault _ => none
  | .refused _ => none

/-! ### Ill-formed operations and configurations -/

theorem test_wf_ok : (Instr.wrOther 2 5#4 0xFF#8 : Instr).wf 3 = true := by decide
theorem test_illformed_wrFreqLo : (Instr.wrFreqLo 3 0#8 : Instr).wf 3 = false := by decide
theorem test_illformed_wrFreqHi : (Instr.wrFreqHi 16 0#8 : Instr).wf 20 = false := by decide
theorem test_illformed_wrPwLo : (Instr.wrPwLo 3 0#8 : Instr).wf 3 = false := by decide
theorem test_illformed_wrPwHi : (Instr.wrPwHi 3 0#8 : Instr).wf 3 = false := by decide
theorem test_illformed_wrControl : (Instr.wrControl 3 0#8 : Instr).wf 3 = false := by decide
theorem test_illformed_wrOther_voice : (Instr.wrOther 3 5#4 0#8 : Instr).wf 3 = false := by decide
theorem test_illformed_wrOther_select : (Instr.wrOther 0 4#4 0#8 : Instr).wf 3 = false := by decide
theorem test_illformed_rdOsc : (Instr.rdOsc 3 : Instr).wf 3 = false := by decide
theorem test_illformed_clock : (Instr.clock 3 : Instr).wf 3 = false := by decide
theorem test_illformed_synchronize : (Instr.synchronize 3 : Instr).wf 3 = false := by decide
theorem test_illformed_output : (Instr.output 3 : Instr).wf 3 = false := by decide
theorem test_cfg_ok : cfgWf defaultCfg.toCfgDigital = true := by decide
theorem test_illformed_cfg : [
    cfgWf { defaultCfg.toCfgDigital with nvoices := 0, src := [], dst := [] },
    cfgWf { defaultCfg.toCfgDigital with src := [0, 1] }, cfgWf { defaultCfg.toCfgDigital with src := [0, 1, 3] },
    cfgWf { defaultCfg.toCfgDigital with dst := [0, 1] }, cfgWf { defaultCfg.toCfgDigital with dst := [3, 1, 0] },
    cfgWf { defaultCfg.toCfgDigital with noiseTaps := [(22, 11)] },
    cfgWf { defaultCfg.toCfgDigital with noiseTaps := (22, 0) :: defaultTaps.dropLast },
    cfgWf { defaultCfg.toCfgDigital with noiseTaps := (0, 10) :: defaultTaps.dropLast },
    cfgWf { defaultCfg.toCfgDigital with testForceMask := 0#23 },
    cfgWf { defaultCfg.toCfgDigital with noiseOverwriteDelay := 0 },
    cfgWf { defaultCfg.toCfgDigital with noiseReset := 0#23 },
    cfgWf { defaultCfg.toCfgDigital with testForceMask := 0x400000#23, forceAppliesClear := true }].all
      (· = false) = true := by decide

/-! ### Decoding: words written out from R80 and R81, bits `K V S DD`, as V-DEC lists them -/

theorem test_decode_wrFreqLo : decodeTableWord 24 0b00010000000000000000 = some (.wrFreqLo 0 0x00#8) := by decide
theorem test_decode_wrFreqHi : decodeTableWord 24 0b00010010000111111111 = some (.wrFreqHi 2 0xFF#8) := by decide
theorem test_decode_wrPwLo : decodeTableWord 24 0b00010001001000110100 = some (.wrPwLo 1 0x34#8) := by decide
theorem test_decode_wrPwHi : decodeTableWord 24 0b00010000001111111000 = some (.wrPwHi 0 0xF8#8) := by decide
theorem test_decode_wrControl : decodeTableWord 24 0b00010000010001001000 = some (.wrControl 0 0x48#8) := by decide
theorem test_decode_wrOther : decodeTableWord 24 0b00010000010111111111 = some (.wrOther 0 5#4 0xFF#8) ∧
    decodeTableWord 24 0b00010010111100000000 = some (.wrOther 2 15#4 0x00#8) := by decide
theorem test_decode_rdOsc : decodeTableWord 24 0b00100010011100000000 = some (.rdOsc 2) := by decide
theorem test_decode_clock : decodeTableWord 24 0b00110001000000000000 = some (.clock 1) := by decide
theorem test_decode_synchronize : decodeTableWord 24 0b01000010000000000000 = some (.synchronize 2) := by decide
theorem test_decode_output : decodeTableWord 24 0b01010000000000000000 = some (.output 0) := by decide
theorem test_decode_cycle : decodeTableWord 24 0b01100000000000000000 = some .cycle := by decide
theorem test_decode_reset : decodeTableWord 24 0b01110000000000000000 = some .reset := by decide
theorem test_decode_config : decodeTableWord 24 0b10000000000000000000 = some (.config .model0 0) ∧
    decodeTableWord 24 0b10000000000100000000 = some (.config .model1 0) := by decide

/-- The invalid words of V-DEC. -/
theorem test_decode_invalid : [0x00000, 0x90000, 0xF0000, 0x13000, 0x20000, 0x20701, 0x30100, 0x30001, 0x61000, 0x60001,
    0x71000, 0x80200, 0x80001, 0x81000, 0x160000].all (fun w => (decodeTableWord 24 w).isNone) = true := by decide

/-- A word that has not three bytes is rejected by name. -/
theorem test_decode_length : decode 3 ⟨[0x00#8, 0x00#8], 0⟩ = .error .badLength := by decide

/-- The same with the row's 20 bits and no padding. -/
theorem test_decode_twenty_bits : decodeTableWord 20 0x12F00 = some (.wrOther 2 15#4 0x00#8) := by decide

/-- The next step runs the word placed by `withFetchWord`. -/
theorem test_withFetchWord : (match step (State.reset.withFetchWord 24 0x10110) with
    | .next t => some (t.osc 0).frequency
    | .fault _ => none
    | .refused _ => none) = some 0x1000#16 := by decide

theorem test_step_refuses : (match step (State.reset.withFetchWord 24 0x20000) with
    | .refused r => some r
    | .next _ => none
    | .fault _ => none) = some .noSuchPort := by decide

/-! ### One step per operation: V-REG -/

theorem test_wrFreqLo : fieldAfter (.wrFreqLo 0 0xCD#8) (threeWith { freshOsc with frequency := 0x1234#16 } .idle) 0
    OscOf.frequency = some 0x12CD#16 := by decide
theorem test_wrFreqHi : fieldAfter (.wrFreqHi 0 0xAB#8) (threeWith { freshOsc with frequency := 0x12CD#16 } .idle) 0
    OscOf.frequency = some 0xABCD#16 := by decide
theorem test_wrPwLo : fieldAfter (.wrPwLo 0 0x34#8) (threeWith { freshOsc with pulseWidth := 0x800#12 } .idle) 0
    OscOf.pulseWidth = some 0x834#12 := by decide
theorem test_wrPwHi : fieldAfter (.wrPwHi 0 0xF8#8) (threeWith { freshOsc with pulseWidth := 0x034#12 } .idle) 0
    OscOf.pulseWidth = some 0x834#12 := by decide
theorem test_wrControl_rise : fieldAfter (.wrControl 0 0x48#8) (threeWith freshOsc .idle) 0
    (fun o => (o.waveformSelect, o.testHeld, o.ringModEnabled, o.syncEnabled, o.noiseOverwriteDelay)) =
      some (4#4, true, false, false, 3) := by decide
theorem test_wrControl_no_reload : fieldAfter (.wrControl 0 0xF7#8)
    (threeWith { freshOsc with testHeld := true, noiseOverwriteDelay := 2 } .idle) 0
    (fun o => (o.waveformSelect, o.testHeld, o.ringModEnabled, o.syncEnabled, o.noiseOverwriteDelay)) =
      some (15#4, false, true, true, 2) := by decide
theorem test_wrOther : partAfter (.wrOther 0 5#4 0xFF#8) (threeWith freshOsc .idle) (·.oscs) =
    some [freshOsc, freshOsc, freshOsc] := by decide
theorem test_rdOsc : partAfter (.rdOsc 0) (threeWith { freshOsc with accumulator := 0xABCDEF#24 } .idle) (·.results) =
    some [.osc 0 0xAB#8] := by decide

/-! ### V-CLK and V-NOISE -/

/-- Rows 2 and 4 of V-CLK: the edge of bit 23, and the wrap. -/
theorem test_clock_edges :
    fieldAfter (.clock 0)
      (threeWith { freshOsc with accumulator := 0x7FF000#24, frequency := 0x1000#16 } .idle) 0
      (fun o => (o.accumulator, o.msbRising, o.noiseShiftRegister)) = some (0x800000#24, true, 0x7FFFFC#23) ∧
    fieldAfter (.clock 0)
      (threeWith { freshOsc with accumulator := 0xFFFFFF#24, frequency := 0x0001#16 } .idle) 0
      (fun o => (o.accumulator, o.msbRising)) = some (0x000000#24, false) := by decide

/-- Row 6 of V-CLK with the first step of the sequence of V-NOISE, for codes 8 and 9. -/
theorem test_clock_noise :
    fieldAfter (.clock 0)
      (threeWith { freshOsc with accumulator := 0x07FFFF#24, frequency := 1#16, waveformSelect := 8#4 } .idle) 0
      (fun o => (o.noiseShiftRegister, o.cachedNoiseSample)) = some (0x7FFFF8#23, 0xFE0#12) ∧
    fieldAfter (.clock 0)
      (threeWith { freshOsc with accumulator := 0x07FFFF#24, frequency := 1#16, waveformSelect := 9#4 } .idle) 0
      (fun o => (o.noiseShiftRegister, o.cachedNoiseSample)) = some (0x2ED768#23, 0x000#12) := by decide

/-- Rows 17 and 18 of V-CLK: the countdown, and the force of V-NOISE from the zero register. -/
theorem test_clock_force :
    fieldAfter (.clock 0)
      (threeWith { freshOsc with testHeld := true, noiseOverwriteDelay := 5, noiseShiftRegister := 0#23 } .idle) 0
      (fun o => (o.noiseOverwriteDelay, o.noiseShiftRegister)) = some (4, 0#23) ∧
    fieldAfter (.clock 0)
      (threeWith { freshOsc with testHeld := true, noiseOverwriteDelay := 1, noiseShiftRegister := 0#23 } .idle) 0
      (fun o => (o.noiseOverwriteDelay, o.noiseShiftRegister, o.cachedNoiseSample)) =
        some (0, 0x7FFFFC#23, 0xFF0#12) := by decide

/-- `NoiseDac` in `CFG_LINEAR` (V-NOISE). -/
theorem test_noiseDac : noiseDac (linearAnalog : Analog Int Unit) .model0 0 0xC00#12 = 3072 ∧
    noiseDac (linearAnalog : Analog Int Unit) .model0 0 0x810#12 = 2064 := by decide

/-! ### Sync: the cycle 256 of P2, and of P7 with its variant -/

/-- An oscillator whose top bit rose in this cycle. -/
def risen : Osc := { freshOsc with accumulator := 0x800000#24, msbRising := true }

theorem test_synchronize : fieldAfter (.synchronize 0)
    (smallState [risen, { freshOsc with accumulator := 0x030000#24, syncEnabled := true }, freshOsc]
      (.clocking [0, 1, 2])) 1 OscOf.accumulator = some 0#24 := by decide

theorem test_synchronize_excluded : fieldAfter (.synchronize 0)
    (smallState [{ risen with syncEnabled := true }, { risen with syncEnabled := true }] (.clocking [0, 1])) 1
    OscOf.accumulator = some 0x800000#24 := by decide

/-! ### Output: P5, P8 and the codes 0, 8, 9 -/

theorem test_output_pulse :
    partAfter (.output 0) (threeWith
      { freshOsc with accumulator := 0x7FF000#24, pulseWidth := 0x800#12, waveformSelect := 4#4 } (.syncing [0, 1, 2]))
      (·.results) = some [.sample 0 0] ∧
    partAfter (.output 0) (threeWith
      { freshOsc with accumulator := 0x800000#24, pulseWidth := 0x800#12, waveformSelect := 4#4 } (.syncing [0, 1, 2]))
      (·.results) = some [.sample 0 0xFFF] := by decide

theorem test_output_ring : partAfter (.output 1)
    (smallState [risen, { freshOsc with accumulator := 0x100000#24, waveformSelect := 1#4, ringModEnabled := true },
      freshOsc] (.syncing [0, 1, 2])) (·.results) = some [.sample 1 0xDFE] := by decide

/-! ### CYCLE, RESET, CONFIG: V-CYC, V-RST, V-TAB -/

/-- One CYCLE from the state after RESET returns the held sample of every oscillator (V-RST). -/
theorem test_cycle : partAfter .cycle (threeWith freshOsc .idle) (fun t => (t.seq, t.results)) =
    some (.idle, [.sample 0 7, .sample 1 7, .sample 2 7]) := by decide

/-- A run of one CYCLE is complete after it (R224). -/
theorem test_run_complete : ∃ t, step (State.reset.withFetchWord 24 0x60000) = .next t ∧ Complete t :=
  ⟨_, rfl, rfl, rfl⟩

/-- Row 12 of V-CYC. -/
theorem test_reset : partAfter .reset
    (threeWith { freshOsc with accumulator := 1#24, noiseShiftRegister := 0#23 } (.syncing [2]))
    (fun t => (t.seq, (t.osc 0).accumulator, (t.osc 0).noiseShiftRegister, (t.osc 0).cachedNoiseSample)) =
      some (.idle, 0#24, 0x7FFFFC#23, 0xFF0#12) := by decide

theorem test_config : partAfter (.config .model1 5) (threeWith freshOsc .idle)
    (fun t => (t.model, t.nl, (t.osc 2).zeroLevelVoltage, (t.osc 2).cachedNoiseSample)) =
      some (.model1, 5, 0, 0xFF0#12) := by decide

/-! ### Witnesses -/

theorem ready (o : Osc) : HostReady (threeWith o .idle) 0 o := ⟨rfl, rfl, Nat.zero_lt_succ 2, rfl⟩

theorem microReady (o : Osc) (q : Sequencer) : MicroReady (threeWith o q) 0 o := ⟨rfl, Nat.zero_lt_succ 2, rfl⟩

theorem full_three : ∀ u, u < 3 → u ∈ [0, 1, 2] := by decide

theorem full_two : ∀ u, u < 2 → u ∈ [0, 1] := by decide

theorem smallInv : Inv (threeWith freshOsc .idle) := ⟨by decide, rfl, rfl, by decide, by decide, by decide⟩

theorem witness_StepRunsTheDecodedOperation :
    (State.reset.withFetchWord 24 0x60000).inputs = opWordOfNat 24 0x60000 :: [] ∧
      decode State.reset.cfg.nvoices (opWordOfNat 24 0x60000) = .ok .cycle := by decide

/-- A word of each clause at the ends of its ranges, and words beside them. -/
theorem witness_DecoderAcceptsExactlyTheOperationWords :
    [0x10000, 0x12FFF, 0x20700, 0x22700, 0x30000, 0x52000, 0x60000, 0x70000, 0x80000, 0x80100].all
      (fun w => (decodeTableWord 24 w).isSome) = true ∧
    (State.reset.withFetchWord 24 0x100000).inputs = ⟨splitWord 0x100000#24, 0⟩ :: [] ∧
    ∀ i, decode State.reset.cfg.nvoices ⟨splitWord 0x100000#24, 0⟩ ≠ .ok i := by
  refine ⟨by decide, rfl, fun i h => ?_⟩
  have : decode State.reset.cfg.nvoices ⟨splitWord 0x100000#24, 0⟩ = .error .notTwentyBits := by decide
  rw [this] at h
  cases h

theorem witness_DecodeAfterEncodeIsTheOperation : (Instr.wrOther 15 5#4 0xFF#8 : Instr).wf 16 = true ∧
    (Instr.wrOther 0 15#4 0#8 : Instr).wf 1 = true ∧ (Instr.config .model1 (5 / 2) : Instr).wf 1 = true := by decide

theorem witness_EncodeAfterDecodeIsTheWord : decode 3 ⟨[0xF8#8, 0x03#8, 0x01#8], 0⟩ = .ok (.wrPwHi 0 0xF8#8) := by
  decide

/-- A word for each clause on the operands, with the fields at the ends of their ranges. -/
theorem witness_DecoderAgreesWithTheOpcodeTable :
    decode 16 ⟨splitWord (0#4 ++ 0x1F4FF#20), (0 : NL)⟩ = .ok (.wrControl 15 0xFF#8) ∧
    decode 16 ⟨splitWord (0#4 ++ 0x1F500#20), (0 : NL)⟩ = .ok (.wrOther 15 5#4 0#8) ∧
    decode 16 ⟨splitWord (0#4 ++ 0x3F000#20), (0 : NL)⟩ = .ok (.clock 15) ∧
    decode 16 ⟨splitWord (0#4 ++ 0x60000#20), (0 : NL)⟩ = .ok .cycle ∧
    decode 16 ⟨splitWord (0#4 ++ 0x80100#20), (7 : NL)⟩ = .ok (.config .model1 7) := by decide

theorem witness_ReadOfAnotherPortIsRefused : (6#4 : Nibble) ≠ 7#4 ∧
    (State.reset.withFetchWord 24 0x206FF).inputs = ⟨splitWord (packWord 2#4 0#4 6#4 0xFF#8), 0⟩ :: [] := by decide

theorem witness_WrFreqLoSetsTheLowByte : HostReady (threeWith freshOsc .idle) 0 freshOsc ∧ (0 : Nat) < 16 :=
  ⟨ready _, by decide⟩

theorem witness_WrFreqHiSetsTheHighByte : HostReady (threeWith freshOsc .idle) 0 freshOsc ∧ (0 : Nat) < 16 :=
  ⟨ready _, by decide⟩

theorem witness_WrPwLoSetsTheLowByte : HostReady (threeWith freshOsc .idle) 0 freshOsc ∧ (0 : Nat) < 16 :=
  ⟨ready _, by decide⟩

theorem witness_WrPwHiSetsTheHighBits : HostReady (threeWith freshOsc .idle) 0 freshOsc ∧ (0 : Nat) < 16 :=
  ⟨ready _, by decide⟩

theorem witness_WrControlSetsItsFields : HostReady (threeWith freshOsc .idle) 0 freshOsc ∧ (0 : Nat) < 16 :=
  ⟨ready _, by decide⟩

theorem witness_WrOtherChangesNothing : (threeWith freshOsc .idle).hasReset = true ∧
    (threeWith freshOsc .idle).seq = .idle ∧ 2 < (threeWith freshOsc .idle).cfg.nvoices ∧ 5 ≤ (5#4 : Nibble).toNat ∧
    5 ≤ (15#4 : Nibble).toNat := by decide

theorem witness_RdOscYieldsTheTopByte : HostReady (threeWith freshOsc .idle) 0 freshOsc ∧ (0 : Nat) < 16 :=
  ⟨ready _, by decide⟩

theorem witness_PseudoWritesSetWholeRegisters : HostReady (threeWith freshOsc .idle) 0 freshOsc := ready _

/-- A write of each port completes. -/
theorem witness_RegisterWritesAreIdempotent : ∀ sel : Nibble, ∃ t,
    exec (decodeWrite 0 sel 0x48#8) (threeWith freshOsc .idle) = .next t := by
  intro sel
  unfold decodeWrite
  split <;> try exact ⟨_, rfl⟩
  next h0 h1 h2 h3 h4 =>
    have h5 : 5 ≤ sel.toNat := by
      simp only [imp_false] at h0 h1 h2 h3 h4
      omega
    exact ⟨threeWith freshOsc .idle,
      exec_next_iff.mpr ⟨perform_wrOther_iff.mpr ⟨h5, Nat.zero_lt_succ 2, rfl, rfl, rfl⟩, rfl⟩⟩

theorem witness_HostOperationsOnlyInIdle :
    ((Instr.wrOther 0 9#4 0#8 : Instr) = decodeWrite 0 9#4 0#8) ∧ (threeWith freshOsc (.clocking [0])).seq ≠ .idle ∧
    (threeWith freshOsc (.clocking [0])).hasReset = true ∧ (Instr.wrOther 0 9#4 0#8 : Instr).wf 3 = true ∧
    ∃ t, exec (.config .model1 0) (threeWith freshOsc .idle) = .next t :=
  ⟨rfl, by decide, rfl, by decide, _, rfl⟩

/-- A state before the first RESET. -/
def beforeFirst : State := { threeWith freshOsc .idle with hasReset := false }

theorem witness_OnlyResetAndConfigBeforeTheFirstReset :
    beforeFirst.hasReset = false ∧ (Instr.cycle : Instr).wf 3 = true ∧
    (Instr.cycle : Instr) ≠ .reset ∧ (∀ m nl, (Instr.cycle : Instr) ≠ .config m nl) ∧ beforeFirst.seq = .idle :=
  ⟨rfl, rfl, by decide, by simp, rfl⟩

/-- Each clause of the sequencer's rule has a state: legal and not legal, the set full and not full. -/
theorem witness_SequencerTransitions :
    ClockLegal (threeWith freshOsc .idle) 0 ∧ ClockLegal (threeWith freshOsc (.clocking [1, 2])) 0 ∧
    ¬ ClockLegal (threeWith freshOsc (.clocking [0])) 0 ∧
    SyncLegal (threeWith freshOsc (.clocking [0, 1, 2])) 0 ∧ SyncLegal (threeWith freshOsc (.syncing [2])) 0 ∧
    ¬ SyncLegal (threeWith freshOsc (.clocking [1])) 0 ∧
    OutputLegal (threeWith freshOsc (.syncing [0, 1, 2])) 0 ∧ OutputLegal (threeWith freshOsc (.outputting [1, 2])) 0 ∧
    ¬ OutputLegal (threeWith freshOsc .idle) 0 ∧ (threeWith freshOsc .idle).hasReset = true ∧ 0 < 3 := by
  refine ⟨.inl rfl, .inr ⟨_, rfl, by decide⟩, ?_, .inl ⟨_, rfl, by decide⟩, .inr ⟨_, rfl, by decide⟩, ?_,
    .inl ⟨_, rfl, by decide⟩, .inr ⟨_, rfl, by decide⟩, ?_, rfl, by decide⟩
  · simp [ClockLegal, threeWith, smallState]
  · simp only [SyncLegal, threeWith, smallState, Sequencer.clocking.injEq, exists_eq_left', reduceCtorEq, false_and,
      exists_false, or_false]
    decide
  · simp [OutputLegal, threeWith, smallState]

theorem witness_LegalOperationsComplete :
    (Instr.clock 0 : Instr).wf (threeWith freshOsc .idle).cfg.nvoices = true ∧
      OpLegal (threeWith freshOsc .idle) (.clock 0) :=
  ⟨by decide, rfl, .inl rfl⟩

/-- Bit 19 does not rise, and rises with a code of at most 8 and above 8 (rows 2 and 6 of V-CLK). -/
theorem witness_ClockAdvancesThePhase :
    (∀ o, MicroReady (threeWith o .idle) 0 o) ∧ (∀ o, ClockLegal (threeWith o .idle) 0) ∧ freshOsc.testHeld = false ∧
    (0x800000 = (0x7FF000 + 0x1000) % 2 ^ 24 ∧ ¬ (0x7FF000 / 2 ^ 19 % 2 = 0 ∧ 0x800000 / 2 ^ 19 % 2 = 1)) ∧
    (0x080000 = (0x07FFFF + 1) % 2 ^ 24 ∧ 0x07FFFF / 2 ^ 19 % 2 = 0 ∧ 0x080000 / 2 ^ 19 % 2 = 1) ∧
    (∀ i, i < 23 → (0x2ED768#23 : NoiseReg).getLsbD i =
      if 8 < (9#4 : Nibble).toNat ∧ (∃ p ∈ defaultTaps, p.1.val = i) then false
      else if i = 0 then (0x7FFFFC#23 : NoiseReg).getLsbD 22 != (0x7FFFFC#23 : NoiseReg).getLsbD 17
      else (0x7FFFFC#23 : NoiseReg).getLsbD (i - 1)) ∧
    (∀ i, i < 23 → (0x7FFFF8#23 : NoiseReg).getLsbD i =
      if 8 < (8#4 : Nibble).toNat ∧ (∃ p ∈ defaultTaps, p.1.val = i) then false
      else if i = 0 then (0x7FFFFC#23 : NoiseReg).getLsbD 22 != (0x7FFFFC#23 : NoiseReg).getLsbD 17
      else (0x7FFFFC#23 : NoiseReg).getLsbD (i - 1)) :=
  ⟨fun o => microReady o _, fun _ => .inl rfl, rfl, by norm_num, by norm_num, by decide, by decide⟩

theorem witness_ClockUnderTestCountsDown :
    (∀ o, MicroReady (threeWith o .idle) 0 o) ∧ (∀ o, ClockLegal (threeWith o .idle) 0) ∧
    ({ freshOsc with testHeld := true } : Osc).testHeld = true ∧
    (∀ i, i < 23 → (0x7FFFFF#23 : NoiseReg).getLsbD i =
      if (smallCfg 3).forceAppliesClear = true ∧ 8 < (9#4 : Nibble).toNat ∧ (∃ p ∈ defaultTaps, p.1.val = i) then false
      else (0x000003#23 : NoiseReg).getLsbD i || (smallCfg 3).testForceMask.getLsbD i) ∧
    ((2 : Nat) ≠ 1 ∧ (0 : Nat) ≠ 1) :=
  ⟨fun o => microReady o _, fun _ => .inl rfl, rfl, by decide, by decide⟩

theorem witness_CombinedCodeClearsTheTaps :
    (∀ i, i < 23 → (0x7FFFFE#23 : NoiseReg).getLsbD i =
      if i = 0 then (0x7FFFFF#23 : NoiseReg).getLsbD 22 != (0x7FFFFF#23 : NoiseReg).getLsbD 17
      else (0x7FFFFF#23 : NoiseReg).getLsbD (i - 1)) ∧
    8 < (9#4 : Nibble).toNat ∧ (8#4 : Nibble).toNat ≤ 8 := by decide

theorem witness_ForcedRegisterIsNotZero :
    let cfg := { defaultCfg.toCfg with forceAppliesClear := true }
    cfg.testForceMask ≠ 0#23 ∧
      (cfg.forceAppliesClear = true → cfg.testForceMask &&& ~~~ noiseClearMask cfg.noiseTaps ≠ 0#23) := by decide

theorem witness_NoiseWordTakesTheTaps : (defaultTaps.map Prod.snd).Nodup ∧
    (3 < 12 ∧ ∀ p ∈ defaultTaps, p.2.val ≠ 3) := ⟨by decide, by decide, by simp [defaultTaps]⟩

theorem witness_NoiseDacAddsAscendingWeights :
    11 < 12 ∧ (0x810#12 : Word12).getLsbD 11 = true ∧ (∀ j, 11 < j → (0x810#12 : Word12).getLsbD j = false) ∧
    ∀ j, (0x010#12 : Word12).getLsbD j = ((0x810#12 : Word12).getLsbD j && decide (j ≠ 11)) := by
  refine ⟨by decide, by decide, fun j hj => BitVec.getLsbD_of_ge _ _ (by omega), fun j => ?_⟩
  by_cases hj : j < 12
  · have h : ∀ j, j < 12 →
        (0x010#12 : Word12).getLsbD j = ((0x810#12 : Word12).getLsbD j && decide (j ≠ 11)) := by decide
    exact h j hj
  · rw [BitVec.getLsbD_of_ge _ _ (by omega), BitVec.getLsbD_of_ge _ _ (by omega)]
    rfl

theorem witness_ZeroIsTheOnlyStuckNoiseRegister :
    ({ freshOsc with noiseShiftRegister := 0#23 } : Osc).noiseShiftRegister = 0#23 ∧
    ({ freshOsc with waveformSelect := 8#4 } : Osc).waveformSelect.toNat ≤ 8 ∧ freshOsc.noiseShiftRegister ≠ 0#23 := by
  decide

/-- A locked oscillator whose countdown is about to expire. -/
def locked : Osc := { freshOsc with testHeld := true, noiseOverwriteDelay := 1, noiseShiftRegister := 0#23 }

theorem witness_OnlyForceOrResetLeavesZero :
    ∃ t p, exec (.clock 0) (threeWith locked .idle) = .next t ∧ (threeWith locked .idle).oscs[0]? = some locked ∧
      t.oscs[0]? = some p ∧ locked.noiseShiftRegister = 0#23 ∧ p.noiseShiftRegister ≠ 0#23 :=
  ⟨_, _, rfl, rfl, rfl, rfl, by decide⟩

/-- The rule's condition met, and not met through the exclusion. -/
theorem witness_SynchronizeResetsTheDestination :
    (∀ o, MicroReady (threeWith o (.clocking [0, 1, 2])) 0 o ∧ SyncLegal (threeWith o (.clocking [0, 1, 2])) 0 ∧
      (threeWith o (.clocking [0, 1, 2])).oscs[2]? = some freshOsc ∧
      (threeWith o (.clocking [0, 1, 2])).oscs[1]? = some freshOsc) ∧
    (smallCfg 3).src[0]? = some 2 ∧ (smallCfg 3).dst[0]? = some 1 ∧
    (risen.msbRising = true ∧ ({ risen with syncEnabled := true } : Osc).syncEnabled = true ∧
      ¬ (risen.syncEnabled = true ∧ risen.msbRising = true)) ∧
    ¬ (freshOsc.msbRising = true ∧ freshOsc.syncEnabled = true ∧
      ¬ (freshOsc.syncEnabled = true ∧ freshOsc.msbRising = true)) :=
  ⟨fun o => ⟨microReady o _, .inl ⟨_, rfl, full_three⟩, rfl, rfl⟩, by decide, by decide, by decide, by decide⟩

theorem witness_SelfWiredNeverResets :
    MicroReady (smallState [risen] (.clocking [0])) 0 risen ∧ SyncLegal (smallState [risen] (.clocking [0])) 0 ∧
    (smallCfg 1).src[0]? = some 0 ∧ (smallCfg 1).dst[0]? = some 0 :=
  ⟨⟨rfl, by decide, rfl⟩, .inl ⟨_, rfl, by decide⟩, by decide, by decide⟩

/-- Program P7, and its variant, in cycle 256. -/
theorem witness_MutualSyncResetsNeither : ∀ b : Bool,
    let o : Osc := { risen with syncEnabled := b }
    let p : Osc := { risen with syncEnabled := true }
    let s := smallState [o, p] (.clocking [0, 1])
    (0 : Nat) ≠ 1 ∧ MicroReady s 0 o ∧ MicroReady s 1 p ∧ SyncLegal s 0 ∧ SyncLegal s 1 ∧
    s.cfg.src[0]? = some 1 ∧ s.cfg.dst[0]? = some 1 ∧ s.cfg.src[1]? = some 0 ∧ s.cfg.dst[1]? = some 0 ∧
    o.msbRising = true ∧ p.msbRising = true ∧ p.syncEnabled = true ∧ o.syncEnabled = b := by
  intro b
  have wires : (smallCfg 2).src[0]? = some 1 ∧ (smallCfg 2).dst[0]? = some 1 ∧ (smallCfg 2).src[1]? = some 0 ∧
      (smallCfg 2).dst[1]? = some 0 := by decide
  exact ⟨by decide, ⟨rfl, Nat.zero_lt_succ 1, rfl⟩, ⟨rfl, Nat.lt_succ_self 1, rfl⟩, .inl ⟨_, rfl, full_two⟩,
    .inl ⟨_, rfl, full_two⟩, wires.1, wires.2.1, wires.2.2.1, wires.2.2.2, rfl, rfl, rfl, rfl⟩

theorem witness_SyncOrderDoesNotMatter :
    (threeWith risen (.clocking [0, 1, 2])).hasReset = true ∧
    (threeWith risen (.clocking [0, 1, 2])).seq = .clocking [0, 1, 2] ∧ (∀ u, u < 3 → u ∈ [0, 1, 2]) ∧
    [2, 0, 1].Perm (List.range 3) := by decide

theorem witness_SyncPassPullForm :
    Inv (threeWith risen (.clocking [0, 1, 2])) ∧ (threeWith risen (.clocking [0, 1, 2])).hasReset = true ∧
    IsRing (smallCfg 3).toCfgDigital ∧ (threeWith risen (.clocking [0, 1, 2])).seq = .clocking [0, 1, 2] ∧
    (∀ u, u < 3 → u ∈ [0, 1, 2]) :=
  ⟨⟨by decide, rfl, by decide, by decide, by decide, by decide⟩, rfl, by unfold IsRing; decide, rfl, by decide⟩

theorem witness_OutputWithoutTable :
    (∀ o, MicroReady (threeWith o (.syncing [0, 1, 2])) 0 o ∧ OutputLegal (threeWith o (.syncing [0, 1, 2])) 0) ∧
    (0#4 : Nibble).toNat = 0 ∧ (8#4 : Nibble).toNat = 8 ∧ 9 ≤ (9#4 : Nibble).toNat ∧ 9 ≤ (15#4 : Nibble).toNat :=
  ⟨fun o => ⟨microReady o _, .inl ⟨_, rfl, full_three⟩⟩, by decide, by decide, by decide, by decide⟩

/-- The phase on both sides of the pulse width, and the flipped index (E6, P8). -/
theorem witness_OutputReadsTheTable :
    (∀ o, MicroReady (threeWith o (.syncing [0, 1, 2])) 0 o ∧ OutputLegal (threeWith o (.syncing [0, 1, 2])) 0 ∧
      (threeWith o (.syncing [0, 1, 2])).oscs[2]? = some freshOsc) ∧ (smallCfg 3).src[0]? = some 2 ∧
    1 ≤ (4#4 : Nibble).toNat ∧ (4#4 : Nibble).toNat ≤ 7 ∧
    0x7FF = (0x7FF000#24 : Accumulator).toNat / 0x1000 ∧ 0x800 = (0x800000#24 : Accumulator).toNat / 0x1000 ∧
    ¬ (0x800#12 : Word12).toNat ≤ 0x7FF ∧ (0x800#12 : Word12).toNat ≤ 0x800 ∧ 0x900 = (0x100 + 0x800) % 0x1000 :=
  ⟨fun o => ⟨microReady o _, .inl ⟨_, rfl, full_three⟩, rfl⟩, by decide, by decide, by decide, by decide, by decide,
    by decide, by decide, by decide⟩

theorem witness_OutputSeesOneBitOfTheSource :
    let s := smallState [freshOsc, freshOsc, freshOsc] (.syncing [0, 1, 2])
    let t := smallState [freshOsc, risen, { freshOsc with accumulator := 0x7FFFFF#24 }] (.syncing [0, 1, 2])
    s.cfg = t.cfg ∧ s.model = t.model ∧ s.nl = t.nl ∧ s.osc 0 = t.osc 0 ∧
    (s.osc (srcOf s.cfg.toCfgDigital 0)).accumulator.getLsbD 23 =
      (t.osc (srcOf t.cfg.toCfgDigital 0)).accumulator.getLsbD 23 ∧
    s.oscs.length = t.oscs.length ∧ (∃ s', exec (.output 0) s = .next s') ∧ ∃ t', exec (.output 0) t = .next t' :=
  ⟨rfl, rfl, rfl, rfl, by decide, rfl, ⟨_, rfl⟩, ⟨_, rfl⟩⟩

theorem witness_PagesAreTheEleven : 1 ≤ 4 ∧ 4 ≤ 7 ∧ pageNumber 4 true = 7 ∧ pageNumber 4 false = 3 ∧
    pageNumber 7 true = 10 ∧ pageNumber 1 true = 0 := by decide

theorem witness_CycleRunsTheThreePasses :
    Inv (threeWith freshOsc .idle) ∧ (threeWith freshOsc .idle).hasReset = true ∧
    (threeWith freshOsc .idle).seq = .idle ∧ Inv (threeWith freshOsc (.clocking [1])) ∧
    (threeWith freshOsc (.clocking [1])).seq ≠ .idle :=
  ⟨smallInv, rfl, rfl, ⟨by decide, rfl, by decide, by decide, by decide, by decide⟩, by decide⟩

theorem witness_CycleEqualsAnyOrderOfMicroOperations :
    Inv (threeWith freshOsc .idle) ∧ (threeWith freshOsc .idle).hasReset = true ∧
    (threeWith freshOsc .idle).seq = .idle ∧ [2, 0, 1].Perm (List.range 3) ∧ [1, 2, 0].Perm (List.range 3) ∧
    [2, 1, 0].Perm (List.range 3) :=
  ⟨smallInv, rfl, rfl, by decide, by decide, by decide⟩

theorem witness_ConfigSetsTheConfiguration :
    (threeWith freshOsc .idle).seq = .idle ∧ (threeWith freshOsc (.syncing [1])).seq ≠ .idle ∧
    Configured (threeWith freshOsc .idle) := ⟨rfl, by decide, by unfold Configured ConfiguredOf; decide⟩

theorem witness_ConfigTwiceIsConfigOnce : ∃ t, exec (.config .model1 5) (threeWith freshOsc .idle) = .next t :=
  ⟨_, rfl⟩

theorem witness_FieldsAreWrittenByTheirWriters :
    ∃ t p, exec (.wrFreqLo 0 1#8) (threeWith freshOsc .idle) = .next t ∧
      (threeWith freshOsc .idle).oscs[0]? = some freshOsc ∧ t.oscs[0]? = some p ∧ p.frequency ≠ freshOsc.frequency :=
  ⟨_, _, rfl, rfl, rfl, by decide⟩

theorem witness_SharedStateIsWrittenByItsWriters :
    ∃ t, exec (.rdOsc 0) (threeWith freshOsc .idle) = .next t ∧ t.results ≠ (threeWith freshOsc .idle).results :=
  ⟨_, rfl, by decide⟩

theorem witness_AccumulatorWrapsWithItsPeriod :
    let o : Osc := { freshOsc with frequency := 0x1000#16 }
    HostReady (threeWith o .idle) 0 o ∧ o.frequency = 0x1000#16 ∧ o.accumulator = 0#24 ∧ o.testHeld = false ∧
      o.syncEnabled = false := ⟨ready _, rfl, rfl, rfl, rfl⟩

theorem witness_CodeZeroHoldsTheSample :
    HostReady (threeWith freshOsc .idle) 0 freshOsc ∧ freshOsc.waveformSelect = 0#4 := ⟨ready _, rfl⟩

theorem witness_HoldingTestRecoversTheNoiseRegister :
    Inv (threeWith freshOsc .idle) ∧ HostReady (threeWith freshOsc .idle) 0 freshOsc ∧ freshOsc.testHeld = false ∧
    (0x88#8 : Byte).getLsbD 3 = true ∧ 0 < (smallCfg 3).noiseOverwriteDelay ∧ 2 < (smallCfg 3).noiseOverwriteDelay :=
  ⟨smallInv, ready _, rfl, by decide, by decide, by decide⟩

theorem witness_EveryStepKeepsTheMachineInvariant :
    Inv ((threeWith freshOsc .idle).withFetchWord 24 0x70000) ∧
      ∃ t, step ((threeWith freshOsc .idle).withFetchWord 24 0x70000) = .next t :=
  ⟨⟨by decide, rfl, rfl, by decide, by decide, by decide⟩, _, rfl⟩

theorem witness_NoiseCacheFollowsTheConfiguration :
    Configured ((threeWith freshOsc .idle).withFetchWord 24 0x10000) ∧
    NoiseCacheFresh ((threeWith freshOsc .idle).withFetchWord 24 0x10000) ∧
      ∃ t, step ((threeWith freshOsc .idle).withFetchWord 24 0x10000) = .next t ∧
        t.model = ((threeWith freshOsc .idle).withFetchWord 24 0x10000).model := by
  refine ⟨by unfold Configured ConfiguredOf; decide, ?_, _, rfl, rfl⟩
  unfold NoiseCacheFresh NoiseCacheFreshOf
  decide +kernel

/-- Nothing but the named contents, and the triangle on both sides of its peak (V-TAB (d)). -/
theorem witness_LinearConfigurationTables :
    ((smallCfg 3).rest = .linear ∧ (smallCfg 3).addAt = [] ∧ (smallCfg 3).dacwAt = [] ∧ (smallCfg 3).zeroAt = [] ∧
      (smallCfg 3).wfromAt = []) ∧
    (0xFFE#12 : Word12).toNat =
      (if (0x7FF#12 : Word12).toNat < 0x800 then 2 * (0x7FF#12 : Word12).toNat
        else 2 * (0xFFF - (0x7FF#12 : Word12).toNat)) ∧
    (0xFFE#12 : Word12).toNat =
      (if (0x800#12 : Word12).toNat < 0x800 then 2 * (0x800#12 : Word12).toNat
        else 2 * (0xFFF - (0x800#12 : Word12).toNat)) := by decide

/-- `CFG_LINEAR` in the integers of R208, with coefficients of another type, beside the small machine's parameters. -/
def intCfg : Cfg Int Unit :=
  { (smallCfg 3).toCfgDigital, (linearAnalog : Analog Int Unit) with prevReset := 7 }

theorem witness_StepRelationIsTheSameForAllTypes :
    CarriedOver (fun z : Int => (z : Sample)) (fun _ : Unit => (0 : NL)) intCfg (smallCfg 3).toCfg where
  digital := rfl
  add x y := (Int.cast_add x y).symm
  dacw _ i := (Int.cast_natCast (2 ^ i)).symm
  zero _ := (Int.cast_natCast 0).symm
  wfrom _ _ t p := (Int.cast_natCast (linearWave t p).toNat).symm
  prevReset := rfl

/-- After RESET at these other types, with one CYCLE to perform. -/
def otherTypes : StateOf Int Unit := { bootState intCfg () with inputs := [⟨splitWord 0x60000#24, ()⟩] }

/-- One step of the step relation at these other types: V-RST, the CYCLE after RESET. -/
theorem test_stepOf_other_types :
    (match stepOf intCfg otherTypes with
      | .next t => some (t.seq, t.results)
      | .fault _ => none
      | .refused _ => none) = some (.idle, [.sample 0 7, .sample 1 7, .sample 2 7]) := by decide

/-- The first clause of the statement, at these other types. -/
theorem witness_EveryStepKeepsTheMachineInvariant_other_types :
    InvOf intCfg.toCfgDigital otherTypes ∧ ∃ t, stepOf intCfg otherTypes = .next t :=
  ⟨⟨by decide, rfl, rfl, by decide, by decide, by decide⟩, _, rfl⟩

/-- The first clause of the statement, at these other types. -/
theorem witness_NoiseCacheFollowsTheConfiguration_other_types :
    ConfiguredOf intCfg otherTypes ∧ NoiseCacheFreshOf intCfg otherTypes ∧
      ∃ t, stepOf intCfg otherTypes = .next t ∧ t.model = otherTypes.model := by
  refine ⟨by unfold ConfiguredOf; decide, ?_, _, rfl, rfl⟩
  unfold NoiseCacheFreshOf
  decide

/-- Arguments that are listed, one of each function, at the ends of their ranges. -/
theorem witness_PlainDataStandForAnyContents :
    ((1, 2) : Sample × Sample) ∈ [((1, 2) : Sample × Sample)] ∧
    ((.model1, 11) : ChipModel × Nat) ∈ [((.model0, 0) : ChipModel × Nat), (.model1, 11)] ∧
    ChipModel.model0 ∈ [ChipModel.model0] ∧
    ((.model1, 0, 10, 0xFFF#12) : ChipModel × NL × Nat × Word12) ∈
      [((.model1, 0, 10, 0xFFF#12) : ChipModel × NL × Nat × Word12)] := by decide

/-- A listed value is used where it is listed, and the named contents beside it. -/
theorem test_listed :
    zeroLevelOf { smallCfg 3 with zeroAt := [(.model1, 5)] }.analog .model1 = 5 ∧
    zeroLevelOf { smallCfg 3 with zeroAt := [(.model1, 5)] }.analog .model0 = 0 ∧
    dacRead { smallCfg 3 with dacwAt := [((.model1, 2), 5)] }.analog .model1 2 = 5 ∧
    dacRead { smallCfg 3 with dacwAt := [((.model1, 2), 5)] }.analog .model1 3 = 8 := by decide

end Sys2Proof.Tests
end

section
/-! PROOFS. The decoder says once what it accepts (`decode_splitWord_ok_iff`): an operation is read from a word exactly
when the word's fields are those of the operation's row of R81. The obligations about the decoder use only that lemma. -/

namespace Sys2Proof

open Machine

section Encoding
variable {N : Type} {n : Nat} {w : BitVec 24} {nl : N} {i : Instr N}

/-! ### The fields of a word as numbers -/

theorem kindField_toNat (w : BitVec 24) : (kindField w).toNat = w.toNat / 0x10000 % 16 := by
  simp [kindField, Nat.shiftRight_eq_div_pow]

theorem voiceField_toNat (w : BitVec 24) : (voiceField w).toNat = w.toNat / 0x1000 % 16 := by
  simp [voiceField, Nat.shiftRight_eq_div_pow]

theorem selectField_toNat (w : BitVec 24) : (selectField w).toNat = w.toNat / 0x100 % 16 := by
  simp [selectField, Nat.shiftRight_eq_div_pow]

theorem dataField_toNat (w : BitVec 24) : (dataField w).toNat = w.toNat % 0x100 := by
  simp [dataField]

/-- The storage bits above bit 19 are 0 exactly in the words of 20 bits (log 4). -/
theorem upperBits_eq_zero_iff (w : BitVec 24) : w.extractLsb' 20 4 = 0#4 ↔ w.toNat < 2 ^ 20 := by
  have := w.isLt
  rw [← BitVec.toNat_inj]
  simp [Nat.shiftRight_eq_div_pow]
  omega

/-! ### What the decoder accepts -/

/-- The fields of the word `w` are those of the operation `i`: one constructor per row of R81, with the conditions of R83
and the operands of R82 and R86. -/
inductive ReadsAs (n : Nat) (w : BitVec 24) (nl : N) : Instr N → Prop where
  | wrFreqLo : kindField w = 1#4 → selectField w = 0#4 → (voiceField w).toNat < n →
      ReadsAs n w nl (.wrFreqLo (voiceField w).toNat (dataField w))
  | wrFreqHi : kindField w = 1#4 → selectField w = 1#4 → (voiceField w).toNat < n →
      ReadsAs n w nl (.wrFreqHi (voiceField w).toNat (dataField w))
  | wrPwLo : kindField w = 1#4 → selectField w = 2#4 → (voiceField w).toNat < n →
      ReadsAs n w nl (.wrPwLo (voiceField w).toNat (dataField w))
  | wrPwHi : kindField w = 1#4 → selectField w = 3#4 → (voiceField w).toNat < n →
      ReadsAs n w nl (.wrPwHi (voiceField w).toNat (dataField w))
  | wrControl : kindField w = 1#4 → selectField w = 4#4 → (voiceField w).toNat < n →
      ReadsAs n w nl (.wrControl (voiceField w).toNat (dataField w))
  | wrOther : kindField w = 1#4 → 5 ≤ (selectField w).toNat → (voiceField w).toNat < n →
      ReadsAs n w nl (.wrOther (voiceField w).toNat (selectField w) (dataField w))
  | rdOsc : kindField w = 2#4 → selectField w = 7#4 → dataField w = 0#8 → (voiceField w).toNat < n →
      ReadsAs n w nl (.rdOsc (voiceField w).toNat)
  | clock : kindField w = 3#4 → selectField w = 0#4 → dataField w = 0#8 → (voiceField w).toNat < n →
      ReadsAs n w nl (.clock (voiceField w).toNat)
  | synchronize : kindField w = 4#4 → selectField w = 0#4 → dataField w = 0#8 → (voiceField w).toNat < n →
      ReadsAs n w nl (.synchronize (voiceField w).toNat)
  | output : kindField w = 5#4 → selectField w = 0#4 → dataField w = 0#8 → (voiceField w).toNat < n →
      ReadsAs n w nl (.output (voiceField w).toNat)
  | cycle : kindField w = 6#4 → voiceField w = 0#4 → selectField w = 0#4 → dataField w = 0#8 → ReadsAs n w nl .cycle
  | reset : kindField w = 7#4 → voiceField w = 0#4 → selectField w = 0#4 → dataField w = 0#8 → ReadsAs n w nl .reset
  | config (m : ChipModel) : kindField w = 8#4 → voiceField w = 0#4 → selectField w = modelDigit m →
      dataField w = 0#8 → ReadsAs n w nl (.config m nl)

@[simp] theorem withVoice_ok_iff {k : Nat → Instr N} :
    withVoice n w k = .ok i ↔ (voiceField w).toNat < n ∧ i = k (voiceField w).toNat := by
  unfold withVoice
  split_ifs with h <;> simp [h, eq_comm]

@[simp] theorem plainVoice_ok_iff {k : Nat → Instr N} : plainVoice n w k = .ok i ↔
    (selectField w = 0#4 ∧ dataField w = 0#8) ∧ (voiceField w).toNat < n ∧ i = k (voiceField w).toNat := by
  unfold plainVoice
  split_ifs with h <;> simp [h]

@[simp] theorem bareWord_ok_iff {j : Instr N} : bareWord w j = .ok i ↔
    (voiceField w = 0#4 ∧ selectField w = 0#4 ∧ dataField w = 0#8) ∧ i = j := by
  unfold bareWord
  split_ifs with h <;> simp [h, eq_comm (a := i)]

@[simp] theorem decodeConfig_ok_iff : decodeConfig w nl = .ok i ↔
    (voiceField w = 0#4 ∧ dataField w = 0#8) ∧ ∃ m, selectField w = modelDigit m ∧ i = .config m nl := by
  constructor
  · intro h
    unfold decodeConfig at h
    split_ifs at h with hf
    split at h
    next hs => cases h; exact ⟨hf, .model0, BitVec.eq_of_toNat_eq hs, rfl⟩
    next hs => cases h; exact ⟨hf, .model1, BitVec.eq_of_toNat_eq hs, rfl⟩
    next => cases h
  · rintro ⟨hf, m, hs, rfl⟩
    cases m <;> simp [decodeConfig, hf, hs, modelDigit]

/-- A word of kind 1 reads as the write of its select (R81). -/
theorem ReadsAs.write (hk : kindField w = 1#4) (hv : (voiceField w).toNat < n) :
    ReadsAs n w nl (decodeWrite (voiceField w).toNat (selectField w) (dataField w)) := by
  unfold decodeWrite
  split
  next hs => exact .wrFreqLo hk (BitVec.eq_of_toNat_eq hs) hv
  next hs => exact .wrFreqHi hk (BitVec.eq_of_toNat_eq hs) hv
  next hs => exact .wrPwLo hk (BitVec.eq_of_toNat_eq hs) hv
  next hs => exact .wrPwHi hk (BitVec.eq_of_toNat_eq hs) hv
  next hs => exact .wrControl hk (BitVec.eq_of_toNat_eq hs) hv
  next h0 h1 h2 h3 h4 =>
    simp only [imp_false] at h0 h1 h2 h3 h4
    exact .wrOther hk (by omega) hv

/-- The select of WR_OTHER is none of the five ports (R107). -/
theorem decodeWrite_of_five_le {v : Nat} {sel : Nibble} {d : Byte} (h : 5 ≤ sel.toNat) :
    (decodeWrite v sel d : Instr N) = .wrOther v sel d := by
  obtain ⟨k, hk⟩ := Nat.exists_eq_add_of_le' h
  rw [decodeWrite, hk]
  rfl

theorem readsAs_of_decodeWord (h : decodeWord n w nl = .ok i) : ReadsAs n w nl i := by
  unfold decodeWord at h
  split at h
  next => cases h
  split at h
  next hk =>
    obtain ⟨hv, rfl⟩ := withVoice_ok_iff.mp h
    exact .write (BitVec.eq_of_toNat_eq hk) hv
  next hk =>
    split at h
    next => cases h
    next hs =>
      split at h
      next => cases h
      next hd =>
        obtain ⟨hv, rfl⟩ := withVoice_ok_iff.mp h
        exact .rdOsc (BitVec.eq_of_toNat_eq hk) (not_not.mp hs) (not_not.mp hd) hv
  next hk =>
    obtain ⟨⟨hs, hd⟩, hv, rfl⟩ := plainVoice_ok_iff.mp h
    exact .clock (BitVec.eq_of_toNat_eq hk) hs hd hv
  next hk =>
    obtain ⟨⟨hs, hd⟩, hv, rfl⟩ := plainVoice_ok_iff.mp h
    exact .synchronize (BitVec.eq_of_toNat_eq hk) hs hd hv
  next hk =>
    obtain ⟨⟨hs, hd⟩, hv, rfl⟩ := plainVoice_ok_iff.mp h
    exact .output (BitVec.eq_of_toNat_eq hk) hs hd hv
  next hk =>
    obtain ⟨⟨hv, hs, hd⟩, rfl⟩ := bareWord_ok_iff.mp h
    exact .cycle (BitVec.eq_of_toNat_eq hk) hv hs hd
  next hk =>
    obtain ⟨⟨hv, hs, hd⟩, rfl⟩ := bareWord_ok_iff.mp h
    exact .reset (BitVec.eq_of_toNat_eq hk) hv hs hd
  next hk =>
    obtain ⟨⟨hv, hd⟩, m, hs, rfl⟩ := decodeConfig_ok_iff.mp h
    exact .config m (BitVec.eq_of_toNat_eq hk) hv hs hd
  next => cases h

theorem decodeWord_of_readsAs (hw : w.extractLsb' 20 4 = 0#4) (h : ReadsAs n w nl i) : decodeWord n w nl = .ok i := by
  unfold decodeWord
  cases h with
  | wrOther hk hs hv => simp [hw, hk, hv, decodeWrite_of_five_le hs]
  | wrFreqLo hk hs hv => simp [hw, hk, hs, hv, decodeWrite]
  | wrFreqHi hk hs hv => simp [hw, hk, hs, hv, decodeWrite]
  | wrPwLo hk hs hv => simp [hw, hk, hs, hv, decodeWrite]
  | wrPwHi hk hs hv => simp [hw, hk, hs, hv, decodeWrite]
  | wrControl hk hs hv => simp [hw, hk, hs, hv, decodeWrite]
  | rdOsc hk hs hd hv => simp [hw, hk, hs, hd, hv]
  | clock hk hs hd hv => simp [hw, hk, hs, hd, hv]
  | synchronize hk hs hd hv => simp [hw, hk, hs, hd, hv]
  | output hk hs hd hv => simp [hw, hk, hs, hd, hv]
  | cycle hk hv hs hd => simp [hw, hk, hs, hd, hv]
  | reset hk hv hs hd => simp [hw, hk, hs, hd, hv]
  | config m hk hv hs hd => simp [hw, hk, hs, hd, hv]

/-- The three bytes of a word put together again (log 4). -/
theorem bytes_append (w : BitVec 24) : w.extractLsb' 16 8 ++ w.extractLsb' 8 8 ++ w.extractLsb' 0 8 = w := by
  have upper : w.extractLsb' 16 8 ++ w.extractLsb' 8 8 = w.extractLsb' 8 16 :=
    BitVec.extractLsb'_append_extractLsb'_eq_extractLsb' rfl
  have all : w.extractLsb' 8 16 ++ w.extractLsb' 0 8 = w.extractLsb' 0 24 :=
    BitVec.extractLsb'_append_extractLsb'_eq_extractLsb' rfl
  rw [upper, all, BitVec.extractLsb'_eq_self]

theorem decode_splitWord (n : Nat) (w : BitVec 24) (nl : N) : decode n ⟨splitWord w, nl⟩ = decodeWord n w nl :=
  congrArg (decodeWord n · nl) (bytes_append w)

/-- The decoder on a word in its storage form: it accepts the words of 20 bits whose fields are those of an operation, and
reads that operation (R81, R83, log 4). -/
theorem decode_splitWord_ok_iff :
    decode n ⟨splitWord w, nl⟩ = .ok i ↔ w.toNat < 2 ^ 20 ∧ ReadsAs n w nl i := by
  rw [decode_splitWord, ← upperBits_eq_zero_iff]
  refine ⟨fun h => ⟨?_, readsAs_of_decodeWord h⟩, fun h => decodeWord_of_readsAs h.1 h.2⟩
  by_contra hw
  simp [decodeWord, hw] at h

/-! ### Which words are operation words -/

/-- Which fields are those of some operation (R83). -/
theorem exists_readsAs_iff (n : Nat) (w : BitVec 24) (nl : N) : (∃ i, ReadsAs n w nl i) ↔
    (kindField w = 1#4 ∧ (voiceField w).toNat < n)
      ∨ (kindField w = 2#4 ∧ (voiceField w).toNat < n ∧ selectField w = 7#4 ∧ dataField w = 0#8)
      ∨ ((kindField w = 3#4 ∨ kindField w = 4#4 ∨ kindField w = 5#4) ∧ (voiceField w).toNat < n ∧
          selectField w = 0#4 ∧ dataField w = 0#8)
      ∨ (kindField w = 6#4 ∧ voiceField w = 0#4 ∧ selectField w = 0#4 ∧ dataField w = 0#8)
      ∨ (kindField w = 7#4 ∧ voiceField w = 0#4 ∧ selectField w = 0#4 ∧ dataField w = 0#8)
      ∨ (kindField w = 8#4 ∧ voiceField w = 0#4 ∧ selectField w = 0#4 ∧ dataField w = 0#8)
      ∨ (kindField w = 8#4 ∧ voiceField w = 0#4 ∧ selectField w = 1#4 ∧ dataField w = 0#8) := by
  constructor
  · rintro ⟨i, h⟩
    cases h with
    | config m hk hv hs hd => cases m <;> simp [hk, hv, hs, hd, modelDigit]
    | _ => simp [*]
  · rintro (⟨hk, hv⟩ | ⟨hk, hv, hs, hd⟩ | ⟨hk | hk | hk, hv, hs, hd⟩ | ⟨hk, hv, hs, hd⟩ | ⟨hk, hv, hs, hd⟩ |
      ⟨hk, hv, hs, hd⟩ | ⟨hk, hv, hs, hd⟩)
    · exact ⟨_, .write hk hv⟩
    · exact ⟨_, .rdOsc hk hs hd hv⟩
    · exact ⟨_, .clock hk hs hd hv⟩
    · exact ⟨_, .synchronize hk hs hd hv⟩
    · exact ⟨_, .output hk hs hd hv⟩
    · exact ⟨_, .cycle hk hv hs hd⟩
    · exact ⟨_, .reset hk hv hs hd⟩
    · exact ⟨_, .config .model0 hk hv hs hd⟩
    · exact ⟨_, .config .model1 hk hv hs hd⟩

/-- A step is refused where no operation can be read from the first word of the input (R83). -/
theorem step_refused_of_decode_ne_ok {s : State} {op : OpWord} {rest : List OpWord} (hs : s.inputs = op :: rest)
    (hop : ∀ i, decode s.cfg.nvoices op ≠ .ok i) : ∃ r, step s = .refused r := by
  cases hd : decode s.cfg.nvoices op with
  | ok i => exact absurd hd (hop i)
  | error r => exact ⟨refusalOf r, by simp [step, nextOp, hs, hd]⟩

/-! ### The opcode table -/

theorem kindField_zero_append (x : BitVec 20) : kindField (0#4 ++ x) = x.extractLsb' 16 4 :=
  BitVec.extractLsb'_append_eq_of_add_le (by decide)

theorem voiceField_zero_append (x : BitVec 20) : voiceField (0#4 ++ x) = x.extractLsb' 12 4 :=
  BitVec.extractLsb'_append_eq_of_add_le (by decide)

theorem selectField_zero_append (x : BitVec 20) : selectField (0#4 ++ x) = x.extractLsb' 8 4 :=
  BitVec.extractLsb'_append_eq_of_add_le (by decide)

theorem dataField_zero_append (x : BitVec 20) : dataField (0#4 ++ x) = x.extractLsb' 0 8 :=
  BitVec.extractLsb'_append_eq_of_add_le (by decide)

/-- Storage puts four zero bits above a word of 20 bits, which keep its number (log 4). -/
@[simp] theorem toNat_zero_append (x : BitVec 20) : (0#4 ++ x : BitVec 24).toNat = x.toNat :=
  (BitVec.toNat_append 0#4 x).trans (by simp)

theorem decode_zero_append_ok_iff {x : BitVec 20} :
    decode n ⟨splitWord (0#4 ++ x), nl⟩ = .ok i ↔ ReadsAs n (0#4 ++ x) nl i := by
  rw [decode_splitWord_ok_iff, toNat_zero_append]
  exact and_iff_right x.isLt

/-- Two 20-bit words are equal when their digits `K`, `V`, `S` and `DD` are (R80). -/
theorem word20_eq_iff_fields (x y : BitVec 20) : x = y ↔
    x.extractLsb' 16 4 = y.extractLsb' 16 4 ∧ x.extractLsb' 12 4 = y.extractLsb' 12 4 ∧
      x.extractLsb' 8 4 = y.extractLsb' 8 4 ∧ x.extractLsb' 0 8 = y.extractLsb' 0 8 := by
  refine ⟨fun h => by simp [h], ?_⟩
  simp only [← BitVec.toNat_inj, BitVec.extractLsb'_toNat, Nat.shiftRight_eq_div_pow]
  have := x.isLt
  have := y.isLt
  omega

/-- A row fits a word digit by digit. -/
theorem OpcodeRow.fits_iff_fields (r : OpcodeRow) (n : Nat) (x : BitVec 20) : r.fits n x = true ↔
    kindField (0#4 ++ x) &&& r.mask.extractLsb' 16 4 = r.pattern.extractLsb' 16 4 ∧
    voiceField (0#4 ++ x) &&& r.mask.extractLsb' 12 4 = r.pattern.extractLsb' 12 4 ∧
    selectField (0#4 ++ x) &&& r.mask.extractLsb' 8 4 = r.pattern.extractLsb' 8 4 ∧
    dataField (0#4 ++ x) &&& r.mask.extractLsb' 0 8 = r.pattern.extractLsb' 0 8 ∧
    r.minSelect ≤ (selectField (0#4 ++ x)).toNat ∧ (r.hasVoice = false ∨ (voiceField (0#4 ++ x)).toNat < n) := by
  simp only [fits, word20_eq_iff_fields (x &&& r.mask), BitVec.extractLsb'_and, kindField_zero_append,
    voiceField_zero_append, selectField_zero_append, dataField_zero_append, Bool.and_eq_true, Bool.or_eq_true,
    Bool.not_eq_true', decide_eq_true_eq, and_assoc]

/-! What a digit of a mask leaves of a field: all of it, or for CONFIG the bits of `S` above the lowest (R86). -/

@[simp] theorem nibble_and_fifteen (x : Nibble) : x &&& 15#4 = x := BitVec.and_allOnes

@[simp] theorem byte_and_255 (x : Byte) : x &&& 255#8 = x := BitVec.and_allOnes

@[simp] theorem nibble_and_fourteen_eq_zero_iff : ∀ x : Nibble, x &&& 14#4 = 0#4 ↔ x = 0#4 ∨ x = 1#4 := by decide

variable {x : BitVec 20}

/-- A row of the table fits every word that reads as an operation. -/
theorem ReadsAs.exists_row_fits (h : ReadsAs n (0#4 ++ x) nl i) :
    ∃ r ∈ opcodeRows, r.mnemonic = i.mnemonic ∧ r.fits n x = true := by
  simp only [OpcodeRow.fits_iff_fields]
  cases h with
  | wrFreqLo hk hs hv => exact ⟨opcodeRows[0], List.getElem_mem _, rfl, by simp [opcodeRows, hk, hs, hv]⟩
  | wrFreqHi hk hs hv => exact ⟨opcodeRows[1], List.getElem_mem _, rfl, by simp [opcodeRows, hk, hs, hv]⟩
  | wrPwLo hk hs hv => exact ⟨opcodeRows[2], List.getElem_mem _, rfl, by simp [opcodeRows, hk, hs, hv]⟩
  | wrPwHi hk hs hv => exact ⟨opcodeRows[3], List.getElem_mem _, rfl, by simp [opcodeRows, hk, hs, hv]⟩
  | wrControl hk hs hv => exact ⟨opcodeRows[4], List.getElem_mem _, rfl, by simp [opcodeRows, hk, hs, hv]⟩
  | wrOther hk hs hv => exact ⟨opcodeRows[5], List.getElem_mem _, rfl, by simp [opcodeRows, hk, hs, hv]⟩
  | rdOsc hk hs hd hv => exact ⟨opcodeRows[6], List.getElem_mem _, rfl, by simp [opcodeRows, hk, hs, hd, hv]⟩
  | clock hk hs hd hv => exact ⟨opcodeRows[7], List.getElem_mem _, rfl, by simp [opcodeRows, hk, hs, hd, hv]⟩
  | synchronize hk hs hd hv => exact ⟨opcodeRows[8], List.getElem_mem _, rfl, by simp [opcodeRows, hk, hs, hd, hv]⟩
  | output hk hs hd hv => exact ⟨opcodeRows[9], List.getElem_mem _, rfl, by simp [opcodeRows, hk, hs, hd, hv]⟩
  | cycle hk hv hs hd => exact ⟨opcodeRows[10], List.getElem_mem _, rfl, by simp [opcodeRows, hk, hv, hs, hd]⟩
  | reset hk hv hs hd => exact ⟨opcodeRows[11], List.getElem_mem _, rfl, by simp [opcodeRows, hk, hv, hs, hd]⟩
  | config m hk hv hs hd =>
    exact ⟨opcodeRows[12], List.getElem_mem _, rfl, by cases m <;> simp [opcodeRows, hk, hv, hs, hd, modelDigit]⟩

/-- Every word that a row of the table fits reads as an operation of that row. -/
theorem exists_readsAs_of_fits {r : OpcodeRow} (hr : r ∈ opcodeRows) (h : r.fits n x = true) (nl : N) :
    ∃ i, ReadsAs n (0#4 ++ x) nl i ∧ i.mnemonic = r.mnemonic := by
  obtain ⟨hk, hv, hs, hd, hmin, hn⟩ := (r.fits_iff_fields n x).mp h
  simp only [opcodeRows, List.mem_cons, List.not_mem_nil, or_false] at hr
  rcases hr with rfl | rfl | rfl | rfl | rfl | rfl | rfl | rfl | rfl | rfl | rfl | rfl | rfl <;>
    simp at hk hv hs hd hmin hn
  · exact ⟨_, .wrFreqLo hk hs hn, rfl⟩
  · exact ⟨_, .wrFreqHi hk hs hn, rfl⟩
  · exact ⟨_, .wrPwLo hk hs hn, rfl⟩
  · exact ⟨_, .wrPwHi hk hs hn, rfl⟩
  · exact ⟨_, .wrControl hk hs hn, rfl⟩
  · exact ⟨_, .wrOther hk hmin hn, rfl⟩
  · exact ⟨_, .rdOsc hk hs hd hn, rfl⟩
  · exact ⟨_, .clock hk hs hd hn, rfl⟩
  · exact ⟨_, .synchronize hk hs hd hn, rfl⟩
  · exact ⟨_, .output hk hs hd hn, rfl⟩
  · exact ⟨_, .cycle hk hv hs hd, rfl⟩
  · exact ⟨_, .reset hk hv hs hd, rfl⟩
  · rcases hs with hs | hs
    · exact ⟨_, .config .model0 hk hv hs hd, rfl⟩
    · exact ⟨_, .config .model1 hk hv hs hd, rfl⟩

/-- A word reads as one operation at most. -/
theorem ReadsAs.unique {i j : Instr N} (hi : ReadsAs n (0#4 ++ x) nl i) (hj : ReadsAs n (0#4 ++ x) nl j) : i = j :=
  Except.ok.inj ((decode_zero_append_ok_iff.mpr hi).symm.trans (decode_zero_append_ok_iff.mpr hj))

/-- Two rows that fit one word have one mnemonic: that of the operation the word reads as. -/
theorem mnemonic_eq_of_fits {r t : OpcodeRow} (hr : r ∈ opcodeRows) (ht : t ∈ opcodeRows) (hrx : r.fits n x = true)
    (htx : t.fits n x = true) : r.mnemonic = t.mnemonic := by
  obtain ⟨i, hi, hir⟩ := exists_readsAs_of_fits hr hrx ()
  obtain ⟨j, hj, hjt⟩ := exists_readsAs_of_fits ht htx ()
  rw [← hir, ← hjt, hi.unique hj]

theorem opcodeRows_mnemonics_nodup : opcodeRows.Pairwise (·.mnemonic ≠ ·.mnemonic) := by decide

/-- No two rows of the table fit one word (R81). -/
theorem opcodeRows_pairwise_not_fits (n : Nat) (x : BitVec 20) :
    opcodeRows.Pairwise fun r t => ¬ (r.fits n x = true ∧ t.fits n x = true) :=
  opcodeRows_mnemonics_nodup.imp_of_mem fun hr ht hne hfit => hne (mnemonic_eq_of_fits hr ht hfit.1 hfit.2)

end Encoding

/-! ### The obligations -/

/-- Settles O2: the decoder's inversion lemma, with the fields of the word as numbers. -/
theorem decoderAcceptsExactlyTheOperationWords : Obligations.DecoderAcceptsExactlyTheOperationWords := by
  refine fun n w nl => ⟨?_, fun s rest hs hw => step_refused_of_decode_ne_ok hs hw⟩
  simp only [decode_splitWord_ok_iff, exists_and_left, exists_readsAs_iff, ← BitVec.toNat_inj, kindField_toNat,
    voiceField_toNat, selectField_toNat, dataField_toNat, BitVec.toNat_ofNat]
  refine and_congr_right fun hw => or_congr ?_ (or_congr ?_ (or_congr ?_ (or_congr ?_ (or_congr ?_ (or_congr ?_ ?_)))))
  all_goals omega

/-- Settles O5: a row fits a word exactly when the word reads as an operation of that row, and a word reads as one
operation at most; its operands are those of `ReadsAs`, as numbers. -/
theorem decoderAgreesWithTheOpcodeTable : Obligations.DecoderAgreesWithTheOpcodeTable := by
  intro N n x nl
  simp only [decode_zero_append_ok_iff]
  refine ⟨fun m => ⟨?_, ?_⟩, opcodeRows_pairwise_not_fits n x, fun i h => ?_⟩
  · rintro ⟨i, hi, rfl⟩
    exact hi.exists_row_fits
  · rintro ⟨r, hr, rfl, hfit⟩
    exact exists_readsAs_of_fits hr hfit nl
  · cases h with
    | config m hk hv hs hd => cases m <;> simp [← toNat_zero_append, ← selectField_toNat, hs, modelDigit]
    | _ => simp [voiceField_toNat, selectField_toNat, dataField_toNat]

end Sys2Proof
end

section
/-! PROOFS. The register operations. A write completes with its port's function applied to the oscillator's record
(`exec_write_eq`), each port's function is arithmetic on the register's old value, and a word is the sum of its digits.
The obligations about the register ports put these three together. -/

namespace Sys2Proof.Machine

/-! ### The register operations where the host may write -/

/-- A register write completes, and replaces the record of its oscillator by what its port makes of it (R100): the premise
is the operation's lemma `perform_…_iff`. -/
theorem exec_write_eq {s : State} {v : Nat} {o : Osc} {i : Instr} {port : Osc → Osc} (h : HostReady s v o)
    (hi : ∀ t, perform s.cfg.toCfg i s.toStateOf = .next t ↔
      v < s.cfg.nvoices ∧ s.hasReset = true ∧ s.seq = .idle ∧ t = s.toStateOf.modifyOsc v port) :
    exec i s = .next (s.withOsc v (port o)) := by
  rw [← modifyOsc_eq_withOsc port h.record]
  exact exec_next_iff.mpr ⟨(hi _).mpr ⟨h.voice, h.afterReset, h.idle, rfl⟩, rfl⟩

/-! ### The ports as arithmetic -/

/-- Putting a byte below a word adds it to 256 times the word. -/
theorem append_byte_eq_ofNat {n : Nat} (x : BitVec n) (d : Byte) :
    x ++ d = BitVec.ofNat (n + 8) (x.toNat * 256 + d.toNat) := by
  apply BitVec.eq_of_toNat_eq
  have hd : d.toNat < 2 ^ 8 := d.isLt
  have hsum : (x ++ d).toNat = x.toNat * 256 + d.toNat := by
    rw [BitVec.toNat_append, ← Nat.shiftLeft_add_eq_or_of_lt hd, Nat.shiftLeft_eq]
  rw [← hsum, BitVec.toNat_ofNat, Nat.mod_eq_of_lt (x ++ d).isLt]

theorem withFreqLo_eq_ofNat (f : Frequency) (d : Byte) :
    withFreqLo f d = BitVec.ofNat 16 (f.toNat / 256 * 256 + d.toNat) := by
  have hf : f.toNat / 256 < 256 := by have := f.isLt; omega
  simp [withFreqLo, append_byte_eq_ofNat, Nat.shiftRight_eq_div_pow, Nat.mod_eq_of_lt hf]

theorem withFreqHi_eq_ofNat (f : Frequency) (d : Byte) :
    withFreqHi f d = BitVec.ofNat 16 (d.toNat * 256 + f.toNat % 256) := by
  simp [withFreqHi, append_byte_eq_ofNat]

theorem withPwLo_eq_ofNat (p : Word12) (d : Byte) :
    withPwLo p d = BitVec.ofNat 12 (p.toNat / 256 * 256 + d.toNat) := by
  have hp : p.toNat / 256 < 16 := by have := p.isLt; omega
  simp [withPwLo, append_byte_eq_ofNat, Nat.shiftRight_eq_div_pow, Nat.mod_eq_of_lt hp]

theorem withPwHi_eq_ofNat (p : Word12) (d : Byte) :
    withPwHi p d = BitVec.ofNat 12 (d.toNat % 16 * 256 + p.toNat % 256) := by
  simp [withPwHi, append_byte_eq_ofNat]

theorem ctlWaveform_eq_ofNat (d : Byte) : ctlWaveform d = BitVec.ofNat 4 (d.toNat / 16) := by
  simp [ctlWaveform, BitVec.extractLsb', Nat.shiftRight_eq_div_pow]

theorem ctlTest_eq_decide (d : Byte) : ctlTest d = decide (d.toNat / 8 % 2 = 1) :=
  Nat.testBit_eq_decide_div_mod_eq

theorem ctlRing_eq_decide (d : Byte) : ctlRing d = decide (d.toNat / 4 % 2 = 1) :=
  Nat.testBit_eq_decide_div_mod_eq

theorem ctlSync_eq_decide (d : Byte) : ctlSync d = decide (d.toNat / 2 % 2 = 1) :=
  Nat.testBit_eq_decide_div_mod_eq

theorem oscByte_eq_ofNat (acc : Accumulator) : oscByte acc = BitVec.ofNat 8 (acc.toNat / 0x10000) := by
  simp [oscByte, BitVec.extractLsb', Nat.shiftRight_eq_div_pow]

/-- The CONTROL port: four fields from the data bits; the countdown and the accumulator on the rising edge of test only
(R105). -/
theorem portControl_eq {S : Type} (cfg : CfgDigital) (d : Byte) (o : OscOf S) : portControl cfg d o =
    { o with
      waveformSelect := BitVec.ofNat 4 (d.toNat / 16)
      testHeld := decide (d.toNat / 8 % 2 = 1)
      ringModEnabled := decide (d.toNat / 4 % 2 = 1)
      syncEnabled := decide (d.toNat / 2 % 2 = 1)
      noiseOverwriteDelay :=
        if d.toNat / 8 % 2 = 1 ∧ o.testHeld = false then cfg.noiseOverwriteDelay else o.noiseOverwriteDelay
      accumulator :=
        if d.toNat / 8 % 2 = 1 ∧ o.testHeld = false ∧ cfg.testRiseClearsAcc = true then 0#24 else o.accumulator } := by
  simp only [portControl, testRise_eq, ctlWaveform_eq_ofNat, ctlTest_eq_decide, ctlRing_eq_decide, ctlSync_eq_decide,
    decide_eq_true_eq]

/-! ### The words -/

/-- The word of an operation on oscillator `v` is the sum of its digits (R80), the two that an operation
fixes, `K` and `S`, first. -/
theorem packWord_voice_toNat {v : Nat} (hv : v < 16) (k sel : Nibble) (d : Byte) :
    (packWord k (BitVec.ofNat 4 v) sel d).toNat = k.toNat * 0x10000 + sel.toNat * 0x100 + v * 0x1000 + d.toNat := by
  rw [Laws.EncodedWord.packWord_toNat, BitVec.toNat_ofNat, Nat.mod_eq_of_lt hv]
  omega

/-! ### The obligations -/

/-- Settles O8: the FREQ_LO port, as arithmetic. -/
theorem wrFreqLoSetsTheLowByte : Obligations.WrFreqLoSetsTheLowByte := by
  refine fun s v d o h => ⟨?_, fun hv => packWord_voice_toNat hv 1#4 0#4 d⟩
  rw [exec_write_eq h fun t => perform_wrFreqLo_iff, portFreqLo, withFreqLo_eq_ofNat]

/-- Settles O9: the FREQ_HI port, as arithmetic. -/
theorem wrFreqHiSetsTheHighByte : Obligations.WrFreqHiSetsTheHighByte := by
  refine fun s v d o h => ⟨?_, fun hv => packWord_voice_toNat hv 1#4 1#4 d⟩
  rw [exec_write_eq h fun t => perform_wrFreqHi_iff, portFreqHi, withFreqHi_eq_ofNat]

/-- Settles O10: the PW_LO port, as arithmetic. -/
theorem wrPwLoSetsTheLowByte : Obligations.WrPwLoSetsTheLowByte := by
  refine fun s v d o h => ⟨?_, fun hv => packWord_voice_toNat hv 1#4 2#4 d⟩
  rw [exec_write_eq h fun t => perform_wrPwLo_iff, portPwLo, withPwLo_eq_ofNat]

/-- Settles O11: the PW_HI port, as arithmetic. -/
theorem wrPwHiSetsTheHighBits : Obligations.WrPwHiSetsTheHighBits := by
  refine fun s v d o h => ⟨?_, fun hv => packWord_voice_toNat hv 1#4 3#4 d⟩
  rw [exec_write_eq h fun t => perform_wrPwHi_iff, portPwHi, withPwHi_eq_ofNat]

/-- Settles O12: the CONTROL port, as arithmetic. -/
theorem wrControlSetsItsFields : Obligations.WrControlSetsItsFields := by
  refine fun s v d o h => ⟨?_, fun hv => packWord_voice_toNat hv 1#4 4#4 d⟩
  rw [exec_write_eq h fun t => perform_wrControl_iff, portControl_eq]

/-- Settles O13: the selects 5 to 15 name no port, so the state stays. -/
theorem wrOtherChangesNothing : Obligations.WrOtherChangesNothing := by
  refine fun s v sel d hr hq hv hsel => ⟨?_, fun h16 => ?_⟩
  · exact exec_next_iff.mpr ⟨perform_wrOther_iff.mpr ⟨hsel, hv, hr, hq, rfl⟩, rfl⟩
  · exact (packWord_voice_toNat h16 1#4 sel d).trans (by rw [BitVec.toNat_ofNat]; omega)

/-- Settles O14: the OSC byte, as arithmetic, is the one result the read appends. -/
theorem rdOscYieldsTheTopByte : Obligations.RdOscYieldsTheTopByte := by
  refine fun s v o h => ⟨?_, fun hv => packWord_voice_toNat hv 2#4 7#4 0#8⟩
  rw [← oscByte_eq_ofNat, ← osc_eq_of_getElem? h.record]
  exact exec_next_iff.mpr ⟨perform_rdOsc_iff.mpr ⟨h.voice, h.afterReset, h.idle, rfl⟩, rfl⟩

end Sys2Proof.Machine
end

section
/-! PROOFS. CLOCK. A legal CLOCK replaces the record of its oscillator by `clockOsc` of it (`exec_clock_eq`); the record is
arithmetic on the accumulator, and the noise register is the one register with the bits that the rules give. -/

namespace Sys2Proof.Machine

/-! ### The bits of the noise register -/

/-- The clear mask has exactly the register positions of the taps (R78). -/
theorem noiseClearMask_bit_iff (taps : List (Fin 23 × Fin 12)) (i : Nat) :
    (noiseClearMask taps).getLsbD i = true ↔ ∃ p ∈ taps, p.1.val = i := by
  suffices h : ∀ acc : NoiseReg,
      (taps.foldl (fun acc t => acc ||| BitVec.twoPow 23 t.1.val) acc).getLsbD i = true ↔
        acc.getLsbD i = true ∨ ∃ p ∈ taps, p.1.val = i from
    (h 0#23).trans (by simp)
  induction taps with
  | nil => simp
  | cons t taps ih => intro acc; simp [ih, or_assoc]

/-- The clear of R143: the taps' bits for a code above 8. -/
theorem noiseClear_bit (taps : List (Fin 23 × Fin 12)) (c : Nibble) (r : NoiseReg) {i : Nat} (hi : i < 23) :
    (noiseClear taps c r).getLsbD i =
      if 8 < c.toNat ∧ (∃ p ∈ taps, p.1.val = i) then false else r.getLsbD i := by
  unfold noiseClear
  by_cases hc : 8 < c.toNat
  · simp only [hc, if_true, true_and, BitVec.getLsbD_and, BitVec.getLsbD_not, hi, decide_true, Bool.true_and,
      ← noiseClearMask_bit_iff]
    cases (noiseClearMask taps).getLsbD i <;> simp
  · simp [hc]

/-- The register after the noise step is the one with the bits of R141 to R143. -/
theorem noiseClear_noiseShift_eq {taps : List (Fin 23 × Fin 12)} {c : Nibble} {old r : NoiseReg}
    (h : ∀ i, i < 23 → r.getLsbD i =
      if 8 < c.toNat ∧ (∃ p ∈ taps, p.1.val = i) then false
      else if i = 0 then old.getLsbD 22 != old.getLsbD 17 else old.getLsbD (i - 1)) :
    noiseClear taps c (noiseShift old) = r :=
  BitVec.eq_of_getLsbD_eq fun i hi => by rw [h i hi, noiseClear_bit _ _ _ hi, noiseShift_bit _ _ hi]

/-- The register after the force is the one with the bits of R147: the OR, then the clear under its switch (D13). -/
theorem forcedRegister_eq {cfg : CfgDigital} {c : Nibble} {old r : NoiseReg}
    (h : ∀ i, i < 23 → r.getLsbD i =
      if cfg.forceAppliesClear = true ∧ 8 < c.toNat ∧ (∃ p ∈ cfg.noiseTaps, p.1.val = i) then false
      else old.getLsbD i || cfg.testForceMask.getLsbD i) :
    forcedRegister cfg c old = r := by
  refine BitVec.eq_of_getLsbD_eq fun i hi => ?_
  rw [h i hi, forcedRegister]
  by_cases hs : cfg.forceAppliesClear = true
  · simp only [hs, if_true, true_and, noiseClear_bit _ _ _ hi, BitVec.getLsbD_or]
  · simp [hs]

/-! ### The addition and the edge detectors as arithmetic -/

section Arithmetic
variable {S : Type} (o : OscOf S)

/-- The accumulator after the addition, as a number (R123). -/
theorem advance_toNat : (advance o).toNat = (o.accumulator.toNat + o.frequency.toNat) % 2 ^ 24 := by
  simp [advance]

/-- Bit 23 rises when the number passes half of its range (R124). -/
theorem msbRises_eq_decide (prev next : Accumulator) :
    msbRises prev next = decide (prev.toNat < 0x800000 ∧ 0x800000 ≤ next.toNat) := by
  have hbit : ∀ x : Accumulator, x.getLsbD 23 = decide (0x800000 ≤ x.toNat) := BitVec.msb_eq_decide
  simp only [msbRises, hbit, Bool.decide_and, ← decide_not, Nat.not_le]

/-- Bit 19 rises (R125). -/
theorem noiseClockRises_iff (prev next : Accumulator) :
    noiseClockRises prev next = true ↔ prev.toNat / 2 ^ 19 % 2 = 0 ∧ next.toNat / 2 ^ 19 % 2 = 1 := by
  have hbit : ∀ x : Accumulator, x.getLsbD 19 = decide (x.toNat / 2 ^ 19 % 2 = 1) :=
    fun _ => Nat.testBit_eq_decide_div_mod_eq
  simp only [noiseClockRises, hbit, Bool.and_eq_true, Bool.not_eq_true', decide_eq_true_eq, decide_eq_false_iff_not,
    Nat.mod_two_ne_one]

/-- Steps 1 to 4 of CLOCK, as arithmetic on the accumulator (R123). -/
theorem advanceOsc_eq {next : Nat} (h : next = (o.accumulator.toNat + o.frequency.toNat) % 2 ^ 24) : advanceOsc o =
    { o with
      accumulator := BitVec.ofNat 24 next
      msbRising := decide (o.accumulator.toNat < 0x800000 ∧ 0x800000 ≤ next) } := by
  rw [← advance_toNat] at h
  rw [advanceOsc, msbRises_eq_decide, h, BitVec.ofNat_toNat, BitVec.setWidth_eq]

end Arithmetic

/-! ### CLOCK on one oscillator -/

section Osc
variable {S N : Type} (cfg : Cfg S N) (m : ChipModel) {o : OscOf S} {r : NoiseReg}

/-- The noise step, from the register it leaves (R140). -/
theorem noiseStep_eq (h : noiseClear cfg.noiseTaps o.waveformSelect (noiseShift o.noiseShiftRegister) = r) :
    noiseStep cfg m o = { o with
      noiseShiftRegister := r
      cachedNoiseSample := noiseWord cfg.noiseTaps r
      cachedNoiseVoltage := noiseDac cfg.toAnalog m o.zeroLevelVoltage (noiseWord cfg.noiseTaps r) } := by
  rw [noiseStep, noiseRecompute_eq, h]

/-- The countdown where it does not run out (R122). -/
theorem countDown_of_ne_one (h : o.noiseOverwriteDelay ≠ 1) :
    countDown cfg m o = { o with noiseOverwriteDelay := o.noiseOverwriteDelay - 1 } := by
  unfold countDown
  split
  next h0 => rw [show o.noiseOverwriteDelay - 1 = o.noiseOverwriteDelay by omega]
  next h1 => exact absurd h1 h
  next n hn => simp [hn]

/-- The countdown where it runs out, from the register that the force leaves (R122, R147). -/
theorem countDown_of_eq_one (h : o.noiseOverwriteDelay = 1)
    (hr : forcedRegister cfg.toCfgDigital o.waveformSelect o.noiseShiftRegister = r) : countDown cfg m o =
    { o with
      noiseOverwriteDelay := 0
      noiseShiftRegister := r
      cachedNoiseSample := noiseWord cfg.noiseTaps r
      cachedNoiseVoltage := noiseDac cfg.toAnalog m o.zeroLevelVoltage (noiseWord cfg.noiseTaps r) } := by
  simp only [countDown, h, noiseForce, noiseRecompute_eq, hr]

/-- CLOCK under test: the flag, then the countdown (R121, D12). -/
theorem clockOsc_of_testHeld (ht : o.testHeld = true) : clockOsc cfg m o = countDown cfg m
    { o with msbRising := if cfg.msbStaleUnderTest = true then o.msbRising else false } := by
  simp [clockOsc, ht, clockHeld, msbUnderTest]

/-- CLOCK under test where the countdown does not run out. -/
theorem clockOsc_of_testHeld_of_ne_one (ht : o.testHeld = true) (h : o.noiseOverwriteDelay ≠ 1) : clockOsc cfg m o =
    { o with
      msbRising := if cfg.msbStaleUnderTest = true then o.msbRising else false
      noiseOverwriteDelay := o.noiseOverwriteDelay - 1 } :=
  (clockOsc_of_testHeld cfg m ht).trans (countDown_of_ne_one cfg m h)

/-- CLOCK under test where the countdown runs out. -/
theorem clockOsc_of_testHeld_of_eq_one (ht : o.testHeld = true) (h : o.noiseOverwriteDelay = 1)
    (hr : forcedRegister cfg.toCfgDigital o.waveformSelect o.noiseShiftRegister = r) : clockOsc cfg m o =
    { o with
      msbRising := if cfg.msbStaleUnderTest = true then o.msbRising else false
      noiseOverwriteDelay := 0
      noiseShiftRegister := r
      cachedNoiseSample := noiseWord cfg.noiseTaps r
      cachedNoiseVoltage := noiseDac cfg.toAnalog m o.zeroLevelVoltage (noiseWord cfg.noiseTaps r) } :=
  (clockOsc_of_testHeld cfg m ht).trans (countDown_of_eq_one cfg m h hr)

theorem clockOsc_of_not_noiseClockRises (h : o.testHeld = false)
    (hn : ¬ noiseClockRises o.accumulator (advance o) = true) : clockOsc cfg m o = advanceOsc o := by
  simp [clockOsc, h, clockRunning, hn]

theorem clockOsc_of_noiseClockRises (h : o.testHeld = false)
    (hn : noiseClockRises o.accumulator (advance o) = true) :
    clockOsc cfg m o = noiseStep cfg m (advanceOsc o) := by
  simp [clockOsc, h, clockRunning, hn]

end Osc

/-- A legal CLOCK completes; the sequencer apart, it replaces the record of its oscillator (R120). -/
theorem exec_clock_eq {s : State} {v : Nat} {o : Osc} (h : MicroReady s v o) (hl : ClockLegal s v) :
    ∃ q, exec (.clock v) s = .next { s.withOsc v (clockOsc s.cfg.toCfg s.model o) with seq := q } := by
  obtain ⟨q, hq⟩ := clockLegal_iff.mp hl
  refine ⟨q, ?_⟩
  rw [← modifyOsc_eq_withOsc _ h.record]
  exact exec_next_iff.mpr ⟨perform_clock_iff.mpr ⟨h.voice, h.afterReset, q, hq, rfl⟩, rfl⟩

/-! ### The obligations -/

/-- Settles O21: CLOCK with test off, split on the edge of bit 19. -/
theorem clockAdvancesThePhase : Obligations.ClockAdvancesThePhase := by
  intro s v o next r hready hlegal htest hnext hr
  obtain ⟨q, hq⟩ := exec_clock_eq hready hlegal
  have hrises := noiseClockRises_iff o.accumulator (advance o)
  rw [advance_toNat, ← hnext] at hrises
  refine ⟨q, fun h => ?_, fun h => ?_⟩
  · rw [hq, clockOsc_of_not_noiseClockRises _ _ htest (hrises.not.mpr h), advanceOsc_eq o hnext]
  · rw [hq, clockOsc_of_noiseClockRises _ _ htest (hrises.mpr h), noiseStep_eq _ _ (noiseClear_noiseShift_eq hr),
      advanceOsc_eq o hnext]

/-- Settles O22: CLOCK with test on, split on the countdown. -/
theorem clockUnderTestCountsDown : Obligations.ClockUnderTestCountsDown := by
  intro s v o r hready hlegal htest hr
  obtain ⟨q, hq⟩ := exec_clock_eq hready hlegal
  refine ⟨q, fun h => ?_, fun h => ?_⟩
  · rw [hq, clockOsc_of_testHeld_of_ne_one _ _ htest h]
  · rw [hq, clockOsc_of_testHeld_of_eq_one _ _ htest h (forcedRegister_eq hr)]

end Sys2Proof.Machine
end

section
/-! PROOFS. The noise generator. The register comes from the bit lemmas of the CLOCK part. The noise word places the taps
one after another (`placeTap`), so it is known bit by bit (`noiseWord_bit_iff`) and, for distinct word bits, as a sum
(`noiseWord_toNat`). The noise DAC is cut at any bit number (`noiseDacBelow`), and each cut adds one weight. -/

namespace Sys2Proof.Machine

/-! ### The register after the force -/

/-- The clear of an OR is the OR of the clears: a mask bit that the clear keeps stays set (R143, R147). -/
theorem noiseClear_or (taps : List (Fin 23 × Fin 12)) (c : Nibble) (r mask : NoiseReg) :
    noiseClear taps c (r ||| mask) = noiseClear taps c r ||| noiseClear taps c mask := by
  unfold noiseClear
  split_ifs
  · exact BitVec.and_or_distrib_right
  · rfl

/-- The constraints of R148: a mask that is nonzero, and nonzero outside the taps where the force clears them. -/
theorem forcedRegister_ne_zero {cfg : CfgDigital} (c : Nibble) (r : NoiseReg) (hmask : cfg.testForceMask ≠ 0#23)
    (hclear : cfg.forceAppliesClear = true → cfg.testForceMask &&& ~~~ noiseClearMask cfg.noiseTaps ≠ 0#23) :
    forcedRegister cfg c r ≠ 0#23 := by
  unfold forcedRegister
  split_ifs with hs
  · intro h
    have hzero : noiseClear cfg.noiseTaps c cfg.testForceMask = 0#23 := by
      rw [noiseClear_or, BitVec.or_eq_zero_iff] at h
      exact h.2
    unfold noiseClear at hzero
    split_ifs at hzero
    · exact hclear hs hzero
    · exact hmask hzero
  · exact fun h => hmask (BitVec.or_eq_zero_iff.mp h).2

/-! ### The noise word -/

/-- The part of one tap in the noise word (R144). -/
def placeTap (r : NoiseReg) (acc : Word12) (t : Fin 23 × Fin 12) : Word12 :=
  if r.getLsbD t.1.val then acc ||| BitVec.twoPow 12 t.2.val else acc

theorem noiseWord_eq_foldl_placeTap (taps : List (Fin 23 × Fin 12)) (r : NoiseReg) :
    noiseWord taps r = taps.foldl (placeTap r) 0#12 := rfl

section Word
variable (taps : List (Fin 23 × Fin 12)) (r : NoiseReg) (acc : Word12) (t : Fin 23 × Fin 12) (i : Nat)

theorem placeTap_bit_iff : (placeTap r acc t).getLsbD i = true ↔
    acc.getLsbD i = true ∨ t.2.val = i ∧ r.getLsbD t.1.val = true := by
  unfold placeTap
  split_ifs with h
  · rw [BitVec.getLsbD_or, BitVec.getLsbD_twoPow, Bool.or_eq_true]
    simp only [t.2.isLt, decide_true, Bool.true_and, decide_eq_true_eq, h, and_true]
  · simp only [h, Bool.false_eq_true, and_false, or_false]

/-- A tap whose word bit is still 0 adds its register bit at that place. -/
theorem placeTap_toNat (h : acc.getLsbD t.2.val = false) :
    (placeTap r acc t).toNat = acc.toNat + r.toNat / 2 ^ t.1.val % 2 * 2 ^ t.2.val := by
  have hbit : r.toNat / 2 ^ t.1.val % 2 = (r.getLsbD t.1.val).toNat := (Nat.toNat_testBit ..).symm
  have hdisjoint : acc &&& BitVec.twoPow 12 t.2.val = 0#12 := by
    rw [BitVec.and_twoPow, h, if_neg Bool.false_ne_true]
  unfold placeTap
  split_ifs with hr
  · rw [hbit, hr, ← BitVec.add_eq_or_of_and_eq_zero _ _ hdisjoint, BitVec.toNat_add_of_and_eq_zero hdisjoint,
      BitVec.toNat_twoPow_of_lt t.2.isLt, Bool.toNat_true, Nat.one_mul]
  · rw [hbit, Bool.eq_false_of_not_eq_true hr, Bool.toNat_false, Nat.zero_mul, Nat.add_zero]

theorem foldl_placeTap_bit_iff : (taps.foldl (placeTap r) acc).getLsbD i = true ↔
    acc.getLsbD i = true ∨ ∃ p ∈ taps, p.2.val = i ∧ r.getLsbD p.1.val = true := by
  induction taps generalizing acc with
  | nil => simp
  | cons t taps ih => rw [List.foldl_cons, ih, placeTap_bit_iff, List.exists_mem_cons_iff, or_assoc]

/-- The bits of the noise word (R144). -/
theorem noiseWord_bit_iff : (noiseWord taps r).getLsbD i = true ↔
    ∃ p ∈ taps, p.2.val = i ∧ r.getLsbD p.1.val = true := by
  rw [noiseWord_eq_foldl_placeTap, foldl_placeTap_bit_iff, BitVec.getLsbD_zero]
  simp only [Bool.false_eq_true, false_or]

variable {taps r acc t i}

/-- Where the register has no tap bit the noise word is 0. -/
theorem noiseWord_eq_zero (h : ∀ p ∈ taps, r.getLsbD p.1.val = false) : noiseWord taps r = 0#12 := by
  refine BitVec.eq_of_getLsbD_eq fun i _ => ?_
  rw [BitVec.getLsbD_zero, ← Bool.not_eq_true, noiseWord_bit_iff]
  rintro ⟨p, hp, -, hr⟩
  exact Bool.false_ne_true ((h p hp).symm.trans hr)

theorem foldl_placeTap_toNat (hnodup : (taps.map Prod.snd).Nodup) (hacc : ∀ p ∈ taps, acc.getLsbD p.2.val = false) :
    (taps.foldl (placeTap r) acc).toNat =
      acc.toNat + (taps.map fun p => r.toNat / 2 ^ p.1.val % 2 * 2 ^ p.2.val).sum := by
  induction taps generalizing acc with
  | nil => simp
  | cons t taps ih =>
    obtain ⟨htnew, hrest⟩ := List.nodup_cons.mp hnodup
    obtain ⟨ht, htaps⟩ := List.forall_mem_cons.mp hacc
    have hplaced : ∀ p ∈ taps, (placeTap r acc t).getLsbD p.2.val = false := by
      intro p hp
      rw [← Bool.not_eq_true, placeTap_bit_iff, htaps p hp]
      rintro (h | ⟨h, -⟩)
      · exact Bool.false_ne_true h
      · exact htnew (Fin.ext h ▸ List.mem_map_of_mem hp)
    rw [List.foldl_cons, ih hrest hplaced, placeTap_toNat r acc t ht, List.map_cons, List.sum_cons, Nat.add_assoc]

/-- The noise word as a number, for distinct word bits (R77, R144). -/
theorem noiseWord_toNat (hnodup : (taps.map Prod.snd).Nodup) :
    (noiseWord taps r).toNat = (taps.map fun p => r.toNat / 2 ^ p.1.val % 2 * 2 ^ p.2.val).sum := by
  rw [noiseWord_eq_foldl_placeTap, foldl_placeTap_toNat hnodup fun _ _ => BitVec.getLsbD_zero, BitVec.toNat_zero,
    Nat.zero_add]

end Word

/-! ### The noise DAC -/

section Dac
variable {S N : Type} (a : Analog S N) (m : ChipModel) (zero : S)

/-- The noise DAC over the word bits below `n` only (R145). -/
def noiseDacBelow (n : Nat) (w : Word12) : S :=
  (List.range n).foldl (fun acc i => if w.getLsbD i then a.add acc (dacRead a m i) else acc) zero

theorem noiseDac_eq_noiseDacBelow (w : Word12) : noiseDac a m zero w = noiseDacBelow a m zero 12 w := rfl

theorem noiseDacBelow_succ (n : Nat) (w : Word12) : noiseDacBelow a m zero (n + 1) w =
    if w.getLsbD n then a.add (noiseDacBelow a m zero n w) (dacRead a m n) else noiseDacBelow a m zero n w := by
  simp only [noiseDacBelow, List.range_succ, List.foldl_append, List.foldl_cons, List.foldl_nil]

theorem noiseDacBelow_congr {n : Nat} {w x : Word12} (h : ∀ i, i < n → w.getLsbD i = x.getLsbD i) :
    noiseDacBelow a m zero n w = noiseDacBelow a m zero n x :=
  List.foldl_ext _ _ _ fun acc i hi => by rw [h i (List.mem_range.mp hi)]

/-- Clear bits add nothing: the noise DAC stops at the highest set bit. -/
theorem noiseDacBelow_of_bits_false {n k : Nat} {w : Word12} (hnk : n ≤ k) (h : ∀ i, n ≤ i → w.getLsbD i = false) :
    noiseDacBelow a m zero k w = noiseDacBelow a m zero n w := by
  induction k, hnk using Nat.le_induction with
  | base => rfl
  | succ k hk ih => rw [noiseDacBelow_succ, h k hk, if_neg Bool.false_ne_true, ih]

theorem noiseDac_zero : noiseDac a m zero 0#12 = zero :=
  noiseDacBelow_of_bits_false a m zero (Nat.zero_le 12) fun _ _ => BitVec.getLsbD_zero

end Dac

/-! ### The cache after the noise step -/

section Cache
variable {S N : Type} (cfg : Cfg S N) (m : ChipModel) (o : OscOf S)

theorem noiseStep_sample : (noiseStep cfg m o).cachedNoiseSample =
    noiseWord cfg.noiseTaps (noiseStep cfg m o).noiseShiftRegister := rfl

theorem noiseStep_voltage : (noiseStep cfg m o).cachedNoiseVoltage = noiseDac cfg.toAnalog m o.zeroLevelVoltage
    (noiseWord cfg.noiseTaps (noiseStep cfg m o).noiseShiftRegister) := rfl

end Cache

/-! ### The obligations -/

/-- Settles O23: the register bit by bit; its cleared taps make the noise word 0, and the noise DAC of 0 adds nothing. -/
theorem combinedCodeClearsTheTaps : Obligations.CombinedCodeClearsTheTaps := by
  intro S N cfg m o shifted hshifted
  obtain rfl : shifted = noiseShift o.noiseShiftRegister :=
    BitVec.eq_of_getLsbD_eq fun i hi => (hshifted i hi).trans (noiseShift_bit _ i hi).symm
  refine ⟨fun hcode => ?_, fun hcode => if_neg (Nat.not_lt.mpr hcode)⟩
  have hbits : ∀ i, i < 23 → (noiseStep cfg m o).noiseShiftRegister.getLsbD i =
      if ∃ p ∈ cfg.noiseTaps, p.1.val = i then false else (noiseShift o.noiseShiftRegister).getLsbD i := by
    intro i hi
    simp only [noiseStep_register, noiseClear_bit _ _ _ hi, hcode, true_and]
  have hword : noiseWord cfg.noiseTaps (noiseStep cfg m o).noiseShiftRegister = 0#12 :=
    noiseWord_eq_zero fun p hp => (hbits p.1.val p.1.isLt).trans (if_pos ⟨p, hp, rfl⟩)
  refine ⟨hbits, ?_, ?_⟩
  · rw [noiseStep_sample, hword]
  · rw [noiseStep_voltage, hword, noiseDac_zero]

/-- Settles O24: a mask bit that no tap clears stays set. -/
theorem forcedRegisterIsNotZero : Obligations.ForcedRegisterIsNotZero :=
  ⟨fun _ _ _ _ _ hmask hclear => forcedRegister_ne_zero _ _ hmask hclear, by decide, by decide⟩

/-- Settles O25: the word bit by bit, and as the sum over the taps of the default map. -/
theorem noiseWordTakesTheTaps : Obligations.NoiseWordTakesTheTaps := by
  refine ⟨fun taps r hnodup => ⟨fun p hp => ?_, fun i _ hi => ?_⟩, fun r => ?_⟩
  · rw [Bool.eq_iff_iff, noiseWord_bit_iff]
    refine ⟨fun ⟨q, hq, hqp, hr⟩ => ?_, fun hr => ⟨p, hp, rfl, hr⟩⟩
    rwa [← List.inj_on_of_nodup_map hnodup hq hp (Fin.ext hqp)]
  · rw [← Bool.not_eq_true, noiseWord_bit_iff]
    exact fun ⟨p, hp, hpi, _⟩ => hi p hp hpi
  · rw [noiseWord_toNat (by decide)]
    simp [defaultTaps, Nat.add_assoc]

/-- Settles O27: both DACs stop at the highest set bit, below which the two words agree. -/
theorem noiseDacAddsAscendingWeights : Obligations.NoiseDacAddsAscendingWeights := by
  refine fun S N a m zero => ⟨noiseDac_zero a m zero, fun w rest k hk hset habove hrest => ?_⟩
  have hclear : ∀ i, k ≤ i → rest.getLsbD i = false := by
    intro i hi
    rcases Nat.eq_or_lt_of_le hi with rfl | hlt
    · simp [hrest]
    · simp [hrest, habove i hlt]
  have hagree : ∀ i, i < k → w.getLsbD i = rest.getLsbD i := fun i hi => by simp [hrest, Nat.ne_of_lt hi]
  calc noiseDac a m zero w
      = noiseDacBelow a m zero (k + 1) w := noiseDacBelow_of_bits_false a m zero hk fun i hi => habove i hi
    _ = a.add (noiseDacBelow a m zero k w) (dacRead a m k) := by rw [noiseDacBelow_succ, if_pos hset]
    _ = a.add (noiseDacBelow a m zero k rest) (dacRead a m k) := by rw [noiseDacBelow_congr a m zero hagree]
    _ = a.add (noiseDac a m zero rest) (dacRead a m k) := by
      rw [noiseDac_eq_noiseDacBelow, noiseDacBelow_of_bits_false a m zero hk.le hclear]

end Sys2Proof.Machine
end

section
/-! PROOFS. SYNCHRONIZE. A legal SYNCHRONIZE replaces the record of its destination by that record with the accumulator
cleared, exactly where the condition of R161 holds (`exec_synchronize_eq`); one stays legal after another oscillator's.
Both obligations run on the first lemma, mutual sync twice. -/

namespace Sys2Proof.Machine

/-! ### The wiring -/

theorem srcOf_eq_of_getElem? {c : CfgDigital} {v a : Nat} (h : c.src[v]? = some a) : srcOf c v = a := by
  simp [srcOf, List.getD_eq_getElem?_getD, h]

theorem dstOf_eq_of_getElem? {c : CfgDigital} {v b : Nat} (h : c.dst[v]? = some b) : dstOf c v = b := by
  simp [dstOf, List.getD_eq_getElem?_getD, h]

/-! ### One SYNCHRONIZE -/

/-- The record of the destination after a SYNCHRONIZE of `o` (R161). -/
def syncedDest {S : Type} (o dest source : OscOf S) : OscOf S :=
  if syncResets o dest source then clearAccumulator dest else dest

section Synced
variable {S : Type} {o dest source : OscOf S}

theorem syncedDest_of_resets
    (h : o.msbRising = true ∧ dest.syncEnabled = true ∧ ¬ (o.syncEnabled = true ∧ source.msbRising = true)) :
    syncedDest o dest source = { dest with accumulator := 0#24 } :=
  if_pos ((syncResets_iff ..).mpr h)

theorem syncedDest_of_not_resets
    (h : ¬ (o.msbRising = true ∧ dest.syncEnabled = true ∧ ¬ (o.syncEnabled = true ∧ source.msbRising = true))) :
    syncedDest o dest source = dest :=
  if_neg ((syncResets_iff ..).not.mpr h)

/-- The exclusion of R161: an oscillator whose own source rises resets nothing. -/
theorem syncedDest_of_excluded (h : o.syncEnabled = true ∧ source.msbRising = true) :
    syncedDest o dest source = dest :=
  syncedDest_of_not_resets fun hresets => hresets.2.2 h

@[simp] theorem syncedDest_syncEnabled : (syncedDest o dest source).syncEnabled = dest.syncEnabled := by
  unfold syncedDest; split_ifs <;> rfl

end Synced

/-- A SYNCHRONIZE that the sequencer allows completes; the sequencer apart, it replaces the record of the destination
(R161). -/
theorem exec_synchronize_eq {s : State} {v a b : Nat} {o source dest : Osc} {q : Sequencer} (h : MicroReady s v o)
    (hq : seqSync s.cfg.nvoices v s.seq = some q) (hsrc : s.cfg.src[v]? = some a) (hdst : s.cfg.dst[v]? = some b)
    (ha : s.oscs[a]? = some source) (hb : s.oscs[b]? = some dest) :
    exec (.synchronize v) s = .next { s.withOsc b (syncedDest o dest source) with seq := q } := by
  have hsync : { s with toStateOf := syncVoice s.cfg.toCfg s.toStateOf v } =
      s.withOsc b (syncedDest o dest source) := by
    rw [syncVoice_eq, dstOf_eq_of_getElem? hdst, srcOf_eq_of_getElem? hsrc, readOsc_eq_of_getElem? h.record,
      readOsc_eq_of_getElem? ha, readOsc_eq_of_getElem? hb, modifyOsc_eq_withOsc _ hb, syncedDest]
    split_ifs <;> rfl
  rw [← hsync]
  exact exec_next_iff.mpr ⟨perform_synchronize_iff.mpr ⟨h.voice, h.afterReset, q, hq, rfl⟩, rfl⟩

/-- Under the exclusion a SYNCHRONIZE changes the sequencer only (R161). -/
theorem exec_synchronize_of_excluded {s : State} {v a b : Nat} {o source dest : Osc} {q : Sequencer}
    (h : MicroReady s v o) (hq : seqSync s.cfg.nvoices v s.seq = some q) (hsrc : s.cfg.src[v]? = some a)
    (hdst : s.cfg.dst[v]? = some b) (ha : s.oscs[a]? = some source) (hb : s.oscs[b]? = some dest)
    (he : o.syncEnabled = true ∧ source.msbRising = true) : exec (.synchronize v) s = .next { s with seq := q } := by
  rw [exec_synchronize_eq h hq hsrc hdst ha hb, syncedDest_of_excluded he, withOsc_self hb]

/-- SYNCHRONIZE `u` stays legal after the SYNCHRONIZE of another oscillator (R221). -/
theorem seqSync_some_after {n v u : Nat} {q q' : Sequencer} (hne : v ≠ u) (hv : seqSync n v q = some q')
    (hu : ∃ r, seqSync n u q = some r) : ∃ r, seqSync n u q' = some r := by
  obtain ⟨r, hr⟩ := hu
  obtain ⟨l, -, -, rfl⟩ | ⟨l, rfl, -, rfl⟩ := seqSync_some_iff.mp hv
  · exact ⟨_, seqSync_some_iff.mpr (.inr ⟨_, rfl, by simp [hne.symm], rfl⟩)⟩
  · obtain ⟨_, ⟨⟩, -⟩ | ⟨_, ⟨⟩, hul, -⟩ := seqSync_some_iff.mp hr
    exact ⟨_, seqSync_some_iff.mpr (.inr ⟨_, rfl, by simp [hne.symm, hul], rfl⟩)⟩

/-! ### The obligations -/

/-- Settles O31: the record of the destination, split on the condition of R161. -/
theorem synchronizeResetsTheDestination : Obligations.SynchronizeResetsTheDestination := by
  intro s v a b o source dest hready hlegal hsrc hdst ha hb
  obtain ⟨q, hq⟩ := syncLegal_iff.mp hlegal
  have hexec := exec_synchronize_eq hready hq hsrc hdst ha hb
  refine ⟨q, fun h => ?_, fun h => ?_⟩
  · rw [hexec, syncedDest_of_resets h]
  · rw [hexec, syncedDest_of_not_resets h, withOsc_self hb]

/-- Settles O33: the second SYNCHRONIZE always meets the exclusion, for its own sync is enabled and its source rises; the
first meets it exactly where its own sync is enabled too. -/
theorem mutualSyncResetsNeither : Obligations.MutualSyncResetsNeither := by
  intro s v u o p hne hv hu hlegalv hlegalu hsrcv hdstv hsrcu hdstu ho hp hpsync
  obtain ⟨q, hq⟩ := syncLegal_iff.mp hlegalv
  obtain ⟨r, hr⟩ := seqSync_some_after hne hq (syncLegal_iff.mp hlegalu)
  have hrecord : (s.withOsc u (syncedDest o p p)).oscs[u]? = some (syncedDest o p p) := by
    obtain ⟨hlt, -⟩ := List.getElem?_eq_some_iff.mp hu.record
    exact List.getElem?_set_self hlt
  have hother : (s.withOsc u (syncedDest o p p)).oscs[v]? = some o :=
    (List.getElem?_set_ne hne.symm).trans hv.record
  have hexcluded : (syncedDest o p p).syncEnabled = true ∧ o.msbRising = true := ⟨by simp [hpsync], ho⟩
  have hrun : runInstrs [.synchronize v, .synchronize u] s =
      .next { s.withOsc u (syncedDest o p p) with seq := r } :=
    calc runInstrs [.synchronize v, .synchronize u] s
        = runInstrs [.synchronize u] { s.withOsc u (syncedDest o p p) with seq := q } :=
          runInstrs_cons_next (exec_synchronize_eq hv hq hsrcv hdstv hu.record hu.record)
      _ = runInstrs [] { s.withOsc u (syncedDest o p p) with seq := r } :=
          runInstrs_cons_next (exec_synchronize_of_excluded ⟨hu.afterReset, hu.voice, hrecord⟩ hr hsrcu hdstu hother
            hother hexcluded)
      _ = .next { s.withOsc u (syncedDest o p p) with seq := r } := rfl
  refine ⟨r, fun hosync => ?_, fun hosync => ?_⟩
  · rw [hrun, syncedDest_of_excluded ⟨hosync, hp⟩, withOsc_self hu.record]
  · rw [hrun, syncedDest_of_resets ⟨ho, hpsync, by simp [hosync]⟩]

end Sys2Proof.Machine
end

section
/-! PROOFS. OUTPUT. A legal OUTPUT returns `Out(v)`, which its latch takes (`exec_output_eq`); what `Out(v)` is for each
waveform code is said by the lemmas `outOf_…`. For the table lookup, the index and the page are arithmetic on the
phase. -/

namespace Sys2Proof.Machine

/-! ### The index and the page as arithmetic -/

theorem phaseOf_toNat (acc : Accumulator) : (phaseOf acc).toNat = acc.toNat / 0x1000 := by
  have := acc.isLt
  simp [phaseOf, Nat.shiftRight_eq_div_pow]
  omega

/-- Inverting the top bit of an index adds half of the range, modulo the range (R180). -/
theorem xor_topBit_eq_ofNat (p : Word12) : p ^^^ 0x800#12 = BitVec.ofNat 12 (p.toNat + 0x800) := by
  refine BitVec.eq_of_getLsbD_eq fun i hi => ?_
  have hsum : (BitVec.ofNat 12 (p.toNat + 0x800)).getLsbD i = (2 ^ 11 + p.toNat).testBit i := by
    rw [BitVec.getLsbD_ofNat, Nat.add_comm]
    simp [hi]
  have hxor : (p ^^^ 0x800#12).getLsbD i = (p.getLsbD i ^^ decide (i = 11)) := by
    rw [BitVec.getLsbD_xor, show 0x800#12 = BitVec.twoPow 12 11 from rfl, BitVec.getLsbD_twoPow]
    simp [eq_comm]
  rw [hsum, hxor]
  rcases Nat.lt_succ_iff_lt_or_eq.mp hi with hlow | rfl
  · rw [Nat.testBit_two_pow_add_gt hlow, decide_eq_false (Nat.ne_of_lt hlow), Bool.xor_false]
    rfl
  · rw [Nat.testBit_two_pow_add_eq, decide_eq_true rfl, Bool.xor_true]
    rfl

section Osc
variable {S : Type} {o source : OscOf S} {phase : Nat}

/-- The ring-modulation condition: an odd code is one with the triangle bit (R180). -/
theorem ringActive_iff : ringActive o source = true ↔
    o.waveformSelect.toNat % 2 = 1 ∧ o.ringModEnabled = true ∧ 0x800000 ≤ source.accumulator.toNat := by
  have htriangle : o.waveformSelect.getLsbD 0 = decide (o.waveformSelect.toNat % 2 = 1) := Nat.testBit_zero _
  have htop : source.accumulator.getLsbD 23 = decide (0x800000 ≤ source.accumulator.toNat) :=
    BitVec.msb_eq_decide source.accumulator
  simp only [ringActive, htriangle, htop, Bool.and_eq_true, decide_eq_true_eq, and_assoc]

/-- The table index as a number (R76, R180). -/
theorem romIndex_eq_ofNat (h : phase = o.accumulator.toNat / 0x1000) : romIndex o source = BitVec.ofNat 12
    (if o.waveformSelect.toNat % 2 = 1 ∧ o.ringModEnabled = true ∧ 0x800000 ≤ source.accumulator.toNat
      then (phase + 0x800) % 0x1000 else phase) := by
  rw [← phaseOf_toNat] at h
  simp only [romIndex, ringActive_iff, h]
  split_ifs
  · rw [xor_topBit_eq_ofNat]
    exact BitVec.eq_of_toNat_eq (by simp)
  · rw [BitVec.ofNat_toNat, BitVec.setWidth_eq]

/-- The pulse level, on the phase as a number (R181). -/
theorem pulseHigh_iff (h : phase = o.accumulator.toNat / 0x1000) :
    pulseHigh o = true ↔ o.testHeld = true ∨ o.pulseWidth.toNat ≤ phase := by
  rw [pulseHigh, Bool.or_eq_true, decide_eq_true_eq, phaseOf_toNat, h]

end Osc

/-- The page, by the codes without the pulse bit and the codes with it (R75, R182). -/
theorem pageNumber_eq (c : Nat) (high : Bool) :
    pageNumber c high = if c ≤ 3 then c - 1 else if high = true then c + 3 else c - 1 := by
  rcases Nat.lt_or_ge 3 c with h | h
  · simp [pageNumber, show 4 ≤ c from h, Nat.not_le.mpr h]
  · simp [pageNumber, h, show ¬ 4 ≤ c by omega]

/-- The codes 1 to 7 name the pages 0 to 10 (R75). -/
theorem pageNumber_le {c : Nat} (h : c ≤ 7) (high : Bool) : pageNumber c high ≤ 10 := by
  unfold pageNumber
  split_ifs <;> omega

/-! ### One OUTPUT -/

/-- A legal OUTPUT completes; the sequencer apart, its latch takes the sample it returns (R175, R184). -/
theorem exec_output_eq {s : State} {v : Nat} {o : Osc} {y : Sample} (h : MicroReady s v o) (hl : OutputLegal s v)
    (hy : outOf s.cfg.toCfg s.toStateOf v = y) :
    ∃ q, exec (.output v) s = .next { s.withOsc v { o with previousOutputVoltage := y } with
      results := s.results ++ [.sample v y], seq := q } := by
  obtain ⟨q, hq⟩ := outputLegal_iff.mp hl
  have hosc : { s with toStateOf := s.toStateOf.modifyOsc v (latch y) } =
      s.withOsc v { o with previousOutputVoltage := y } := modifyOsc_eq_withOsc (latch y) h.record
  subst hy
  rw [← hosc]
  exact ⟨q, exec_next_iff.mpr ⟨perform_output_iff.mpr ⟨h.voice, h.afterReset, q, hq, rfl⟩, rfl⟩⟩

/-! ### The obligations -/

/-- Settles O36: the sample of each code that reads no table. -/
theorem outputWithoutTable : Obligations.OutputWithoutTable := by
  intro s v o y hready hlegal hcode
  refine exec_output_eq hready hlegal ?_
  obtain rfl : readOsc s.cfg.toCfg s.toStateOf v = o := readOsc_eq_of_getElem? hready.record
  rcases hcode with ⟨hc, rfl⟩ | ⟨hc, rfl⟩ | ⟨hc, rfl⟩
  · exact outOf_hold _ _ _ hc
  · exact outOf_noise _ _ _ hc
  · exact outOf_collapsed _ _ _ hc

/-- Settles O37: the page and the index of the lookup, as arithmetic on the phase. -/
theorem outputReadsTheTable : Obligations.OutputReadsTheTable := by
  intro s v a o source phase idx page hready hlegal hsrc hsource h1 h7 hphase hidx hpage
  have hpageNumber : page = pageNumber o.waveformSelect.toNat (pulseHigh o) := by
    simp only [hpage, pageNumber_eq, pulseHigh_iff hphase]
  have hindex : romIndex o source = BitVec.ofNat 12 idx := by rw [romIndex_eq_ofNat hphase, hidx]
  refine ⟨hpageNumber ▸ pageNumber_le h7 _, exec_output_eq hready hlegal ?_⟩
  obtain rfl : readOsc s.cfg.toCfg s.toStateOf v = o := readOsc_eq_of_getElem? hready.record
  rw [outOf_table _ _ _ h1 h7, srcOf_eq_of_getElem? hsrc, readOsc_eq_of_getElem? hsource, waveOut, hpageNumber, hindex]

end Sys2Proof.Machine
end

section
/-! PROOFS. CONFIG. Outside `IDLE` it is refused; in `IDLE` it leads to `configState`, which is the state itself where
the values written are those in force. -/

namespace Sys2Proof.Machine

section Relation
variable {S N : Type} {cfg : Cfg S N} {s : StateOf S N}

/-- R222 for CONFIG. -/
theorem perform_config_refused {m : ChipModel} {nl : N} (h : s.seq ≠ .idle) :
    perform cfg (.config m nl) s = .refused .outOfSequence :=
  if_neg h

/-- Writing the zero levels that stand is no change (R205, R207). -/
theorem map_setZeroLevel_eq_self (h : ConfiguredOf cfg s) :
    s.oscs.map (setZeroLevel (zeroLevelOf cfg.toAnalog s.model)) = s.oscs :=
  calc s.oscs.map (setZeroLevel (zeroLevelOf cfg.toAnalog s.model))
      = s.oscs.map id := List.map_congr_left fun o ho => by rw [setZeroLevel, ← h o ho, id]
    _ = s.oscs := List.map_id _

/-- CONFIG with the values in force changes nothing (R205). -/
theorem configState_eq_self (h : ConfiguredOf cfg s) : configState s.model s.nl cfg s = s := by
  rw [configState, map_setZeroLevel_eq_self h]

end Relation

/-- The word of CONFIG as a number (R86). -/
theorem encodeWord_config_toNat {N : Type} (m : ChipModel) (nl : N) :
    (encodeWord (.config m nl)).toNat = if m = .model0 then 0x80000 else 0x80100 := by
  cases m <;> rfl

/-- Settles O44: the word per chip model, then the two cases of the sequencer; where the levels stand, `configState`
is the state itself. -/
theorem configSetsTheConfiguration : Obligations.ConfigSetsTheConfiguration := by
  intro s m nl
  refine ⟨encodeWord_config_toNat m nl, rfl, fun hbusy => ?_, fun hidle => ?_, fun hidle hlevels => ?_⟩
  · exact exec_refused_iff.mpr (perform_config_refused hbusy)
  · exact exec_next_iff.mpr ⟨perform_config_iff.mpr ⟨hidle, rfl⟩, rfl⟩
  · exact exec_next_iff.mpr ⟨perform_config_iff.mpr ⟨hidle, (configState_eq_self hlevels).symm⟩, rfl⟩

end Sys2Proof.Machine
end

section
/-! PROOFS. The sequencer. The writes of all sixteen selects are one operation (`perform_decodeWrite`), so that an
operation of the host is one of two: admitted by `hostVoiceOp`, or CONFIG. The transition of a micro-operation is known by
the members of its set (`seqClock_some_members` and the two after it), and for all three the sequencer alone decides
between a next state and the refusal (`exec_micro_next`, `exec_micro_refused`). -/

namespace Sys2Proof.Machine

/-! ### Refused by the sequencer alone -/

section Admission
variable {S N : Type} {nvoices v : Nat} {s : StateOf S N} {after : Option Sequencer}

theorem hostOp_refused (n : StateOf S N) (hr : s.hasReset = true) (hq : s.seq ≠ .idle) :
    hostOp s n = .refused .outOfSequence := by
  simp [hostOp, hr, hq]

theorem hostVoiceOp_refused (n : StateOf S N) (hv : v < nvoices) (hr : s.hasReset = true) (hq : s.seq ≠ .idle) :
    hostVoiceOp nvoices v s n = .refused .outOfSequence := by
  rw [hostVoiceOp, if_neg (Nat.not_le.mpr hv), hostOp_refused n hr hq]

theorem microOp_refused (n : StateOf S N) (hv : v < nvoices) (hr : s.hasReset = true) (hq : after = none) :
    microOp nvoices v s after n = .refused .outOfSequence := by
  simp [microOp, Nat.not_le.mpr hv, hr, hq]

end Admission

/-! ### Operations of the host on an oscillator -/

section Operands
variable {S N : Type} {cfg : Cfg S N} {s : StateOf S N} {v n : Nat} {sel : Nibble} {d : Byte}

/-- The six write operations are one, `RegWrite` of the select (R85, R100): WR_OTHER for the selects without a port. -/
theorem perform_decodeWrite : perform cfg (decodeWrite v sel d) s =
    hostVoiceOp cfg.nvoices v s (s.modifyOsc v (regWrite cfg.toCfgDigital sel d)) := by
  rcases Nat.lt_or_ge sel.toNat 5 with h | h
  · unfold decodeWrite regWrite
    generalize sel.toNat = c at h
    interval_cases c <;> rfl
  · rw [decodeWrite_of_five_le h]
    exact if_pos h

theorem voice_lt_of_wf_decodeWrite (h : (decodeWrite v sel d : Instr N).wf n = true) : v < n := by
  unfold decodeWrite at h
  split at h <;> simp_all [Instr.wf, voiceOk]

theorem voice_lt_of_wf_rdOsc (h : (.rdOsc v : Instr N).wf n = true) : v < n := by
  simp_all [Instr.wf, voiceOk]

end Operands

section Host
variable {s t : State} {v : Nat} {i : Instr} {n : StateOf Sample NL}

/-- R222: such an operation is refused outside `IDLE`. -/
theorem exec_host_refused (hi : perform s.cfg.toCfg i s.toStateOf = hostVoiceOp s.cfg.nvoices v s.toStateOf n)
    (hv : v < s.cfg.nvoices) (hr : s.hasReset = true) (hq : s.seq ≠ .idle) : exec i s = .refused .outOfSequence :=
  exec_refused_iff.mpr (hi.trans (hostVoiceOp_refused n hv hr hq))

/-- R222: it starts in `IDLE` and leaves it where its effect does not touch the sequencer. -/
theorem exec_host_idle (hi : perform s.cfg.toCfg i s.toStateOf = hostVoiceOp s.cfg.nvoices v s.toStateOf n)
    (hn : n.seq = s.seq) (ht : exec i s = .next t) : s.seq = .idle ∧ t.seq = .idle := by
  obtain ⟨-, -, hidle, htn⟩ := hostVoiceOp_next_iff.mp (hi.symm.trans (exec_next_iff.mp ht).1)
  exact ⟨hidle, by rw [htn, hn, hidle]⟩

end Host

/-- Settles O17: the three kinds of operations, the write of any select as one. -/
theorem hostOperationsOnlyInIdle : Obligations.HostOperationsOnlyInIdle := by
  intro s i hi
  have hreset : ∃ t, exec .reset s = .next t ∧ t.seq = .idle :=
    ⟨{ s with toStateOf := resetState s.cfg.toCfg s.toStateOf }, rfl, rfl⟩
  rcases hi with ⟨v, sel, d, rfl⟩ | ⟨v, rfl⟩ | ⟨m, nl, rfl⟩
  · exact ⟨fun hq hr hwf => exec_host_refused perform_decodeWrite (voice_lt_of_wf_decodeWrite hwf) hr hq,
      fun t => exec_host_idle perform_decodeWrite rfl, hreset⟩
  · exact ⟨fun hq hr hwf => exec_host_refused rfl (voice_lt_of_wf_rdOsc hwf) hr hq,
      fun t => exec_host_idle rfl rfl, hreset⟩
  · refine ⟨fun hq _ _ => exec_refused_iff.mpr (perform_config_refused hq), fun t ht => ?_, hreset⟩
    obtain ⟨hidle, htn⟩ := perform_config_iff.mp (exec_next_iff.mp ht).1
    exact ⟨hidle, by rw [htn]; exact hidle⟩

/-! ### The transitions by the members of their sets -/

section Transitions
variable {n v : Nat} {q r : Sequencer}

theorem seqClock_some_members (h : seqClock v q = some r) : ∃ served, r = .clocking served ∧
    ∀ u, u ∈ served ↔ u = v ∨ ∃ old, q = .clocking old ∧ u ∈ old := by
  obtain ⟨rfl, rfl⟩ | ⟨old, rfl, -, rfl⟩ := seqClock_some_iff.mp h
  · exact ⟨[v], rfl, by simp⟩
  · exact ⟨insertVoice v old, rfl, by simp⟩

theorem seqSync_some_members (h : seqSync n v q = some r) : ∃ served, r = .syncing served ∧
    ∀ u, u ∈ served ↔ u = v ∨ ∃ old, q = .syncing old ∧ u ∈ old := by
  obtain ⟨_, rfl, -, rfl⟩ | ⟨old, rfl, -, rfl⟩ := seqSync_some_iff.mp h
  · exact ⟨[v], rfl, by simp⟩
  · exact ⟨insertVoice v old, rfl, by simp⟩

theorem seqOutput_some_members (h : seqOutput n v q = some r) : ∃ served, r = seqAfterOutput n served ∧
    ∀ u, u ∈ served ↔ u = v ∨ ∃ old, q = .outputting old ∧ u ∈ old := by
  obtain ⟨_, rfl, -, rfl⟩ | ⟨old, rfl, -, rfl⟩ := seqOutput_some_iff.mp h
  · exact ⟨[v], rfl, by simp⟩
  · exact ⟨insertVoice v old, rfl, by simp⟩

end Transitions

/-! ### Micro-operations -/

section Micro
variable {s : State} {v : Nat} {i : Instr} {after : Option Sequencer} {n : StateOf Sample NL}

theorem exec_micro_next (hi : perform s.cfg.toCfg i s.toStateOf = microOp s.cfg.nvoices v s.toStateOf after n)
    (hv : v < s.cfg.nvoices) (hr : s.hasReset = true) {q : Sequencer} (hq : after = some q) :
    ∃ t, exec i s = .next t ∧ t.seq = q :=
  ⟨{ s with toStateOf := { n with seq := q } }, exec_next_iff.mpr ⟨hi.trans (microOp_ready n hv hr hq), rfl⟩, rfl⟩

theorem exec_micro_refused (hi : perform s.cfg.toCfg i s.toStateOf = microOp s.cfg.nvoices v s.toStateOf after n)
    (hv : v < s.cfg.nvoices) (hr : s.hasReset = true) (hq : ¬ ∃ q, after = some q) :
    exec i s = .refused .outOfSequence :=
  exec_refused_iff.mpr (hi.trans (microOp_refused n hv hr (Option.eq_none_iff_forall_ne_some.mpr (not_exists.mp hq))))

end Micro

/-- Settles O19: for each micro-operation, legal where it has a transition, and the members of the new set; OUTPUT leaves
`IDLE` where these are all oscillators. -/
theorem sequencerTransitions : Obligations.SequencerTransitions := by
  intro s v hr hv
  refine ⟨⟨fun hl => ?_, fun hl => exec_micro_refused rfl hv hr (clockLegal_iff.not.mp hl)⟩,
    ⟨fun hl => ?_, fun hl => exec_micro_refused rfl hv hr (syncLegal_iff.not.mp hl)⟩,
    ⟨fun hl => ?_, fun hl => exec_micro_refused rfl hv hr (outputLegal_iff.not.mp hl)⟩⟩
  · obtain ⟨q, hq⟩ := clockLegal_iff.mp hl
    obtain ⟨t, ht, rfl⟩ := exec_micro_next (i := .clock v) rfl hv hr hq
    obtain ⟨served, hseq, hmem⟩ := seqClock_some_members hq
    exact ⟨t, served, ht, hseq, hmem⟩
  · obtain ⟨q, hq⟩ := syncLegal_iff.mp hl
    obtain ⟨t, ht, rfl⟩ := exec_micro_next (i := .synchronize v) rfl hv hr hq
    obtain ⟨served, hseq, hmem⟩ := seqSync_some_members hq
    exact ⟨t, served, ht, hseq, hmem⟩
  · obtain ⟨q, hq⟩ := outputLegal_iff.mp hl
    obtain ⟨t, ht, rfl⟩ := exec_micro_next (i := .output v) rfl hv hr hq
    obtain ⟨served, hseq, hmem⟩ := seqOutput_some_members hq
    simp only [← hmem]
    rw [← allServed_iff]
    exact ⟨t, ht, fun hall => hseq.trans (if_pos hall), fun hnot => ⟨served, hseq.trans (if_neg hnot), fun _ => .rfl⟩⟩

end Sys2Proof.Machine
end

section
/-! PROOFS. CYCLE. Each pass, over any list of oscillators, is known at every oscillator from the state before the pass
alone: a CLOCK reads its own record only, a SYNCHRONIZE reads flags, which no SYNCHRONIZE writes, and an OUTPUT reads no
other oscillator's latch. The passes put together give the record after a cycle (`readOsc_syncedState`,
`readOsc_cycleState`). -/

namespace Sys2Proof.Machine

section Passes
variable {S N : Type} (cfg : Cfg S N) (s : StateOf S N) (u v : Nat)

/-! ### The sync pass -/

/-- SYNCHRONIZE of `u` resets `v`, by the flags that stand (R161). -/
def resetsVoice : Bool :=
  decide (dstOf cfg.toCfgDigital u = v) &&
    syncResets (readOsc cfg s u) (readOsc cfg s v) (readOsc cfg s (srcOf cfg.toCfgDigital u))

theorem resetsVoice_iff : resetsVoice cfg s u v = true ↔ dstOf cfg.toCfgDigital u = v ∧
    (readOsc cfg s u).msbRising = true ∧ (readOsc cfg s v).syncEnabled = true ∧
    ¬ ((readOsc cfg s u).syncEnabled = true ∧ (readOsc cfg s (srcOf cfg.toCfgDigital u)).msbRising = true) := by
  rw [resetsVoice, Bool.and_eq_true, decide_eq_true_eq, syncResets_iff]

/-- No SYNCHRONIZE changes what another one does. -/
@[simp] theorem resetsVoice_syncVoice (w : Nat) : resetsVoice cfg (syncVoice cfg s w) u v = resetsVoice cfg s u v := by
  obtain ⟨_, hu⟩ := syncVoice_osc cfg s w u
  obtain ⟨_, hv⟩ := syncVoice_osc cfg s w v
  obtain ⟨_, ha⟩ := syncVoice_osc cfg s w (srcOf cfg.toCfgDigital u)
  rw [resetsVoice, hu, hv, ha]
  rfl

variable {v}

theorem readOsc_syncVoice (hv : v < s.oscs.length) : readOsc cfg (syncVoice cfg s u) v =
    if resetsVoice cfg s u v then clearAccumulator (readOsc cfg s v) else readOsc cfg s v := by
  rw [syncVoice_eq, readOsc_modifyOsc, resetsVoice]
  by_cases hdst : dstOf cfg.toCfgDigital u = v
  · subst hdst
    rw [if_pos ⟨rfl, hv⟩, decide_eq_true rfl, Bool.true_and]
    split_ifs <;> rfl
  · rw [if_neg fun h => hdst h.1, decide_eq_false hdst, Bool.false_and, if_neg Bool.false_ne_true]

/-- A reset oscillator is reset once: the pass over any list of oscillators (R161, R163). -/
theorem readOsc_syncFold (l : List Nat) (hv : v < s.oscs.length) : readOsc cfg (l.foldl (syncVoice cfg) s) v =
    if l.any (fun u => resetsVoice cfg s u v) then clearAccumulator (readOsc cfg s v) else readOsc cfg s v := by
  induction l generalizing s with
  | nil => rfl
  | cons w l ih =>
    rw [List.foldl_cons, ih _ (by simpa using hv), readOsc_syncVoice cfg s w hv]
    cases hw : resetsVoice cfg s w v with
    | false => simp [hw]
    | true =>
      simp only [hw, if_true, List.any_cons, Bool.true_or]
      split_ifs <;> rfl

/-! ### The output pass -/

theorem readOsc_outputVoice_self (hv : v < s.oscs.length) :
    readOsc cfg (outputVoice cfg s v) v = latch (outOf cfg s v) (readOsc cfg s v) :=
  readOsc_modifyOsc_self _ _ _ _ hv

theorem readOsc_outputVoice_of_ne (h : u ≠ v) : readOsc cfg (outputVoice cfg s u) v = readOsc cfg s v :=
  readOsc_modifyOsc_of_ne _ _ _ _ _ h

theorem readOsc_outputFold_of_notMem {l : List Nat} (h : v ∉ l) :
    readOsc cfg (l.foldl (outputVoice cfg) s) v = readOsc cfg s v := by
  induction l generalizing s with
  | nil => rfl
  | cons w l ih =>
    obtain ⟨hw, hl⟩ := not_or.mp (List.mem_cons.not.mp h)
    rw [List.foldl_cons, ih _ hl, readOsc_outputVoice_of_ne _ _ _ (Ne.symm hw)]

/-- Every oscillator of the pass latches its sample in the state before the pass. -/
theorem readOsc_outputFold_of_mem {l : List Nat} (hl : l.Nodup) (h : v ∈ l) (hv : v < s.oscs.length) :
    readOsc cfg (l.foldl (outputVoice cfg) s) v = latch (outOf cfg s v) (readOsc cfg s v) := by
  induction l generalizing s with
  | nil => cases h
  | cons w l ih =>
    obtain ⟨hw, hl⟩ := List.nodup_cons.mp hl
    rw [List.foldl_cons]
    rcases eq_or_ne w v with rfl | hne
    · rw [readOsc_outputFold_of_notMem _ _ hw, readOsc_outputVoice_self _ _ hv]
    · rw [ih _ hl (List.mem_of_ne_of_mem hne.symm h) (by simpa using hv), outOf_outputVoice _ _ _ _ hne,
        readOsc_outputVoice_of_ne _ _ _ hne]

theorem outputFold_results {l : List Nat} (hl : l.Nodup) : (l.foldl (outputVoice cfg) s).results =
    s.results ++ l.map fun v => .sample v (outOf cfg s v) := by
  induction l generalizing s with
  | nil => simp
  | cons w l ih =>
    obtain ⟨hw, hl⟩ := List.nodup_cons.mp hl
    have hrest : ∀ v ∈ l, Result.sample v (outOf cfg (outputVoice cfg s w) v) = .sample v (outOf cfg s v) :=
      fun v hv => by rw [outOf_outputVoice _ _ _ _ (ne_of_mem_of_not_mem hv hw).symm]
    rw [List.foldl_cons, ih _ hl, List.map_congr_left hrest]
    simp

/-- Code 0 alone reads a latch (R177 to R186). -/
theorem outSample_latch (a : Analog S N) (m : ChipModel) (nl : N) {o source : OscOf S} (y z : S)
    (h : o.waveformSelect ≠ 0#4) : outSample a m nl (latch y o) (latch z source) = outSample a m nl o source := by
  have hcode : o.waveformSelect.toNat ≠ 0 := fun h0 => h (BitVec.eq_of_toNat_eq h0)
  simp only [outSample, latch]
  split
  · contradiction
  all_goals rfl

theorem outOf_outputFold_of_code_ne_zero (l : List Nat) (h : (readOsc cfg s v).waveformSelect ≠ 0#4) :
    outOf cfg (l.foldl (outputVoice cfg) s) v = outOf cfg s v := by
  induction l generalizing s with
  | nil => rfl
  | cons w l ih =>
    obtain ⟨y, hy⟩ := outputVoice_osc cfg s w v
    obtain ⟨z, hz⟩ := outputVoice_osc cfg s w (srcOf cfg.toCfgDigital v)
    rw [List.foldl_cons, ih _ (by rw [hy]; exact h), outOf, hy, hz]
    exact outSample_latch _ _ _ y z h

/-! ### The passes put together -/

/-- The state between the clock pass and the sync pass. -/
def clockedState : StateOf S N := passOver cfg.nvoices (clockVoice cfg) s

/-- The state between the sync pass and the output pass. -/
def syncedState : StateOf S N := passOver cfg.nvoices (syncVoice cfg) (clockedState cfg s)

theorem cycleState_eq : cycleState cfg s = passOver cfg.nvoices (outputVoice cfg) (syncedState cfg s) := rfl

theorem syncedState_shared : SameShared s (syncedState cfg s) :=
  (clockPass_shared cfg s).trans (syncPass_shared cfg _)

theorem syncedState_results : (syncedState cfg s).results = s.results :=
  (syncFold_results cfg _ _).trans (clockFold_results cfg _ _)

variable {cfg s} (hcount : s.oscs.length = cfg.nvoices)
include hcount

theorem readOsc_clockedState (hv : v < cfg.nvoices) :
    readOsc cfg (clockedState cfg s) v = clockOsc cfg s.model (readOsc cfg s v) := by
  apply readOsc_eq_of_getElem?
  rw [clockedState, clockPass_getElem? cfg s hv, getElem?_eq_readOsc (cfg := cfg) (hcount ▸ hv), Option.map_some]

theorem readOsc_syncedState (hv : v < cfg.nvoices) : readOsc cfg (syncedState cfg s) v =
    if (List.range cfg.nvoices).any (fun u => resetsVoice cfg (clockedState cfg s) u v)
      then clearAccumulator (clockOsc cfg s.model (readOsc cfg s v)) else clockOsc cfg s.model (readOsc cfg s v) := by
  have hlength : v < (clockedState cfg s).oscs.length := (clockPass_shared cfg s).length.symm ▸ hcount ▸ hv
  rw [← readOsc_clockedState hcount hv]
  exact readOsc_syncFold cfg _ _ hlength

theorem readOsc_cycleState (hv : v < cfg.nvoices) : readOsc cfg (cycleState cfg s) v =
    latch (outOf cfg (syncedState cfg s) v) (readOsc cfg (syncedState cfg s) v) :=
  readOsc_outputFold_of_mem cfg _ List.nodup_range (List.mem_range.mpr hv)
    ((syncedState_shared cfg s).length.symm ▸ hcount ▸ hv)

theorem syncedState_waveformSelect (hv : v < cfg.nvoices) :
    (readOsc cfg (syncedState cfg s) v).waveformSelect = (readOsc cfg s v).waveformSelect := by
  rw [readOsc_syncedState hcount hv]
  split_ifs <;> exact clockOsc_waveformSelect ..

theorem syncedState_previousOutputVoltage (hv : v < cfg.nvoices) :
    (readOsc cfg (syncedState cfg s) v).previousOutputVoltage = (readOsc cfg s v).previousOutputVoltage := by
  rw [readOsc_syncedState hcount hv]
  split_ifs <;> exact clockOsc_previousOutputVoltage ..

/-- Code 0 holds the sample through a cycle (R177). -/
theorem cycleState_latch_of_code_zero (hv : v < cfg.nvoices) (h : (readOsc cfg s v).waveformSelect = 0#4) :
    (readOsc cfg (cycleState cfg s) v).previousOutputVoltage = (readOsc cfg s v).previousOutputVoltage := by
  rw [readOsc_cycleState hcount hv, ← syncedState_previousOutputVoltage hcount hv]
  exact outOf_hold cfg _ v (by rw [syncedState_waveformSelect hcount hv, h]; rfl)

/-- For every other code the latch after a cycle is what an OUTPUT of that state returns. -/
theorem cycleState_latch_of_code_ne_zero (hv : v < cfg.nvoices) (h : (readOsc cfg s v).waveformSelect ≠ 0#4) :
    (readOsc cfg (cycleState cfg s) v).previousOutputVoltage = outOf cfg (cycleState cfg s) v := by
  rw [readOsc_cycleState hcount hv]
  exact (outOf_outputFold_of_code_ne_zero cfg _ _ (by rwa [syncedState_waveformSelect hcount hv])).symm

/-- The samples of a cycle are the latches after it, by ascending index (R220, R224). -/
theorem cycleState_results : (cycleState cfg s).results = s.results ++ (List.range cfg.nvoices).map fun v =>
    .sample v (readOsc cfg (cycleState cfg s) v).previousOutputVoltage := by
  have hlatch : ∀ v ∈ List.range cfg.nvoices, Result.sample v (outOf cfg (syncedState cfg s) v) =
      .sample v (readOsc cfg (cycleState cfg s) v).previousOutputVoltage :=
    fun v hv => by rw [readOsc_cycleState hcount (List.mem_range.mp hv)]; rfl
  rw [cycleState_eq, passOver, outputFold_results cfg _ List.nodup_range, syncedState_results,
    List.map_congr_left hlatch]
  rfl

end Passes

theorem SameShared.eq_with {S N : Type} {s t : StateOf S N} (h : SameShared s t) :
    t = { s with oscs := t.oscs, results := t.results } := by
  obtain ⟨hmodel, hnl, hseq, hreset, hinputs, -⟩ := h
  rw [← hmodel, ← hnl, ← hseq, ← hreset, ← hinputs]

theorem srcOf_lt {c : CfgDigital} (h : cfgWf c = true) {u : Nat} (hu : u < c.nvoices) : srcOf c u < c.nvoices := by
  obtain ⟨hlength, hrange⟩ : c.src.length = c.nvoices ∧ ∀ a ∈ c.src, a < c.nvoices := by
    simp only [cfgWf, Bool.and_eq_true, decide_eq_true_eq, List.all_eq_true] at h
    tauto
  have hmem : u < c.src.length := hlength ▸ hu
  rw [srcOf_eq_of_getElem? (List.getElem?_eq_getElem hmem)]
  exact hrange _ (List.getElem_mem hmem)

/-- The resets of the sync pass, by the clocked records (R161, R220). -/
theorem any_resetsVoice_iff {S N : Type} {cfg : Cfg S N} {s : StateOf S N} (hinv : InvOf cfg.toCfgDigital s)
    {v : Nat} (hv : v < cfg.nvoices) {clocked : Nat → OscOf S}
    (hclocked : ∀ u, clocked u = clockOsc cfg s.model (readOsc cfg s u)) :
    (List.range cfg.nvoices).any (fun u => resetsVoice cfg (clockedState cfg s) u v) = true ↔
      ∃ u, u < cfg.nvoices ∧ dstOf cfg.toCfgDigital u = v ∧ (clocked u).msbRising = true ∧
        (clocked v).syncEnabled = true ∧
        ¬ ((clocked u).syncEnabled = true ∧ (clocked (srcOf cfg.toCfgDigital u)).msbRising = true) := by
  have hread : ∀ u, u < cfg.nvoices → readOsc cfg (clockedState cfg s) u = clocked u :=
    fun u hu => (readOsc_clockedState hinv.count hu).trans (hclocked u).symm
  simp only [List.any_eq_true, List.mem_range, resetsVoice_iff]
  refine exists_congr fun u => and_congr_right fun hu => ?_
  rw [hread u hu, hread v hv, hread _ (srcOf_lt hinv.cfgOk hu)]

/-! ### The obligation -/

/-- Settles O40: what the passes share, then the record of one oscillator: split on whether the sync pass resets it for
the accumulator, on the waveform code for the latch. -/
theorem cycleRunsTheThreePasses : Obligations.CycleRunsTheThreePasses := by
  refine ⟨rfl, fun s hinv hr => ⟨fun hbusy => exec_refused_iff.mpr (hostOp_refused _ hr hbusy), fun hidle => ?_⟩⟩
  have hshared := cycleState_shared s.cfg.toCfg s.toStateOf
  refine ⟨{ s with toStateOf := cycleState s.cfg.toCfg s.toStateOf },
    exec_next_iff.mpr ⟨perform_cycle_iff.mpr ⟨hr, hidle, rfl⟩, rfl⟩, hshared.seq.trans hidle,
    congrArg (fun t => { s with toStateOf := t }) hshared.eq_with, hshared.length,
    cycleState_results hinv.count, fun v hv clocked hclocked => ?_⟩
  have hreset := any_resetsVoice_iff hinv hv hclocked
  have hosc := readOsc_cycleState (cfg := s.cfg.toCfg) hinv.count hv
  rw [readOsc_syncedState hinv.count hv] at hosc
  refine ⟨?_, fun h => ?_, fun h => ?_, cycleState_latch_of_code_zero hinv.count hv,
    cycleState_latch_of_code_ne_zero hinv.count hv⟩
  · rw [State.osc, hosc, hclocked]
    split_ifs <;> rfl
  · rw [State.osc, hosc, if_pos (hreset.mpr h)]
    rfl
  · rw [State.osc, hosc, if_neg (hreset.not.mpr h), hclocked]
    rfl

end Sys2Proof.Machine
end

section
/-! PROOFS. Completion. Each of the three admissions completes exactly where its condition on reset and sequencer holds,
whatever the effect (`exists_hostOp_next_iff` and the two after it); an operation is one of them, or RESET, or CONFIG. -/

namespace Sys2Proof.Machine

/-! ### Where an admitted operation completes -/

section Admission
variable {S N : Type} {nvoices v : Nat} {s n : StateOf S N} {after : Option Sequencer}

theorem exists_hostOp_next_iff : (∃ t, hostOp s n = .next t) ↔ s.hasReset = true ∧ s.seq = .idle := by
  simp [hostOp_next_iff]

theorem exists_hostVoiceOp_next_iff (hv : v < nvoices) :
    (∃ t, hostVoiceOp nvoices v s n = .next t) ↔ s.hasReset = true ∧ s.seq = .idle := by
  simp [hostVoiceOp_next_iff, hv]

theorem exists_microOp_next_iff (hv : v < nvoices) :
    (∃ t, microOp nvoices v s after n = .next t) ↔ s.hasReset = true ∧ ∃ q, after = some q := by
  refine ⟨fun ⟨t, ht⟩ => ?_, fun ⟨hr, q, hq⟩ => ⟨_, microOp_ready n hv hr hq⟩⟩
  obtain ⟨-, hr, q, hq, -⟩ := microOp_next_iff.mp ht
  exact ⟨hr, q, hq⟩

end Admission

/-- `exec` completes where the step relation does at the parameters of the state. -/
theorem exists_exec_next_iff {s : State} {i : Instr} :
    (∃ t, exec i s = .next t) ↔ ∃ t, perform s.cfg.toCfg i s.toStateOf = .next t :=
  ⟨fun ⟨t, ht⟩ => ⟨t.toStateOf, (exec_next_iff.mp ht).1⟩,
    fun ⟨t, ht⟩ => ⟨{ s with toStateOf := t }, exec_next_iff.mpr ⟨ht, rfl⟩⟩⟩

theorem voice_lt_of_voiceOk {n v : Nat} (h : voiceOk n v = true) : v < n :=
  of_decide_eq_true (Bool.and_eq_true_iff.mp h).1

/-! ### The obligation -/

/-- Settles O20: each operation by its admission, the legality of a micro-operation being that its transition exists;
there is no fault to answer. -/
theorem legalOperationsComplete : Obligations.LegalOperationsComplete := by
  intro s i hwf
  refine ⟨exists_exec_next_iff.trans ?_, fun f => nomatch f⟩
  cases i with
  | wrFreqLo | wrFreqHi | wrPwLo | wrPwHi | wrControl | rdOsc =>
    exact exists_hostVoiceOp_next_iff (voice_lt_of_voiceOk hwf)
  | wrOther v sel d =>
    obtain ⟨hv, hsel⟩ := Bool.and_eq_true_iff.mp hwf
    simp [perform_wrOther_iff, of_decide_eq_true hsel, voice_lt_of_voiceOk hv, OpLegal]
  | clock v =>
    exact (exists_microOp_next_iff (voice_lt_of_voiceOk hwf)).trans (and_congr_right' clockLegal_iff.symm)
  | synchronize v =>
    exact (exists_microOp_next_iff (voice_lt_of_voiceOk hwf)).trans (and_congr_right' syncLegal_iff.symm)
  | output v =>
    exact (exists_microOp_next_iff (voice_lt_of_voiceOk hwf)).trans (and_congr_right' outputLegal_iff.symm)
  | cycle => exact exists_hostOp_next_iff
  | reset => exact ⟨fun _ => trivial, fun _ => ⟨_, perform_reset_iff.mpr rfl⟩⟩
  | config m nl => simp [perform_config_iff, OpLegal]

end Sys2Proof.Machine
end

section
/-! PROOFS. RESET. It has no condition, and leads to `resetState`: every record is `resetOsc` of what it was, which is the
table of R40 with the noise cache recomputed from the register's reset value (`noiseRecompute_eq`). -/

namespace Sys2Proof.Machine

/-- The record after RESET keeps nothing of the one before but the zero level: the cache too comes from the table and the
configuration (R40, R260). -/
theorem resetOsc_eq {S N : Type} (cfg : Cfg S N) (m : ChipModel) (o : OscOf S) : resetOsc cfg m o =
    { accumulator := 0#24, frequency := 0#16, pulseWidth := 0#12, waveformSelect := 0#4
      testHeld := false, ringModEnabled := false, syncEnabled := false
      noiseShiftRegister := cfg.noiseReset
      cachedNoiseSample := noiseWord cfg.noiseTaps cfg.noiseReset
      cachedNoiseVoltage := noiseDac cfg.toAnalog m o.zeroLevelVoltage (noiseWord cfg.noiseTaps cfg.noiseReset)
      previousOutputVoltage := cfg.prevReset
      zeroLevelVoltage := o.zeroLevelVoltage
      msbRising := false
      noiseOverwriteDelay := 0 } := by
  rw [resetOsc, noiseRecompute_eq]

/-- RESET completes in every state (R260, R261). -/
theorem exec_reset_eq (s : State) :
    exec .reset s = .next { s with toStateOf := resetState s.cfg.toCfg s.toStateOf } :=
  exec_next_iff.mpr ⟨perform_reset_iff.mpr rfl, rfl⟩

/-- Settles O42: the state RESET leads to, its records by `resetOsc_eq`. -/
theorem resetOperationSetsEveryField : Obligations.ResetOperationSetsEveryField := by
  refine ⟨Laws.EncodedWord.packWord_toNat 7#4 0#4 0#4 0#8, fun s => ?_⟩
  rw [exec_reset_eq, resetState, funext (resetOsc_eq s.cfg.toCfg s.model)]

end Sys2Proof.Machine
end

section
/-! PROOFS. The encoder. The fields of a packed word are the digits it was packed from, and a word of 20 bits is packed
from its own fields. So an encoded operation reads as itself (`readsAs_encodeWord`), and a word that reads as an
operation is its encoding (`ReadsAs.encodeWord_eq`); the decoder's inversion lemma carries both over to the bytes. -/

namespace Sys2Proof

open Machine

section Fields
variable (k v s : Nibble) (d : Byte)

@[simp] theorem kindField_packWord : kindField (packWord k v s d) = k := by
  have := k.isLt; have := v.isLt; have := s.isLt; have := d.isLt
  rw [← BitVec.toNat_inj, kindField_toNat, Laws.EncodedWord.packWord_toNat]
  omega

@[simp] theorem voiceField_packWord : voiceField (packWord k v s d) = v := by
  have := k.isLt; have := v.isLt; have := s.isLt; have := d.isLt
  rw [← BitVec.toNat_inj, voiceField_toNat, Laws.EncodedWord.packWord_toNat]
  omega

@[simp] theorem selectField_packWord : selectField (packWord k v s d) = s := by
  have := k.isLt; have := v.isLt; have := s.isLt; have := d.isLt
  rw [← BitVec.toNat_inj, selectField_toNat, Laws.EncodedWord.packWord_toNat]
  omega

@[simp] theorem dataField_packWord : dataField (packWord k v s d) = d := by
  have := k.isLt; have := v.isLt; have := s.isLt; have := d.isLt
  rw [← BitVec.toNat_inj, dataField_toNat, Laws.EncodedWord.packWord_toNat]
  omega

end Fields

/-- A word of 20 bits is packed from its own fields (R80). -/
theorem packWord_fields {w : BitVec 24} (hw : w.toNat < 2 ^ 20) :
    packWord (kindField w) (voiceField w) (selectField w) (dataField w) = w := by
  rw [← BitVec.toNat_inj, Laws.EncodedWord.packWord_toNat, kindField_toNat, voiceField_toNat, selectField_toNat,
    dataField_toNat]
  omega

section Encoding
variable {N : Type} {n : Nat} {w : BitVec 24} {i : Instr N}

/-- The digit of an oscillator index in range is the index (R82). -/
theorem toNat_voiceDigit {v : Nat} (h : voiceOk n v = true) : (BitVec.ofNat 4 v).toNat = v ∧ v < n := by
  obtain ⟨hn, h16⟩ := Bool.and_eq_true_iff.mp h
  exact ⟨Nat.mod_eq_of_lt (of_decide_eq_true h16), of_decide_eq_true hn⟩

theorem encodeWord_lt (i : Instr N) : (encodeWord i).toNat < 2 ^ 20 := by
  cases i <;> exact Laws.EncodedWord.packWord_lt ..

/-- The packed word of a write of any select reads as that write (R81). -/
theorem readsAs_packWord_write {v : Nat} (h : voiceOk n v = true) (nl : N) (sel : Nibble) (d : Byte) :
    ReadsAs n (packWord 1#4 (BitVec.ofNat 4 v) sel d) nl (decodeWrite v sel d) := by
  obtain ⟨hv, hn⟩ := toNat_voiceDigit h
  simpa [hv, hn] using ReadsAs.write (n := n) (nl := nl) (w := packWord 1#4 (BitVec.ofNat 4 v) sel d)

/-- The word of a well-formed operation reads as the operation (R81, R82, R86). -/
theorem readsAs_encodeWord [Zero N] (h : i.wf n = true) : ReadsAs n (encodeWord i) (encodeNl i) i := by
  cases i with
  | wrFreqLo v d => exact readsAs_packWord_write h 0 0#4 d
  | wrFreqHi v d => exact readsAs_packWord_write h 0 1#4 d
  | wrPwLo v d => exact readsAs_packWord_write h 0 2#4 d
  | wrPwHi v d => exact readsAs_packWord_write h 0 3#4 d
  | wrControl v d => exact readsAs_packWord_write h 0 4#4 d
  | wrOther v sel d =>
    obtain ⟨hv, hsel⟩ := Bool.and_eq_true_iff.mp h
    have hreads := readsAs_packWord_write hv (0 : N) sel d
    rwa [decodeWrite_of_five_le (of_decide_eq_true hsel)] at hreads
  | rdOsc v =>
    obtain ⟨hv, hn⟩ := toNat_voiceDigit h
    simpa [encodeWord, hv, hn] using
      ReadsAs.rdOsc (n := n) (w := encodeWord (.rdOsc v : Instr N)) (nl := encodeNl (.rdOsc v))
  | clock v =>
    obtain ⟨hv, hn⟩ := toNat_voiceDigit h
    simpa [encodeWord, hv, hn] using
      ReadsAs.clock (n := n) (w := encodeWord (.clock v : Instr N)) (nl := encodeNl (.clock v))
  | synchronize v =>
    obtain ⟨hv, hn⟩ := toNat_voiceDigit h
    simpa [encodeWord, hv, hn] using
      ReadsAs.synchronize (n := n) (w := encodeWord (.synchronize v : Instr N)) (nl := encodeNl (.synchronize v))
  | output v =>
    obtain ⟨hv, hn⟩ := toNat_voiceDigit h
    simpa [encodeWord, hv, hn] using
      ReadsAs.output (n := n) (w := encodeWord (.output v : Instr N)) (nl := encodeNl (.output v))
  | cycle =>
    exact .cycle (kindField_packWord ..) (voiceField_packWord ..) (selectField_packWord ..) (dataField_packWord ..)
  | reset =>
    exact .reset (kindField_packWord ..) (voiceField_packWord ..) (selectField_packWord ..) (dataField_packWord ..)
  | config m nl =>
    exact .config m (kindField_packWord ..) (voiceField_packWord ..) (selectField_packWord ..) (dataField_packWord ..)

variable {nl : N}

/-- What a word reads as is well formed (R82, R107). -/
theorem ReadsAs.wf (h : ReadsAs n w nl i) : i.wf n = true := by
  have h16 : (voiceField w).toNat < 16 := (voiceField w).isLt
  cases h <;> simp_all [Instr.wf, voiceOk]

/-- What a word of 20 bits reads as is an operation with this word (R80, R81). -/
theorem ReadsAs.encodeWord_eq (hw : w.toNat < 2 ^ 20) (h : ReadsAs n w nl i) : encodeWord i = w := by
  have hfields := packWord_fields hw
  cases h <;> simp_all [encodeWord]

/-- Three bytes put together and taken apart again (log 4). -/
theorem splitWord_append (b2 b1 b0 : Byte) : splitWord (b2 ++ b1 ++ b0) = [b0, b1, b2] := by
  have h0 : (b2 ++ b1 ++ b0).extractLsb' 0 8 = b0 := by
    rw [BitVec.extractLsb'_append_eq_of_add_le (by decide), BitVec.extractLsb'_eq_self]
  have h1 : (b2 ++ b1 ++ b0).extractLsb' 8 8 = b1 := by
    rw [BitVec.extractLsb'_append_eq_of_le (by decide), BitVec.extractLsb'_append_eq_of_add_le (by decide)]
    exact BitVec.extractLsb'_eq_self
  have h2 : (b2 ++ b1 ++ b0).extractLsb' 16 8 = b2 := by
    rw [BitVec.extractLsb'_append_eq_of_le (by decide), BitVec.extractLsb'_append_eq_of_le (by decide)]
    exact BitVec.extractLsb'_eq_self
  rw [splitWord, h0, h1, h2]

/-- What decodes is the storage form of a word: three bytes (log 4). -/
theorem bytes_eq_splitWord_of_decode_ok {op : OpWordOf N} (h : decode n op = .ok i) :
    ∃ w, op.bytes = splitWord w := by
  unfold decode at h
  split at h
  next b0 b1 b2 hbytes =>
    exact ⟨b2 ++ b1 ++ b0, hbytes.trans (splitWord_append b2 b1 b0).symm⟩
  next => cases h

end Encoding

/-! ### The obligations -/

/-- Settles O3: the word of the encoding has 20 bits and reads as the operation. -/
theorem decodeAfterEncodeIsTheOperation : Obligations.DecodeAfterEncodeIsTheOperation :=
  fun _ _ _ i h => decode_splitWord_ok_iff.mpr ⟨encodeWord_lt i, readsAs_encodeWord h⟩

/-- Settles O4: bytes that decode are those of one word of 20 bits, which reads as the operation. -/
theorem encodeAfterDecodeIsTheWord : Obligations.EncodeAfterDecodeIsTheWord := by
  intro N _ n op i h
  obtain ⟨w, hbytes⟩ := bytes_eq_splitWord_of_decode_ok h
  obtain ⟨bytes, nl⟩ := op
  obtain rfl : bytes = splitWord w := hbytes
  obtain ⟨hw, hreads⟩ := decode_splitWord_ok_iff.mp h
  exact ⟨hreads.wf, congrArg splitWord (hreads.encodeWord_eq hw)⟩

/-- Settles O6: the decoder computes on each word. -/
theorem wordsOfTheVectorsDecode : Obligations.WordsOfTheVectorsDecode := by
  unfold Obligations.WordsOfTheVectorsDecode
  decide

/-- Settles O1: the first word is what `step` decodes. -/
theorem stepRunsTheDecodedOperation : Obligations.StepRunsTheDecodedOperation := by
  intro s op rest i hinputs hdecode
  have hnext : nextOp s.cfg.nvoices s.inputs = .ok (i, rest) := nextOp_ok_iff.mpr ⟨op, hinputs, hdecode⟩
  simp only [step, hnext]

/-- Settles O7: the decoder looks at the select of a read before anything else in the word. -/
theorem readOfAnotherPortIsRefused : Obligations.ReadOfAnotherPortIsRefused := by
  intro s v sel d nl rest hsel hinputs
  have hword : (packWord 2#4 v sel d).extractLsb' 20 4 = 0#4 :=
    (upperBits_eq_zero_iff _).mpr (Laws.EncodedWord.packWord_lt ..)
  have hreject : decode s.cfg.nvoices ⟨splitWord (packWord 2#4 v sel d), nl⟩ = .error .noSuchReadPort := by
    rw [decode_splitWord]
    simp [decodeWord, hword, hsel]
  simp [step, nextOp, hinputs, hreject, refusalOf]

end Sys2Proof
end

section
/-! PROOFS. What one operation can do, said once. `OscChange` lists what may become of the record of an oscillator, one
constructor per kind of change (`oscChange_of_perform`); `SharedChange` says the same of the rest of the state
(`sharedChange_of_perform`). -/

namespace Sys2Proof.Machine

variable {S N : Type}

/-- The record `o` of oscillator `v` becomes `p` by the operation under the parameters `cfg` and the chip model `m`: the
column "written by" of R20, with what is written. -/
inductive OscChange (cfg : Cfg S N) (m : ChipModel) (v : Nat) (o : OscOf S) : Instr N → OscOf S → Prop where
  | same (i : Instr N) (h : i ≠ .reset) : OscChange cfg m v o i o
  | wrFreqLo (d : Byte) : OscChange cfg m v o (.wrFreqLo v d) (portFreqLo d o)
  | wrFreqHi (d : Byte) : OscChange cfg m v o (.wrFreqHi v d) (portFreqHi d o)
  | wrPwLo (d : Byte) : OscChange cfg m v o (.wrPwLo v d) (portPwLo d o)
  | wrPwHi (d : Byte) : OscChange cfg m v o (.wrPwHi v d) (portPwHi d o)
  | wrControl (d : Byte) : OscChange cfg m v o (.wrControl v d) (portControl cfg.toCfgDigital d o)
  | clock : OscChange cfg m v o (.clock v) (clockOsc cfg m o)
  | synchronize (u : Nat) (h : dstOf cfg.toCfgDigital u = v) : OscChange cfg m v o (.synchronize u) (clearAccumulator o)
  | output (y : S) : OscChange cfg m v o (.output v) (latch y o)
  | cycle (p : OscOf S) (hp : p = o ∨ p = clockOsc cfg m o) (acc : Accumulator) (y : S) :
      OscChange cfg m v o .cycle { p with accumulator := acc, previousOutputVoltage := y }
  | reset : OscChange cfg m v o .reset (resetOsc cfg m o)
  | config (n : ChipModel) (nl : N) : OscChange cfg m v o (.config n nl) (setZeroLevel (zeroLevelOf cfg.toAnalog n) o)

section
variable {cfg : Cfg S N} {s t : StateOf S N} {i : Instr N} {m : ChipModel} {u v : Nat} {o p : OscOf S}

/-- A record after a change of the record of oscillator `u`: that change, if it is its own record. -/
theorem OscChange.of_modifyOsc {f : OscOf S → OscOf S} (ho : s.oscs[v]? = some o)
    (hp : (s.modifyOsc u f).oscs[v]? = some p) (hi : i ≠ .reset) (hf : u = v → OscChange cfg m v o i (f o)) :
    OscChange cfg m v o i p := by
  rw [modifyOsc_getElem?, ho, Option.map_some, Option.some_inj] at hp
  subst hp
  split_ifs with huv
  · exact hf huv
  · exact .same i hi

/-- A record after a cycle: clocked or not, then synchronized, then latched. -/
theorem cycleState_record (ho : s.oscs[v]? = some o) (hp : (cycleState cfg s).oscs[v]? = some p) :
    ∃ q, (q = o ∨ q = clockOsc cfg s.model o) ∧
      ∃ acc y, p = { q with accumulator := acc, previousOutputVoltage := y } := by
  obtain ⟨q, hq, hclocked⟩ : ∃ q, (q = o ∨ q = clockOsc cfg s.model o) ∧ (clockedState cfg s).oscs[v]? = some q := by
    rw [clockedState, passOver, clockFold_getElem? cfg _ List.nodup_range, ho]
    split_ifs
    · exact ⟨_, .inr rfl, rfl⟩
    · exact ⟨_, .inl rfl, rfl⟩
  obtain ⟨acc, hsynced⟩ := syncFold_getElem? cfg (List.range cfg.nvoices) _ v _ hclocked
  obtain ⟨y, hout⟩ := outputFold_getElem? cfg (List.range cfg.nvoices) _ v _ hsynced
  exact ⟨q, hq, acc, y, Option.some.inj (hp.symm.trans hout)⟩

/-- A record after one change of every record. -/
theorem eq_of_map_getElem? {f : OscOf S → OscOf S} (ho : s.oscs[v]? = some o) (hp : (s.oscs.map f)[v]? = some p) :
    p = f o := by
  rw [List.getElem?_map, ho] at hp
  exact (Option.some.inj hp).symm

/-- Every operation changes each record in one of the ways of `OscChange`. -/
theorem oscChange_of_perform (h : perform cfg i s = .next t) (ho : s.oscs[v]? = some o) (hp : t.oscs[v]? = some p) :
    OscChange cfg s.model v o i p := by
  cases i with
  | wrFreqLo u d =>
    obtain ⟨-, -, -, rfl⟩ := perform_wrFreqLo_iff.mp h
    exact .of_modifyOsc ho hp nofun fun huv => huv ▸ .wrFreqLo d
  | wrFreqHi u d =>
    obtain ⟨-, -, -, rfl⟩ := perform_wrFreqHi_iff.mp h
    exact .of_modifyOsc ho hp nofun fun huv => huv ▸ .wrFreqHi d
  | wrPwLo u d =>
    obtain ⟨-, -, -, rfl⟩ := perform_wrPwLo_iff.mp h
    exact .of_modifyOsc ho hp nofun fun huv => huv ▸ .wrPwLo d
  | wrPwHi u d =>
    obtain ⟨-, -, -, rfl⟩ := perform_wrPwHi_iff.mp h
    exact .of_modifyOsc ho hp nofun fun huv => huv ▸ .wrPwHi d
  | wrControl u d =>
    obtain ⟨-, -, -, rfl⟩ := perform_wrControl_iff.mp h
    exact .of_modifyOsc ho hp nofun fun huv => huv ▸ .wrControl d
  | wrOther u sel d =>
    obtain ⟨-, -, -, -, rfl⟩ := perform_wrOther_iff.mp h
    exact Option.some.inj (ho.symm.trans hp) ▸ .same _ nofun
  | rdOsc u =>
    obtain ⟨-, -, -, rfl⟩ := perform_rdOsc_iff.mp h
    exact Option.some.inj (ho.symm.trans hp) ▸ .same _ nofun
  | clock u =>
    obtain ⟨-, -, q, -, rfl⟩ := perform_clock_iff.mp h
    exact .of_modifyOsc ho hp nofun fun huv => huv ▸ .clock
  | synchronize u =>
    obtain ⟨-, -, q, -, rfl⟩ := perform_synchronize_iff.mp h
    rw [syncVoice_eq] at hp
    refine .of_modifyOsc ho hp nofun fun hdst => ?_
    split_ifs
    · exact .synchronize u hdst
    · exact .same _ nofun
  | output u =>
    obtain ⟨-, -, q, -, rfl⟩ := perform_output_iff.mp h
    exact .of_modifyOsc ho hp nofun fun huv => huv ▸ .output _
  | cycle =>
    obtain ⟨-, -, rfl⟩ := perform_cycle_iff.mp h
    obtain ⟨q, hq, acc, y, rfl⟩ := cycleState_record ho hp
    exact .cycle q hq acc y
  | reset =>
    obtain rfl := perform_reset_iff.mp h
    exact eq_of_map_getElem? ho hp ▸ .reset
  | config n nl =>
    obtain ⟨-, rfl⟩ := perform_config_iff.mp h
    exact eq_of_map_getElem? ho hp ▸ .config n nl

/-- The part of the state outside the records, except for the sequencer: what is kept and who writes the rest
(R33, R37). -/
structure SharedChange (i : Instr N) (s t : StateOf S N) : Prop where
  length : t.oscs.length = s.oscs.length
  inputs : t.inputs = s.inputs
  model : t.model = s.model ∧ t.nl = s.nl ∨ ∃ nl, i = .config t.model nl
  hasReset : t.hasReset = s.hasReset ∨ i = .reset
  results : t.results = s.results ∨ s.results <+: t.results ∧ ((∃ v, i = .rdOsc v ∨ i = .output v) ∨ i = .cycle)

/-- A pass over the oscillators keeps the results, or appends to them where the operation yields some. -/
theorem SharedChange.of_sameShared (h : SameShared s t)
    (hr : t.results = s.results ∨ s.results <+: t.results ∧ ((∃ v, i = .rdOsc v ∨ i = .output v) ∨ i = .cycle))
    (q : Sequencer) : SharedChange i s { t with seq := q } :=
  ⟨h.length, h.inputs, .inl ⟨h.model, h.nl⟩, .inl h.hasReset, hr⟩

theorem modifyOsc_shared (s : StateOf S N) (v : Nat) (f : OscOf S → OscOf S) : SameShared s (s.modifyOsc v f) := by
  constructor <;> simp

theorem yieldResult_shared (s : StateOf S N) (r : Result S) : SameShared s (s.yieldResult r) := by
  constructor <;> simp

theorem SameShared.refl (s : StateOf S N) : SameShared s s :=
  ⟨rfl, rfl, rfl, rfl, rfl, rfl⟩

/-- Every operation changes the shared part in the ways of `SharedChange`. -/
theorem sharedChange_of_perform (h : perform cfg i s = .next t) : SharedChange i s t := by
  cases i with
  | wrFreqLo u | wrFreqHi u | wrPwLo u | wrPwHi u | wrControl u =>
    obtain ⟨-, -, -, rfl⟩ := hostVoiceOp_next_iff.mp h
    exact .of_sameShared (modifyOsc_shared s u _) (.inl rfl) _
  | wrOther u sel d =>
    obtain ⟨-, -, -, -, rfl⟩ := perform_wrOther_iff.mp h
    exact .of_sameShared (.refl _) (.inl rfl) _
  | rdOsc u =>
    obtain ⟨-, -, -, rfl⟩ := perform_rdOsc_iff.mp h
    exact .of_sameShared (yieldResult_shared s _)
      (.inr ⟨⟨_, rfl⟩, .inl ⟨u, .inl rfl⟩⟩) _
  | clock u =>
    obtain ⟨-, -, q, -, rfl⟩ := perform_clock_iff.mp h
    exact .of_sameShared (clockVoice_shared cfg s u) (.inl rfl) q
  | synchronize u =>
    obtain ⟨-, -, q, -, rfl⟩ := perform_synchronize_iff.mp h
    exact .of_sameShared (syncVoice_shared cfg s u) (.inl (syncVoice_results ..)) q
  | output u =>
    obtain ⟨-, -, q, -, rfl⟩ := perform_output_iff.mp h
    exact .of_sameShared (outputVoice_shared cfg s u) (.inr ⟨⟨_, rfl⟩, .inl ⟨u, .inr rfl⟩⟩) q
  | cycle =>
    obtain ⟨-, -, rfl⟩ := perform_cycle_iff.mp h
    refine .of_sameShared (cycleState_shared cfg s) (.inr ⟨?_, .inr rfl⟩) _
    rw [cycleState_eq, passOver, outputFold_results cfg _ List.nodup_range, syncedState_results]
    exact ⟨_, rfl⟩
  | reset =>
    obtain rfl := perform_reset_iff.mp h
    exact ⟨List.length_map .., rfl, .inl ⟨rfl, rfl⟩, .inr rfl, .inl rfl⟩
  | config n nl =>
    obtain ⟨-, rfl⟩ := perform_config_iff.mp h
    exact ⟨List.length_map .., rfl, .inr ⟨nl, rfl⟩, .inl rfl, .inl rfl⟩

end

/-! ### The obligations -/

/-- Settles O46: the ways of `OscChange` one by one; what a way leaves of a field by the field's lemma. -/
theorem fieldsAreWrittenByTheirWriters : Obligations.FieldsAreWrittenByTheirWriters := by
  intro s t i h
  obtain ⟨hperform, -⟩ := exec_next_iff.mp h
  refine ⟨(sharedChange_of_perform hperform).length, fun v o p ho hp => ?_⟩
  have hchange := oscChange_of_perform hperform ho hp
  cases hchange with
  | same => simp
  | wrFreqLo d => simp [portFreqLo]
  | wrFreqHi d => simp [portFreqHi]
  | wrPwLo d => simp [portPwLo]
  | wrPwHi d => simp [portPwHi]
  | wrControl d => simp +contextual [portControl, testRise_eq]
  | clock => simp
  | synchronize u hdst => simp [clearAccumulator, hdst]
  | output y => simp [latch]
  | cycle q hq acc y => rcases hq with rfl | rfl <;> simp
  | reset => simp [resetOsc_eq]
  | config n nl => simp [setZeroLevel]

/-- Settles O47: the clauses of `SharedChange`. -/
theorem sharedStateIsWrittenByItsWriters : Obligations.SharedStateIsWrittenByItsWriters := by
  intro s t i h
  obtain ⟨hperform, hcfg⟩ := exec_next_iff.mp h
  obtain ⟨-, hinputs, hmodel, hreset, hresults⟩ := sharedChange_of_perform hperform
  refine ⟨hcfg, hinputs, fun hne => ?_, hreset.resolve_left, ?_, fun hne => (hresults.resolve_left hne).2⟩
  · rcases hmodel with ⟨hm, hnl⟩ | ⟨nl, hi⟩
    · tauto
    · exact ⟨_, nl, hi⟩
  · rcases hresults with hsame | ⟨happended, -⟩
    · exact ⟨[], (List.append_nil _).trans hsame.symm⟩
    · exact happended

end Sys2Proof.Machine
end

section
/-! PROOFS. The invariants. Each is a property of every record, kept by each way a record can change (`OscChange`),
and a property of the shared part. -/

namespace Sys2Proof.Machine

/-! ### The sequencer -/

section Sequencer
variable {n v : Nat} {l : List Nat} {q r : Sequencer}

theorem servedWf_iff : servedWf n l = true ↔ l ≠ [] ∧ l.Pairwise (· < ·) ∧ ∀ u ∈ l, u < n := by
  simp [servedWf, and_assoc]

theorem servedWf_singleton (hv : v < n) : servedWf n [v] = true :=
  servedWf_iff.mpr ⟨List.cons_ne_nil _ _, List.pairwise_singleton _ _, by simpa using hv⟩

theorem servedWf_insertVoice (hv : v < n) (h : servedWf n l = true) : servedWf n (insertVoice v l) = true := by
  obtain ⟨-, hrising, hbound⟩ := servedWf_iff.mp h
  refine servedWf_iff.mpr ⟨List.ne_nil_of_mem (mem_insertVoice.mpr (.inl rfl)), insertVoice_pairwise hrising, ?_⟩
  intro u hu
  rcases mem_insertVoice.mp hu with rfl | hu
  · exact hv
  · exact hbound u hu

theorem seqWf_seqAfterOutput (h : servedWf n l = true) : seqWf n (seqAfterOutput n l) = true := by
  unfold seqAfterOutput
  split_ifs with hall
  · rfl
  · simp [seqWf, h, hall]

/-- Every transition of the sequencer keeps its sets in their one form (R221). -/
theorem seqWf_seqClock (hv : v < n) (hq : seqWf n q = true) (h : seqClock v q = some r) : seqWf n r = true := by
  obtain ⟨rfl, rfl⟩ | ⟨l, rfl, -, rfl⟩ := seqClock_some_iff.mp h
  · exact servedWf_singleton hv
  · exact servedWf_insertVoice hv hq

theorem seqWf_seqSync (hv : v < n) (hq : seqWf n q = true) (h : seqSync n v q = some r) : seqWf n r = true := by
  obtain ⟨l, rfl, -, rfl⟩ | ⟨l, rfl, -, rfl⟩ := seqSync_some_iff.mp h
  · exact servedWf_singleton hv
  · exact servedWf_insertVoice hv hq

theorem seqWf_seqOutput (hv : v < n) (hq : seqWf n q = true) (h : seqOutput n v q = some r) : seqWf n r = true := by
  obtain ⟨l, rfl, -, rfl⟩ | ⟨l, rfl, -, rfl⟩ := seqOutput_some_iff.mp h
  · exact seqWf_seqAfterOutput (servedWf_singleton hv)
  · exact seqWf_seqAfterOutput (servedWf_insertVoice hv (Bool.and_eq_true_iff.mp hq).1)

end Sequencer

section Relation
variable {S N : Type} {cfg : Cfg S N} {m : ChipModel} {s t : StateOf S N} {i : Instr N} {v : Nat} {o p : OscOf S}

/-- What an operation leaves in the sequencer: a legal value. -/
theorem seqWf_of_perform (hq : seqWf cfg.nvoices s.seq = true) (h : perform cfg i s = .next t) :
    seqWf cfg.nvoices t.seq = true := by
  cases i with
  | wrFreqLo | wrFreqHi | wrPwLo | wrPwHi | wrControl | rdOsc =>
    obtain ⟨-, -, -, rfl⟩ := hostVoiceOp_next_iff.mp h
    exact hq
  | wrOther u sel d =>
    obtain ⟨-, -, -, -, rfl⟩ := perform_wrOther_iff.mp h
    exact hq
  | clock u =>
    obtain ⟨hu, -, r, hr, rfl⟩ := perform_clock_iff.mp h
    exact seqWf_seqClock hu hq hr
  | synchronize u =>
    obtain ⟨hu, -, r, hr, rfl⟩ := perform_synchronize_iff.mp h
    exact seqWf_seqSync hu hq hr
  | output u =>
    obtain ⟨hu, -, r, hr, rfl⟩ := perform_output_iff.mp h
    exact seqWf_seqOutput hu hq hr
  | cycle =>
    obtain ⟨-, -, rfl⟩ := perform_cycle_iff.mp h
    exact (cycleState_shared cfg s).seq ▸ hq
  | reset =>
    obtain rfl := perform_reset_iff.mp h
    rfl
  | config n nl =>
    obtain ⟨-, rfl⟩ := perform_config_iff.mp h
    exact hq

/-- Before the first RESET only RESET and CONFIG complete (R261). -/
theorem reset_or_config_of_perform (h : perform cfg i s = .next t) (hr : s.hasReset = false) :
    i = .reset ∨ ∃ n nl, i = .config n nl := by
  have hnot : s.hasReset ≠ true := Bool.eq_false_iff.mp hr
  cases i with
  | wrFreqLo | wrFreqHi | wrPwLo | wrPwHi | wrControl | rdOsc =>
    obtain ⟨-, hdone, -⟩ := hostVoiceOp_next_iff.mp h
    exact absurd hdone hnot
  | wrOther =>
    obtain ⟨-, -, hdone, -⟩ := perform_wrOther_iff.mp h
    exact absurd hdone hnot
  | clock | synchronize | output =>
    obtain ⟨-, hdone, -⟩ := microOp_next_iff.mp h
    exact absurd hdone hnot
  | cycle =>
    obtain ⟨hdone, -⟩ := perform_cycle_iff.mp h
    exact absurd hdone hnot
  | reset => exact .inl rfl
  | config n nl => exact .inr ⟨n, nl, rfl⟩

/-- The sequencer stays `IDLE` up to the first RESET (R261). -/
theorem idle_of_perform (hidle : s.hasReset = false → s.seq = .idle) (h : perform cfg i s = .next t)
    (ht : t.hasReset = false) : t.seq = .idle := by
  rcases (sharedChange_of_perform h).hasReset with hsame | rfl
  · have hr : s.hasReset = false := hsame ▸ ht
    obtain rfl | ⟨n, nl, rfl⟩ := reset_or_config_of_perform h hr
    · obtain rfl := perform_reset_iff.mp h
      rfl
    · obtain ⟨-, rfl⟩ := perform_config_iff.mp h
      exact hidle hr
  · obtain rfl := perform_reset_iff.mp h
    rfl

/-! ### The records -/

/-- The clauses of the invariant about one record: the countdown and the cached noise word (R27, R31). -/
def RecordInv {S : Type} (cfg : CfgDigital) (o : OscOf S) : Prop :=
  o.noiseOverwriteDelay ≤ cfg.noiseOverwriteDelay ∧ o.cachedNoiseSample = noiseWord cfg.noiseTaps o.noiseShiftRegister

/-- The cached analog sample is the noise DAC of the cached word (R38 (b)). -/
def CacheFresh (cfg : Cfg S N) (m : ChipModel) (o : OscOf S) : Prop :=
  o.cachedNoiseVoltage = noiseDac cfg.toAnalog m o.zeroLevelVoltage o.cachedNoiseSample

/-- CLOCK does not lengthen the countdown, and it keeps the noise register with its cache, or recomputes the cache
(R122, R123, R146). -/
theorem clockOsc_eq_or_recompute (cfg : Cfg S N) (m : ChipModel) (o : OscOf S) : ∃ acc msb delay,
    delay ≤ o.noiseOverwriteDelay ∧
      (clockOsc cfg m o = { o with accumulator := acc, msbRising := msb, noiseOverwriteDelay := delay } ∨
        ∃ reg, clockOsc cfg m o = noiseRecompute cfg m
          { o with accumulator := acc, msbRising := msb, noiseOverwriteDelay := delay
                   noiseShiftRegister := reg }) := by
  rcases Bool.eq_false_or_eq_true o.testHeld with ht | ht
  · refine ⟨o.accumulator, if cfg.msbStaleUnderTest = true then o.msbRising else false, o.noiseOverwriteDelay - 1,
      Nat.sub_le .., ?_⟩
    by_cases h1 : o.noiseOverwriteDelay = 1
    · refine .inr ⟨forcedRegister cfg.toCfgDigital o.waveformSelect o.noiseShiftRegister, ?_⟩
      rw [clockOsc_of_testHeld_of_eq_one cfg m ht h1 rfl, noiseRecompute_eq, h1]
    · exact .inl (clockOsc_of_testHeld_of_ne_one cfg m ht h1)
  · refine ⟨advance o, msbRises o.accumulator (advance o), o.noiseOverwriteDelay, le_rfl, ?_⟩
    by_cases hn : noiseClockRises o.accumulator (advance o) = true
    · exact .inr ⟨noiseClear cfg.noiseTaps o.waveformSelect (noiseShift o.noiseShiftRegister),
        clockOsc_of_noiseClockRises cfg m ht hn⟩
    · exact .inl (clockOsc_of_not_noiseClockRises cfg m ht hn)

theorem recordInv_clockOsc (h : RecordInv cfg.toCfgDigital o) : RecordInv cfg.toCfgDigital (clockOsc cfg m o) := by
  obtain ⟨hdelay, hword⟩ := h
  obtain ⟨acc, msb, delay, hle, heq | ⟨reg, heq⟩⟩ := clockOsc_eq_or_recompute cfg m o
  · exact heq ▸ ⟨hle.trans hdelay, hword⟩
  · exact heq ▸ ⟨hle.trans hdelay, rfl⟩

theorem recordInv_portControl (d : Byte) (h : RecordInv cfg.toCfgDigital o) :
    RecordInv cfg.toCfgDigital (portControl cfg.toCfgDigital d o) := by
  obtain ⟨hdelay, hword⟩ := h
  rw [portControl_eq]
  refine ⟨?_, hword⟩
  dsimp only
  split_ifs
  · exact le_rfl
  · exact hdelay

theorem recordInv_resetOsc : RecordInv cfg.toCfgDigital (resetOsc cfg m o) := by
  rw [resetOsc_eq]
  exact ⟨Nat.zero_le _, rfl⟩

/-- Every change keeps the record's part of the invariant: it touches neither the countdown nor the noise generator, but
for CONTROL, CLOCK, CYCLE and RESET. -/
theorem OscChange.recordInv (h : OscChange cfg m v o i p) (ho : RecordInv cfg.toCfgDigital o) :
    RecordInv cfg.toCfgDigital p := by
  cases h with
  | wrControl d => exact recordInv_portControl d ho
  | clock => exact recordInv_clockOsc ho
  | cycle q hq acc y =>
    rcases hq with rfl | rfl
    · exact ho
    · exact recordInv_clockOsc (m := m) ho
  | reset => exact recordInv_resetOsc
  | _ => exact ho

theorem cacheFresh_clockOsc (h : CacheFresh cfg m o) : CacheFresh cfg m (clockOsc cfg m o) := by
  obtain ⟨acc, msb, delay, -, heq | ⟨reg, heq⟩⟩ := clockOsc_eq_or_recompute cfg m o
  · exact heq ▸ h
  · exact heq ▸ rfl

/-- Every change keeps the cached analog sample fresh, where the zero level stands (R38 (b)). -/
theorem OscChange.cacheFresh (h : OscChange cfg m v o i p) (ho : CacheFresh cfg m o)
    (hzero : p.zeroLevelVoltage = o.zeroLevelVoltage) : CacheFresh cfg m p := by
  cases h with
  | wrControl d =>
    rw [portControl_eq]
    exact ho
  | clock => exact cacheFresh_clockOsc ho
  | cycle q hq acc y =>
    rcases hq with rfl | rfl
    · exact ho
    · exact cacheFresh_clockOsc ho
  | reset => exact rfl
  | config n nl =>
    rw [CacheFresh, hzero]
    exact ho
  | _ => exact ho

/-- Every change but CONFIG keeps the zero level; CONFIG writes that of its chip model (R29). -/
theorem OscChange.zeroLevel (h : OscChange cfg m v o i p) : p.zeroLevelVoltage = o.zeroLevelVoltage ∨
    ∃ n nl, i = .config n nl ∧ p.zeroLevelVoltage = zeroLevelOf cfg.toAnalog n := by
  cases h with
  | wrControl d => exact .inl (by rw [portControl_eq])
  | clock => exact .inl (clockOsc_zeroLevelVoltage cfg m o)
  | cycle q hq acc y =>
    rcases hq with rfl | rfl
    · exact .inl rfl
    · exact .inl (clockOsc_zeroLevelVoltage cfg m o)
  | config n nl => exact .inr ⟨n, nl, rfl, rfl⟩
  | _ => exact .inl rfl

/-- Every record after an operation comes from one before it. -/
theorem exists_oscChange_of_mem (h : perform cfg i s = .next t) (hp : p ∈ t.oscs) :
    ∃ v, ∃ o ∈ s.oscs, OscChange cfg s.model v o i p := by
  obtain ⟨v, hv, rfl⟩ := List.mem_iff_getElem.mp hp
  have hvs : v < s.oscs.length := (sharedChange_of_perform h).length ▸ hv
  exact ⟨v, s.oscs[v], List.getElem_mem hvs,
    oscChange_of_perform h (List.getElem?_eq_getElem hvs) (List.getElem?_eq_getElem hv)⟩

/-- Every operation keeps the invariant. -/
theorem invOf_of_perform (hs : InvOf cfg.toCfgDigital s) (h : perform cfg i s = .next t) :
    InvOf cfg.toCfgDigital t := by
  have hshared := sharedChange_of_perform h
  have hrecords : t.hasReset = true → ∀ p ∈ t.oscs, RecordInv cfg.toCfgDigital p := by
    intro ht p hp
    obtain ⟨v, o, ho, hchange⟩ := exists_oscChange_of_mem h hp
    rcases hshared.hasReset with hsame | rfl
    · have hr : s.hasReset = true := hsame ▸ ht
      exact hchange.recordInv ⟨hs.countdown hr o ho, hs.noiseWordOk hr o ho⟩
    · cases hchange with
      | same _ hne => exact absurd rfl hne
      | reset => exact recordInv_resetOsc
  exact
    { cfgOk := hs.cfgOk
      count := hshared.length.trans hs.count
      seqOk := seqWf_of_perform hs.seqOk h
      idleFirst := idle_of_perform hs.idleFirst h
      countdown := fun ht p hp => (hrecords ht p hp).1
      noiseWordOk := fun ht p hp => (hrecords ht p hp).2 }

/-- CONFIG establishes the zero levels of its chip model (R207). -/
theorem configuredOf_configState (n : ChipModel) (nl : N) : ConfiguredOf cfg (configState n nl cfg s) := by
  intro p hp
  obtain ⟨o, -, rfl⟩ := List.mem_map.mp hp
  rfl

/-- Every operation keeps the zero levels at those of the chip model in force (R29). -/
theorem configuredOf_of_perform (hs : ConfiguredOf cfg s) (h : perform cfg i s = .next t) : ConfiguredOf cfg t := by
  by_cases hconfig : ∃ n nl, i = .config n nl
  · obtain ⟨n, nl, rfl⟩ := hconfig
    obtain ⟨-, rfl⟩ := perform_config_iff.mp h
    exact configuredOf_configState n nl
  · intro p hp
    obtain ⟨v, o, ho, hchange⟩ := exists_oscChange_of_mem h hp
    have hlevel := hchange.zeroLevel.resolve_right fun ⟨n, nl, hi, _⟩ => hconfig ⟨n, nl, hi⟩
    have hmodel := (sharedChange_of_perform h).model.resolve_right fun ⟨nl, hi⟩ => hconfig ⟨_, nl, hi⟩
    rw [hlevel, hs o ho, hmodel.1]

/-- Every operation that leaves the chip model keeps the noise caches fresh (R38 (b)). -/
theorem noiseCacheFreshOf_of_perform (hs : ConfiguredOf cfg s) (hfresh : NoiseCacheFreshOf cfg s)
    (h : perform cfg i s = .next t) (hmodel : t.model = s.model) : NoiseCacheFreshOf cfg t := by
  intro p hp
  obtain ⟨v, o, ho, hchange⟩ := exists_oscChange_of_mem h hp
  have hlevel : p.zeroLevelVoltage = o.zeroLevelVoltage := by
    rw [configuredOf_of_perform hs h p hp, hs o ho, hmodel]
  rw [hmodel]
  exact hchange.cacheFresh (hfresh o ho) hlevel

end Relation

/-! ### The obligations -/

/-- Settles O51: a step is an operation on the state with one input taken, which the invariant does not see. -/
theorem everyStepKeepsTheMachineInvariant : Obligations.EveryStepKeepsTheMachineInvariant := by
  have hrelation : ∀ (S N : Type) (cfg : Cfg S N) (s t : StateOf S N),
      InvOf cfg.toCfgDigital s → stepOf cfg s = .next t → InvOf cfg.toCfgDigital t := by
    intro S N cfg s t hs h
    obtain ⟨op, rest, i, -, -, hperform⟩ := stepOf_next_iff.mp h
    obtain ⟨hcfg, hcount, hseq, hidle, hcountdown, hword⟩ := hs
    exact invOf_of_perform (s := { s with inputs := rest }) ⟨hcfg, hcount, hseq, hidle, hcountdown, hword⟩ hperform
  refine ⟨hrelation, fun s t hs h => ?_⟩
  obtain ⟨hstep, hcfg⟩ := underCfg_next_iff.mp ((step_eq_stepOf s).symm.trans h)
  rw [Inv, hcfg]
  exact hrelation _ _ s.cfg.toCfg s.toStateOf t.toStateOf hs hstep

/-- Settles O53: the zero levels, then the caches where the chip model stays; the input is seen by neither. -/
theorem noiseCacheFollowsTheConfiguration : Obligations.NoiseCacheFollowsTheConfiguration := by
  have hrelation : ∀ (S N : Type) (cfg : Cfg S N) (s t : StateOf S N), ConfiguredOf cfg s → stepOf cfg s = .next t →
      ConfiguredOf cfg t ∧ (NoiseCacheFreshOf cfg s → t.model = s.model → NoiseCacheFreshOf cfg t) := by
    intro S N cfg s t hs h
    obtain ⟨op, rest, i, -, -, hperform⟩ := stepOf_next_iff.mp h
    exact ⟨configuredOf_of_perform (s := { s with inputs := rest }) hs hperform,
      fun hfresh => noiseCacheFreshOf_of_perform (s := { s with inputs := rest }) hs hfresh hperform⟩
  refine ⟨hrelation, fun s t hs h => ?_⟩
  obtain ⟨hstep, hcfg⟩ := underCfg_next_iff.mp ((step_eq_stepOf s).symm.trans h)
  unfold Configured NoiseCacheFresh
  rw [hcfg]
  exact hrelation _ _ s.cfg.toCfg s.toStateOf t.toStateOf hs hstep

/-- Settles O45: CONFIG establishes the levels, and with the values in force it changes nothing. -/
theorem configTwiceIsConfigOnce : Obligations.ConfigTwiceIsConfigOnce := by
  intro s t m nl h
  obtain ⟨hperform, hcfg⟩ := exec_next_iff.mp h
  obtain ⟨hidle, ht⟩ := perform_config_iff.mp hperform
  have hlevels : Configured t := by
    rw [Configured, hcfg, ht]
    exact configuredOf_configState m nl
  have hsame : configState m nl t.cfg.toCfg t.toStateOf = t.toStateOf := by
    have hself := configState_eq_self hlevels
    rw [ht] at hself ⊢
    exact hself
  refine ⟨hlevels, exec_next_iff.mpr ⟨perform_config_iff.mpr ⟨?_, hsame.symm⟩, rfl⟩⟩
  rw [ht]
  exact hidle

/-- Every oscillator of the state after reset is `resetOsc` of one whose zero level is `ZERO(0)` (R40, R262, log 7). -/
theorem eq_resetOsc_of_mem_reset {o : Osc} (ho : o ∈ State.reset.oscs) :
    o = resetOsc defaultCfg.toCfg resetModel (blankOsc (zeroLevelOf defaultCfg.analog resetModel)) :=
  List.eq_of_mem_replicate ho

/-- Settles O52: every record is `resetOsc`, which has the invariant; the rest is the default parameters. -/
theorem stateAfterResetHasTheInvariant : Obligations.StateAfterResetHasTheInvariant := by
  refine ⟨⟨by decide, List.length_replicate .., rfl, fun _ => rfl, ?_, ?_⟩, ?_, ?_⟩
  · exact fun _ o ho => eq_resetOsc_of_mem_reset ho ▸ (recordInv_resetOsc (cfg := defaultCfg.toCfg)).1
  · exact fun _ o ho => eq_resetOsc_of_mem_reset ho ▸ (recordInv_resetOsc (cfg := defaultCfg.toCfg)).2
  · exact fun o ho => eq_resetOsc_of_mem_reset ho ▸ rfl
  · exact fun o ho => eq_resetOsc_of_mem_reset ho ▸ rfl

/-- Settles O43: the record of `resetOsc_eq` at the default parameters, whose noise word is computed. -/
theorem stateAfterResetHoldsTheTable : Obligations.StateAfterResetHoldsTheTable := by
  have hword : noiseWord defaultTaps defaultForceMask = 0xFF0#12 := by decide
  refine ⟨List.length_replicate .., rfl, fun o ho => ?_⟩
  rw [eq_resetOsc_of_mem_reset ho, resetOsc_eq]
  refine ⟨rfl, rfl, rfl, rfl, rfl, rfl, rfl, rfl, hword, ?_, rfl, rfl, rfl, rfl⟩
  rw [← hword]
  rfl

end Sys2Proof.Machine
end

section
/-! PROOFS. The register writes put together: the two bytes of a register, and a write repeated. -/

namespace Sys2Proof.Machine

/-! ### The two bytes of a register -/

theorem withFreqLo_lowByte (f : Frequency) (d : Byte) : (withFreqLo f d).extractLsb' 0 8 = d := by
  rw [withFreqLo, BitVec.extractLsb'_append_eq_of_add_le (by decide), BitVec.extractLsb'_eq_self]

theorem withPwLo_lowByte (p : Word12) (d : Byte) : (withPwLo p d).extractLsb' 0 8 = d := by
  rw [withPwLo, BitVec.extractLsb'_append_eq_of_add_le (by decide), BitVec.extractLsb'_eq_self]

/-- The two bytes of a frequency, the low one written first, are the frequency (R85). -/
theorem withFreqHi_withFreqLo (old f : Frequency) :
    withFreqHi (withFreqLo old (f.extractLsb' 0 8)) (f.extractLsb' 8 8) = f := by
  rw [withFreqHi, withFreqLo_lowByte]
  exact BitVec.extractLsb'_append_extractLsb'

/-- The low byte and the high digit of a pulse width, written in this order, are the pulse width (R85). -/
theorem withPwHi_withPwLo (old p : Word12) :
    withPwHi (withPwLo old (p.extractLsb' 0 8)) (0#4 ++ p.extractLsb' 8 4) = p := by
  have hdigit : (0#4 ++ p.extractLsb' 8 4 : Byte).extractLsb' 0 4 = p.extractLsb' 8 4 := by
    rw [BitVec.extractLsb'_append_eq_of_add_le (by decide), BitVec.extractLsb'_eq_self]
  rw [withPwHi, withPwLo_lowByte, hdigit]
  exact BitVec.extractLsb'_append_extractLsb'

/-- The host stays ready on an oscillator whose record it replaces. -/
theorem HostReady.withOsc {s : State} {v : Nat} {o : Osc} (h : HostReady s v o) (p : Osc) :
    HostReady (s.withOsc v p) v p where
  afterReset := h.afterReset
  idle := h.idle
  voice := h.voice
  record := by
    obtain ⟨hv, -⟩ := List.getElem?_eq_some_iff.mp h.record
    exact List.getElem?_set_self hv

/-- Settles O15: the low byte stays under the write of the high one. -/
theorem pseudoWritesSetWholeRegisters : Obligations.PseudoWritesSetWholeRegisters := by
  refine fun s v o h => ⟨fun f => ?_, fun p => ?_⟩
  · rw [pseudoWrFreq, runInstrs_cons_next (exec_write_eq h fun t => perform_wrFreqLo_iff),
      runInstrs_cons_next (exec_write_eq (h.withOsc _) fun t => perform_wrFreqHi_iff), runInstrs, withOsc_withOsc,
      portFreqLo, portFreqHi, withFreqHi_withFreqLo]
  · rw [pseudoWrPw, runInstrs_cons_next (exec_write_eq h fun t => perform_wrPwLo_iff),
      runInstrs_cons_next (exec_write_eq (h.withOsc _) fun t => perform_wrPwHi_iff), runInstrs, withOsc_withOsc,
      portPwLo, portPwHi, withPwHi_withPwLo]

/-! ### A write repeated -/

theorem withFreqLo_idem (f : Frequency) (d : Byte) : withFreqLo (withFreqLo f d) d = withFreqLo f d := by
  have := f.isLt; have := d.isLt
  rw [← BitVec.toNat_inj]
  simp only [withFreqLo_eq_ofNat, BitVec.toNat_ofNat]
  omega

theorem withFreqHi_idem (f : Frequency) (d : Byte) : withFreqHi (withFreqHi f d) d = withFreqHi f d := by
  rw [← BitVec.toNat_inj]
  simp only [withFreqHi_eq_ofNat, BitVec.toNat_ofNat]
  omega

theorem withPwLo_idem (p : Word12) (d : Byte) : withPwLo (withPwLo p d) d = withPwLo p d := by
  have := p.isLt; have := d.isLt
  rw [← BitVec.toNat_inj]
  simp only [withPwLo_eq_ofNat, BitVec.toNat_ofNat]
  omega

theorem withPwHi_idem (p : Word12) (d : Byte) : withPwHi (withPwHi p d) d = withPwHi p d := by
  rw [← BitVec.toNat_inj]
  simp only [withPwHi_eq_ofNat, BitVec.toNat_ofNat]
  omega

section Port
variable {S : Type} (cfg : CfgDigital) (sel : Nibble) (d : Byte) (o : OscOf S)

/-- A CONTROL write repeated finds no rising edge of test (R105). -/
theorem portControl_idem : portControl cfg d (portControl cfg d o) = portControl cfg d o := by
  rw [portControl_eq, portControl_eq]
  simp +contextual

/-- Every port's write is idempotent (R58). -/
theorem regWrite_idem : regWrite cfg sel d (regWrite cfg sel d o) = regWrite cfg sel d o := by
  rcases Nat.lt_or_ge sel.toNat 5 with h | h
  · unfold regWrite
    generalize sel.toNat = c at h
    interval_cases c
    · simp [portFreqLo, withFreqLo_idem]
    · simp [portFreqHi, withFreqHi_idem]
    · simp [portPwLo, withPwLo_idem]
    · simp [portPwHi, withPwHi_idem]
    · exact portControl_idem cfg d o
  · rw [regWrite_other cfg d o h, regWrite_other cfg d o h]

end Port

theorem modifyOsc_modifyOsc {S N : Type} (s : StateOf S N) (v : Nat) (f g : OscOf S → OscOf S) :
    (s.modifyOsc v f).modifyOsc v g = s.modifyOsc v (g ∘ f) := by
  simp only [StateOf.modifyOsc, List.modify_modify_eq]

/-- Settles O16: the writes of all selects are one operation, whose port is idempotent. -/
theorem registerWritesAreIdempotent : Obligations.RegisterWritesAreIdempotent := by
  intro s t v sel d h
  obtain ⟨hperform, hcfg⟩ := exec_next_iff.mp h
  rw [perform_decodeWrite] at hperform
  obtain ⟨hv, hr, hq, ht⟩ := hostVoiceOp_next_iff.mp hperform
  have hport : (regWrite s.cfg.toCfgDigital sel d : Osc → Osc) ∘ regWrite s.cfg.toCfgDigital sel d =
      regWrite s.cfg.toCfgDigital sel d := funext fun o => regWrite_idem ..
  have hagain : t.toStateOf = t.toStateOf.modifyOsc v (regWrite s.cfg.toCfgDigital sel d) := by
    rw [ht, modifyOsc_modifyOsc, toCfg_toCfgDigital, hport]
  refine exec_next_iff.mpr ⟨perform_decodeWrite.trans (hostVoiceOp_next_iff.mpr ?_), rfl⟩
  rw [hcfg]
  exact ⟨hv, by rw [ht]; exact hr, by rw [ht]; exact hq, hagain⟩

end Sys2Proof.Machine
end

section
/-! PROOFS. The zero noise register, which the shift keeps and reaches from no other; and rules that stand alone: the
edges of the accumulator, the pages, and what runs before the first RESET. -/

namespace Sys2Proof.Machine

/-! ### The zero register -/

/-- The shift keeps the zero register (R149). -/
theorem noiseShift_zero : noiseShift 0#23 = 0#23 := by decide

/-- The clear keeps the zero register (R143). -/
theorem noiseClear_zero (taps : List (Fin 23 × Fin 12)) (c : Nibble) : noiseClear taps c 0#23 = 0#23 := by
  unfold noiseClear
  split_ifs <;> simp

/-- A register whose shift has no bits set has none itself: the shift drops bit 22 only, and the feedback holds that bit
beside bit 17 (R141, R142, R149). -/
theorem eq_zero_of_noiseShift_eq_zero {r : NoiseReg} (h : noiseShift r = 0#23) : r = 0#23 := by
  have hbit : ∀ i, i < 23 → (if i = 0 then r.getLsbD 22 != r.getLsbD 17 else r.getLsbD (i - 1)) = false :=
    fun i hi => by rw [← noiseShift_bit r i hi, h, BitVec.getLsbD_zero]
  have hlow : ∀ i, i < 22 → r.getLsbD i = false := fun i hi => hbit (i + 1) (by omega)
  refine BitVec.eq_of_getLsbD_eq fun i hi => ?_
  rw [BitVec.getLsbD_zero]
  rcases Nat.lt_succ_iff_lt_or_eq.mp hi with h22 | rfl
  · exact hlow i h22
  · have hfeedback : (r.getLsbD 22 != r.getLsbD 17) = false := hbit 0 (by decide)
    rwa [hlow 17 (by decide), Bool.bne_false] at hfeedback

/-- A register that its shift leaves as it is has all bits equal, and so the feedback bit 0 (R141, R142). -/
theorem eq_zero_of_noiseShift_eq_self {r : NoiseReg} (h : noiseShift r = r) : r = 0#23 := by
  have hbit : ∀ i, i < 23 → r.getLsbD i = if i = 0 then r.getLsbD 22 != r.getLsbD 17 else r.getLsbD (i - 1) :=
    fun i hi => by rw [← noiseShift_bit r i hi, h]
  have hall : ∀ i, i < 23 → r.getLsbD i = r.getLsbD 0 := by
    intro i hi
    induction i with
    | zero => rfl
    | succ i ih => exact (hbit (i + 1) hi).trans (ih (by omega))
  have hfeedback : r.getLsbD 0 = (r.getLsbD 22 != r.getLsbD 17) := hbit 0 (by decide)
  have hfirst : r.getLsbD 0 = false := by
    rw [hfeedback, hall 22 (by decide), hall 17 (by decide), bne_self_eq_false]
  exact BitVec.eq_of_getLsbD_eq fun i hi => by rw [hall i hi, hfirst, BitVec.getLsbD_zero]

/-- Settles O28: the shift keeps zero and moves every other register to another nonzero one; no clear below code 9. -/
theorem zeroIsTheOnlyStuckNoiseRegister : Obligations.ZeroIsTheOnlyStuckNoiseRegister := by
  refine fun S N cfg m o => ⟨fun h => ?_, fun hcode hne => ?_⟩
  · rw [noiseStep_register, h, noiseShift_zero, noiseClear_zero]
  · have hkeep : (noiseStep cfg m o).noiseShiftRegister = noiseShift o.noiseShiftRegister :=
      if_neg (Nat.not_lt.mpr hcode)
    rw [hkeep]
    exact ⟨mt eq_zero_of_noiseShift_eq_zero hne, mt eq_zero_of_noiseShift_eq_self hne⟩

/-- CLOCK keeps the zero register but for the force (R149). -/
theorem clockOsc_register_zero {S N : Type} (cfg : Cfg S N) (m : ChipModel) {o : OscOf S}
    (h : o.noiseShiftRegister = 0#23) (hforce : ¬ (o.testHeld = true ∧ o.noiseOverwriteDelay = 1)) :
    (clockOsc cfg m o).noiseShiftRegister = 0#23 := by
  rcases Bool.eq_false_or_eq_true o.testHeld with ht | ht
  · rw [clockOsc_of_testHeld_of_ne_one cfg m ht fun h1 => hforce ⟨ht, h1⟩]
    exact h
  · by_cases hn : noiseClockRises o.accumulator (advance o) = true
    · rw [clockOsc_of_noiseClockRises cfg m ht hn]
      exact (zeroIsTheOnlyStuckNoiseRegister S N cfg m (advanceOsc o)).1 h
    · rw [clockOsc_of_not_noiseClockRises cfg m ht hn]
      exact h

/-- Settles O29: of the ways a record can change, only RESET and a CLOCK, or that of a CYCLE, reach the register. -/
theorem onlyForceOrResetLeavesZero : Obligations.OnlyForceOrResetLeavesZero := by
  intro s t i v o p h ho hp hzero hne
  have hchange := oscChange_of_perform (exec_next_iff.mp h).1 ho hp
  have hforce : (clockOsc s.cfg.toCfg s.model o).noiseShiftRegister ≠ 0#23 →
      o.testHeld = true ∧ o.noiseOverwriteDelay = 1 :=
    not_imp_comm.mp (clockOsc_register_zero _ _ hzero)
  cases hchange with
  | reset => exact .inl rfl
  | clock => exact .inr ⟨.inl rfl, hforce hne⟩
  | cycle q hq acc y =>
    rcases hq with rfl | rfl
    · exact absurd hzero hne
    · exact .inr ⟨.inr rfl, hforce hne⟩
  | wrControl d => exact absurd hzero (by rwa [portControl_eq] at hne)
  | _ => exact absurd hzero hne

/-! ### The mask, the edges and the pages -/

/-- Settles O26: the mask bit by bit. -/
theorem clearMaskIsTheTapPositions : Obligations.ClearMaskIsTheTapPositions :=
  ⟨noiseClearMask_bit_iff, by decide⟩

/-- Settles O30: bit 23 rises from a number whose bits 16 to 22 are set, bit 19 among them. -/
theorem edgesNeverCoincide : Obligations.EdgesNeverCoincide := by
  rintro prev f ⟨hmsb, hnoise⟩
  have := prev.isLt; have := f.isLt
  rw [msbRises_eq_decide, decide_eq_true_eq, BitVec.toNat_add, BitVec.toNat_setWidth] at hmsb
  rw [noiseClockRises_iff] at hnoise
  omega

/-- Settles O39: the pages 0 to 2 are the codes without the pulse bit, 3 to 6 those with it at the low level and 7 to 10
those at the high level. -/
theorem pagesAreTheEleven : Obligations.PagesAreTheEleven := by
  refine ⟨fun c high _ h7 => pageNumber_le h7 high, fun c c' high high' h1 h7 h1' h7' h => ?_, fun t ht => ?_⟩
  · simp only [pageNumber_eq] at h
    obtain rfl : c = c' := by split_ifs at h <;> omega
    refine ⟨rfl, fun h4 => ?_⟩
    have hpulse : ¬ c ≤ 3 := by omega
    rw [if_neg hpulse, if_neg hpulse] at h
    split_ifs at h with hhigh hhigh' hhigh'
    · exact hhigh.trans hhigh'.symm
    · omega
    · omega
    · exact (Bool.eq_false_of_not_eq_true hhigh).trans (Bool.eq_false_of_not_eq_true hhigh').symm
  · rcases Nat.lt_or_ge t 7 with hlow | hhigh
    · exact ⟨t + 1, false, by omega, by omega, by simp [pageNumber]⟩
    · exact ⟨t - 3, true, by omega, by omega, by rw [pageNumber, if_pos ⟨by omega, rfl⟩]; omega⟩

/-! ### Before the first RESET -/

section Refused
variable {S N : Type} {cfg : Cfg S N} {v : Nat} {s n : StateOf S N} {i : Instr N}

theorem hostOp_refused_beforeReset (hr : s.hasReset = false) : hostOp s n = .refused .beforeReset :=
  if_pos hr

theorem hostVoiceOp_refused_beforeReset (hv : voiceOk cfg.nvoices v = true) (hr : s.hasReset = false) :
    hostVoiceOp cfg.nvoices v s n = .refused .beforeReset := by
  rw [hostVoiceOp, if_neg (Nat.not_le.mpr (voice_lt_of_voiceOk hv)), hostOp_refused_beforeReset hr]

theorem microOp_refused_beforeReset {after : Option Sequencer} (hv : voiceOk cfg.nvoices v = true)
    (hr : s.hasReset = false) : microOp cfg.nvoices v s after n = .refused .beforeReset := by
  simp [microOp, voice_lt_of_voiceOk hv, hr]

/-- Before the first RESET every well-formed operation but RESET and CONFIG is refused by that name (R261, log 9). -/
theorem perform_refused_beforeReset (hwf : i.wf cfg.nvoices = true) (hr : s.hasReset = false) (hreset : i ≠ .reset)
    (hconfig : ∀ m nl, i ≠ .config m nl) : perform cfg i s = .refused .beforeReset := by
  cases i with
  | wrFreqLo | wrFreqHi | wrPwLo | wrPwHi | wrControl | rdOsc => exact hostVoiceOp_refused_beforeReset hwf hr
  | wrOther v sel d =>
    obtain ⟨hv, hsel⟩ := Bool.and_eq_true_iff.mp hwf
    exact (if_pos (of_decide_eq_true hsel)).trans (hostVoiceOp_refused_beforeReset hv hr)
  | clock | synchronize | output => exact microOp_refused_beforeReset hwf hr
  | cycle => exact hostOp_refused_beforeReset hr
  | reset => exact absurd rfl hreset
  | config m nl => exact absurd rfl (hconfig m nl)

end Refused

/-- Settles O18: every admission but those of RESET and CONFIG asks for the first RESET before anything about the
sequencer. -/
theorem onlyResetAndConfigBeforeTheFirstReset : Obligations.OnlyResetAndConfigBeforeTheFirstReset := by
  intro s hr
  refine ⟨fun i hwf hreset hconfig => ?_, ⟨_, exec_reset_eq s, rfl, fun o ho => ?_⟩, fun m nl hidle => ?_⟩
  · exact exec_refused_iff.mpr (perform_refused_beforeReset hwf hr hreset hconfig)
  · obtain ⟨p, -, rfl⟩ := List.mem_map.mp ho
    rfl
  · exact ⟨{ s with toStateOf := configState m nl s.cfg.toCfg s.toStateOf },
      exec_next_iff.mpr ⟨perform_config_iff.mpr ⟨hidle, rfl⟩, rfl⟩, hr⟩

end Sys2Proof.Machine
end

section
/-! PROOFS. Runs of micro-operations. A run of one kind of micro-operation is the fold of its effect, and the sequencer
runs beside it (`MicroKind.runOf_eq`); over distinct oscillators it collects the set of those served (`servedSet`),
whose one form hides the order. The effects of CLOCKs commute, those of SYNCHRONIZEs too. -/

namespace Sys2Proof.Machine

/-! ### The sequencer over a list of oscillators -/

section Sequencer
variable {n v : Nat} {l l' : List Nat}

/-- The set of the members of a list, in its one form. -/
def servedSet (l : List Nat) : List Nat := l.foldl (fun served v => insertVoice v served) []

theorem servedSet_concat : servedSet (l ++ [v]) = insertVoice v (servedSet l) := List.foldl_concat ..

@[simp] theorem mem_servedSet {u : Nat} : u ∈ servedSet l ↔ u ∈ l := by
  induction l using List.reverseRecOn with
  | nil => simp [servedSet]
  | append_singleton l v ih => rw [servedSet_concat, mem_insertVoice, ih, List.mem_append, List.mem_singleton, or_comm]

theorem servedSet_pairwise : (servedSet l).Pairwise (· < ·) := by
  induction l using List.reverseRecOn with
  | nil => exact List.Pairwise.nil
  | append_singleton l v ih => exact servedSet_concat ▸ insertVoice_pairwise ih

/-- The set of all oscillators in any order (R221). -/
theorem servedSet_of_perm_range (h : l.Perm (List.range n)) : servedSet l = List.range n :=
  pairwise_lt_ext servedSet_pairwise List.pairwise_lt_range fun u => by simp [h.mem_iff]

/-- Distinct oscillators, served one after another by a transition that puts each into the set: the set in the end is
that of them all. -/
theorem foldlM_served {after : Nat → Sequencer → Option Sequencer} {q : Sequencer} {wrap : List Nat → Sequencer}
    (hfirst : ∀ v, after v q = some (wrap [v]))
    (hnext : ∀ v served, v < n → v ∉ served → after v (wrap served) = some (wrap (insertVoice v served)))
    (hl : l.Nodup) (hn : ∀ v ∈ l, v < n) :
    l.foldlM (fun q v => after v q) q = some (if l = [] then q else wrap (servedSet l)) := by
  induction l using List.reverseRecOn with
  | nil => rfl
  | append_singleton l v ih =>
    obtain ⟨hnodup, -, hdisjoint⟩ := List.nodup_append.mp hl
    have hv : v ∉ l := fun hv => hdisjoint v hv v (List.mem_singleton.mpr rfl) rfl
    rw [List.foldlM_append, ih hnodup fun u hu => hn u (List.mem_append_left _ hu), servedSet_concat,
      if_neg (List.append_ne_nil_of_right_ne_nil _ (List.cons_ne_nil _ _))]
    rcases eq_or_ne l [] with rfl | hne
    · exact (bind_pure _).trans (hfirst v)
    · rw [if_neg hne]
      exact (bind_pure _).trans (hnext v _ (hn v (by simp)) (by simpa using hv))

/-- The same for all oscillators in any order. -/
theorem foldlM_served_all {after : Nat → Sequencer → Option Sequencer} {q : Sequencer} {wrap : List Nat → Sequencer}
    (hl : l.Perm (List.range n)) (hfirst : ∀ v, after v q = some (wrap [v]))
    (hnext : ∀ v served, v < n → v ∉ served → after v (wrap served) = some (wrap (insertVoice v served))) :
    l.foldlM (fun q v => after v q) q = some (if n = 0 then q else wrap (List.range n)) := by
  have hempty : l = [] ↔ n = 0 := by rw [← List.length_eq_zero_iff, hl.length_eq, List.length_range]
  rw [foldlM_served hfirst hnext (hl.nodup_iff.mpr List.nodup_range) fun v hv => List.mem_range.mp (hl.mem_iff.mp hv),
    servedSet_of_perm_range hl]
  simp only [hempty]

theorem seqClock_foldlM (hl : l.Perm (List.range n)) :
    l.foldlM (fun q v => seqClock v q) .idle = some (if n = 0 then .idle else .clocking (List.range n)) :=
  foldlM_served_all hl (fun _ => rfl) fun v served _ hv => by simp [seqClock, hv]

theorem seqSync_foldlM (hl : l.Perm (List.range n)) {served : List Nat} (hall : allServed n served = true) :
    l.foldlM (fun q v => seqSync n v q) (.clocking served) =
      some (if n = 0 then .clocking served else .syncing (List.range n)) :=
  foldlM_served_all hl (fun v => by simp [seqSync, hall]) fun v served _ hv => by simp [seqSync, hv]

theorem allServed_range (n : Nat) : allServed n (List.range n) = true :=
  allServed_iff.mpr fun _ hu => List.mem_range.mpr hu

theorem seqAfterOutput_of_missing {served : List Nat} (hv : v < n) (hmissing : v ∉ served) :
    seqAfterOutput n served = .outputting served :=
  if_neg fun hall => hmissing (allServed_iff.mp hall v hv)

/-- The last OUTPUT of all leaves `IDLE` (R221). -/
theorem seqOutput_foldlM (hl : l.Perm (List.range n)) {served : List Nat} (hall : allServed n served = true) :
    l.foldlM (fun q v => seqOutput n v q) (.syncing served) = some (if n = 0 then .syncing served else .idle) := by
  rw [← show seqAfterOutput n (List.range n) = .idle from if_pos (allServed_range n)]
  exact foldlM_served_all hl (fun v => by simp [seqOutput, hall])
    fun v served hlt hv => by rw [seqAfterOutput_of_missing hlt hv]; simp [seqOutput, hv]

end Sequencer

/-! ### A run of one kind of micro-operation -/

/-- The micro-operation `mk` has this transition of the sequencer and this effect, which does not see the sequencer. -/
structure MicroKind {S N : Type} (cfg : Cfg S N) (mk : Nat → Instr N) (after : Nat → Sequencer → Option Sequencer)
    (effect : StateOf S N → Nat → StateOf S N) : Prop where
  perform_eq : ∀ s v, perform cfg (mk v) s = microOp cfg.nvoices v s (after v s.seq) (effect s v)
  effect_seq : ∀ s v q, effect { s with seq := q } v = { effect s v with seq := q }
  shared : ∀ s v, SameShared s (effect s v)

theorem clockKind {S N : Type} (cfg : Cfg S N) : MicroKind cfg .clock seqClock (clockVoice cfg) :=
  ⟨fun _ _ => rfl, fun _ _ _ => rfl, clockVoice_shared cfg⟩

theorem syncKind {S N : Type} (cfg : Cfg S N) :
    MicroKind cfg .synchronize (seqSync cfg.nvoices) (syncVoice cfg) :=
  ⟨fun _ _ => rfl, fun s v q => by rw [syncVoice_eq, syncVoice_eq]; rfl, syncVoice_shared cfg⟩

theorem outputKind {S N : Type} (cfg : Cfg S N) :
    MicroKind cfg .output (seqOutput cfg.nvoices) (outputVoice cfg) :=
  ⟨fun _ _ => rfl, fun _ _ _ => rfl, outputVoice_shared cfg⟩

section Run
variable {S N : Type} {cfg : Cfg S N} {mk : Nat → Instr N} {after : Nat → Sequencer → Option Sequencer}
  {effect : StateOf S N → Nat → StateOf S N} {l l' : List Nat} {q r : Sequencer}

theorem MicroKind.foldl_seq (h : MicroKind cfg mk after effect) (l : List Nat) (s : StateOf S N) (q : Sequencer) :
    l.foldl effect { s with seq := q } = { l.foldl effect s with seq := q } := by
  induction l generalizing s with
  | nil => rfl
  | cons v l ih => rw [List.foldl_cons, h.effect_seq, ih, List.foldl_cons]

/-- A run of the micro-operation over a list of oscillators: its effects one after another, and beside them the
transitions of the sequencer. -/
theorem MicroKind.runOf_eq (h : MicroKind cfg mk after effect) {s : StateOf S N} (hr : s.hasReset = true)
    (hn : ∀ v ∈ l, v < cfg.nvoices) (hq : l.foldlM (fun q v => after v q) s.seq = some q) :
    runOf cfg (l.map mk) s = .next { l.foldl effect s with seq := q } := by
  induction l generalizing s with
  | nil =>
    obtain rfl : s.seq = q := Option.some.inj hq
    rfl
  | cons v l ih =>
    obtain ⟨hv, hl⟩ := List.forall_mem_cons.mp hn
    obtain ⟨p, hp, hrest⟩ := Option.bind_eq_some_iff.mp hq
    have hfirst : perform cfg (mk v) s = .next { effect s v with seq := p } := by
      rw [h.perform_eq, microOp_ready _ hv hr hp]
    rw [List.map_cons, runOf, hfirst]
    dsimp only
    rw [ih (s := { effect s v with seq := p }) ((h.shared s v).hasReset.trans hr) hl hrest, h.foldl_seq,
      List.foldl_cons]

/-- A run after a run that completes. -/
theorem runOf_append_next {is js : List (Instr N)} {s t : StateOf S N} (h : runOf cfg is s = .next t) :
    runOf cfg (is ++ js) s = runOf cfg js t := by
  induction is generalizing s with
  | nil => simp_all [runOf]
  | cons i is ih =>
    simp only [List.cons_append, runOf] at h ⊢
    cases hi : perform cfg i s with
    | next u => exact ih (by rwa [hi] at h)
    | fault f => exact nomatch f
    | refused r => simp [hi] at h

end Run

/-- What a run on a state that carries its parameters does is what the run of the step relation does. -/
theorem runInstrs_next_iff {is : List Instr} {s t : State} :
    runInstrs is s = .next t ↔ runOf s.cfg.toCfg is s.toStateOf = .next t.toStateOf ∧ t.cfg = s.cfg := by
  rw [runInstrs_eq_runOf, underCfg_next_iff]

/-! ### The order of a pass -/

section Order
variable {S N : Type} (cfg : Cfg S N) {s t : StateOf S N} {l l' : List Nat}

/-- Two changes of records commute where they commute on one record. -/
theorem modifyOsc_comm (s : StateOf S N) (u v : Nat) {f g : OscOf S → OscOf S} (h : ∀ o, f (g o) = g (f o)) :
    (s.modifyOsc u f).modifyOsc v g = (s.modifyOsc v g).modifyOsc u f := by
  rcases eq_or_ne u v with rfl | hne
  · rw [modifyOsc_modifyOsc, modifyOsc_modifyOsc]
    exact congrArg _ (funext fun o => (h o).symm)
  · simp only [StateOf.modifyOsc, List.modify_modify_ne _ _ _ hne]

/-- The clock pass does not depend on its order. -/
theorem clockFold_perm (h : l.Perm l') (s : StateOf S N) :
    l.foldl (clockVoice cfg) s = l'.foldl (clockVoice cfg) s := by
  have : RightCommutative (clockVoice cfg) := ⟨fun s u v => modifyOsc_comm s u v fun _ => rfl⟩
  exact h.foldl_eq s

/-- SYNCHRONIZE as one change of the destination's record. -/
theorem syncVoice_eq_modifyOsc (s : StateOf S N) (v : Nat) : syncVoice cfg s v = s.modifyOsc (dstOf cfg.toCfgDigital v)
    (if resetsVoice cfg s v (dstOf cfg.toCfgDigital v) then clearAccumulator else id) := by
  rw [syncVoice_eq, resetsVoice, decide_eq_true rfl, Bool.true_and]

/-- SYNCHRONIZEs commute: each is decided by flags that no other writes (R163). -/
theorem syncVoice_comm (s : StateOf S N) (u v : Nat) :
    syncVoice cfg (syncVoice cfg s u) v = syncVoice cfg (syncVoice cfg s v) u := by
  rw [syncVoice_eq_modifyOsc cfg (syncVoice cfg s u), syncVoice_eq_modifyOsc cfg (syncVoice cfg s v),
    resetsVoice_syncVoice, resetsVoice_syncVoice, syncVoice_eq_modifyOsc cfg s u, syncVoice_eq_modifyOsc cfg s v]
  refine modifyOsc_comm s _ _ fun o => ?_
  split_ifs <;> rfl

theorem syncFold_perm (h : l.Perm l') (s : StateOf S N) :
    l.foldl (syncVoice cfg) s = l'.foldl (syncVoice cfg) s := by
  have : RightCommutative (syncVoice cfg) := ⟨syncVoice_comm cfg⟩
  exact h.foldl_eq s

/-- States whose readings agree have the same records. -/
theorem oscs_eq_of_readOsc (hlength : s.oscs.length = t.oscs.length)
    (h : ∀ v, v < s.oscs.length → readOsc cfg s v = readOsc cfg t v) : s.oscs = t.oscs := by
  refine List.ext_getElem hlength fun v hs ht => Option.some.inj ?_
  rw [← List.getElem?_eq_getElem hs, ← List.getElem?_eq_getElem ht, getElem?_eq_readOsc (cfg := cfg) hs,
    getElem?_eq_readOsc (cfg := cfg) ht, h v hs]

/-- The records after an output pass do not depend on its order, the results are in its order (R223). -/
theorem outputFold_perm (h : l.Perm l') (hl : l.Nodup) (s : StateOf S N) : l.foldl (outputVoice cfg) s =
    { l'.foldl (outputVoice cfg) s with results := s.results ++ l.map fun v => .sample v (outOf cfg s v) } := by
  have hfold := foldl_shared (outputVoice_shared cfg) l s
  have hfold' := foldl_shared (outputVoice_shared cfg) l' s
  have hoscs : (l.foldl (outputVoice cfg) s).oscs = (l'.foldl (outputVoice cfg) s).oscs := by
    refine oscs_eq_of_readOsc cfg (hfold.length.trans hfold'.length.symm) fun v hv => ?_
    rw [hfold.length] at hv
    by_cases hmem : v ∈ l
    · rw [readOsc_outputFold_of_mem cfg s hl hmem hv,
        readOsc_outputFold_of_mem cfg s (h.nodup_iff.mp hl) (h.mem_iff.mp hmem) hv]
    · rw [readOsc_outputFold_of_notMem cfg s hmem, readOsc_outputFold_of_notMem cfg s (mt h.mem_iff.mpr hmem)]
  rw [hfold.eq_with, hfold'.eq_with, hoscs, outputFold_results cfg s hl]

/-! ### Whole passes in any order -/

variable {cfg} {order served : List Nat}

theorem voice_lt_of_perm_range {n : Nat} (h : order.Perm (List.range n)) : ∀ v ∈ order, v < n :=
  fun _ hv => List.mem_range.mp (h.mem_iff.mp hv)

theorem runOf_clockPass (hr : s.hasReset = true) (hseq : s.seq = .idle) (hpos : cfg.nvoices ≠ 0)
    (h : order.Perm (List.range cfg.nvoices)) : runOf cfg (order.map .clock) s =
      .next { clockedState cfg s with seq := .clocking (List.range cfg.nvoices) } := by
  have hq := seqClock_foldlM h
  rw [← hseq, if_neg hpos] at hq
  rw [(clockKind cfg).runOf_eq hr (voice_lt_of_perm_range h) hq, clockFold_perm cfg h]
  rfl

theorem runOf_syncPass (hr : s.hasReset = true) (hseq : s.seq = .clocking served)
    (hall : allServed cfg.nvoices served = true) (h : order.Perm (List.range cfg.nvoices)) :
    runOf cfg (order.map .synchronize) s = .next { passOver cfg.nvoices (syncVoice cfg) s with
      seq := if cfg.nvoices = 0 then s.seq else .syncing (List.range cfg.nvoices) } := by
  have hq := seqSync_foldlM h hall
  rw [← hseq] at hq
  rw [(syncKind cfg).runOf_eq hr (voice_lt_of_perm_range h) hq, syncFold_perm cfg h, passOver]

theorem runOf_outputPass (hr : s.hasReset = true) (hseq : s.seq = .syncing served)
    (hall : allServed cfg.nvoices served = true) (hpos : cfg.nvoices ≠ 0)
    (h : order.Perm (List.range cfg.nvoices)) :
    runOf cfg (order.map .output) s = .next { order.foldl (outputVoice cfg) s with seq := .idle } := by
  have hq := seqOutput_foldlM h hall
  rw [← hseq, if_neg hpos] at hq
  exact (outputKind cfg).runOf_eq hr (voice_lt_of_perm_range h) hq

/-- The three passes, each in any order, up to the order of the OUTPUTs those of a cycle (R220, R223). -/
theorem runOf_threePasses {clocks syncs outputs : List Nat} (hr : s.hasReset = true) (hseq : s.seq = .idle)
    (hpos : cfg.nvoices ≠ 0) (hclocks : clocks.Perm (List.range cfg.nvoices))
    (hsyncs : syncs.Perm (List.range cfg.nvoices)) (houtputs : outputs.Perm (List.range cfg.nvoices)) :
    runOf cfg (clocks.map .clock ++ (syncs.map .synchronize ++ outputs.map .output)) s =
      .next { outputs.foldl (outputVoice cfg) (syncedState cfg s) with seq := .idle } := by
  have hclocked : (clockedState cfg s).hasReset = true := (clockPass_shared cfg s).hasReset.trans hr
  have hsynced : (syncedState cfg s).hasReset = true := (syncedState_shared cfg s).hasReset.trans hr
  have hsync : runOf cfg (syncs.map .synchronize)
      { clockedState cfg s with seq := .clocking (List.range cfg.nvoices) } =
        .next { syncedState cfg s with seq := .syncing (List.range cfg.nvoices) } := by
    rw [runOf_syncPass (s := { clockedState cfg s with seq := .clocking (List.range cfg.nvoices) }) hclocked rfl
      (allServed_range _) hsyncs, if_neg hpos, passOver, (syncKind cfg).foldl_seq]
    rfl
  have houtput : runOf cfg (outputs.map .output) { syncedState cfg s with seq := .syncing (List.range cfg.nvoices) } =
      .next { outputs.foldl (outputVoice cfg) (syncedState cfg s) with seq := .idle } := by
    rw [runOf_outputPass (s := { syncedState cfg s with seq := .syncing (List.range cfg.nvoices) }) hsynced rfl
      (allServed_range _) hpos houtputs, (outputKind cfg).foldl_seq]
  rw [runOf_append_next (runOf_clockPass hr hseq hpos hclocks), runOf_append_next hsync, houtput]

/-- The OUTPUTs of a cycle in any order: the records after the cycle, each sample being the latch it left. -/
theorem outputFold_eq_cycleState {outputs : List Nat} (hcount : s.oscs.length = cfg.nvoices) (hseq : s.seq = .idle)
    (h : outputs.Perm (List.range cfg.nvoices)) :
    { outputs.foldl (outputVoice cfg) (syncedState cfg s) with seq := .idle } = { cycleState cfg s with
      results := s.results ++
        outputs.map fun v => .sample v (readOsc cfg (cycleState cfg s) v).previousOutputVoltage } := by
  have hlatch : ∀ v ∈ outputs, Result.sample v (outOf cfg (syncedState cfg s) v) =
      .sample v (readOsc cfg (cycleState cfg s) v).previousOutputVoltage := fun v hv => by
    rw [readOsc_cycleState hcount (voice_lt_of_perm_range h v hv)]
    rfl
  have hcycle : cycleState cfg s = (List.range cfg.nvoices).foldl (outputVoice cfg) (syncedState cfg s) := rfl
  rw [outputFold_perm cfg h (h.nodup_iff.mpr List.nodup_range), syncedState_results, List.map_congr_left hlatch,
    ← hcycle, ← (cycleState_shared cfg s).seq.trans hseq]

end Order

/-! ### The obligations -/

/-- Settles O34: both orders have the effects of the ascending one. -/
theorem syncOrderDoesNotMatter : Obligations.SyncOrderDoesNotMatter := by
  intro s order served hr hseq hserved hperm
  have hrun : ∀ l : List Nat, l.Perm (List.range s.cfg.nvoices) → runInstrs (l.map .synchronize) s = .next ⟨_, s.cfg⟩ :=
    fun l hl => runInstrs_next_iff.mpr ⟨runOf_syncPass hr hseq (allServed_iff.mpr hserved) hl, rfl⟩
  exact ⟨_, hrun order hperm, hrun _ (.refl _)⟩

/-- Settles O35: on a ring the one oscillator that can reset `d` is its source. -/
theorem syncPassPullForm : Obligations.SyncPassPullForm := by
  intro s served hinv hr hring hseq hserved
  have hrun := runOf_syncPass (cfg := s.cfg.toCfg) hr hseq (allServed_iff.mpr hserved) (.refl _)
  refine ⟨⟨_, s.cfg⟩, runInstrs_next_iff.mpr ⟨hrun, rfl⟩, fun d hd => ?_⟩
  have hpull : (List.range s.cfg.nvoices).any (fun u => resetsVoice s.cfg.toCfg s.toStateOf u d) = true ↔
      resetsVoice s.cfg.toCfg s.toStateOf (srcOf s.cfg.toCfgDigital d) d = true := by
    rw [List.any_eq_true]
    refine ⟨fun ⟨u, hu, hreset⟩ => ?_, fun h => ⟨_, List.mem_range.mpr (srcOf_lt hinv.cfgOk hd), h⟩⟩
    have hdst := ((resetsVoice_iff ..).mp hreset).1
    rwa [← hdst, (hring u (List.mem_range.mp hu)).2, hdst]
  have hpass : readOsc s.cfg.toCfg (passOver s.cfg.nvoices (syncVoice s.cfg.toCfg) s.toStateOf) d = _ :=
    readOsc_syncFold _ _ _ (hinv.count ▸ hd)
  exact hpass.trans (if_congr (hpull.trans ((resetsVoice_iff ..).trans (and_iff_right (hring d hd).1))) rfl rfl)

/-- Settles O32: the exclusion of R161, for the source is the oscillator itself. -/
theorem selfWiredNeverResets : Obligations.SelfWiredNeverResets := by
  intro s v o hready hlegal hsrc hdst
  obtain ⟨q, hq⟩ := syncLegal_iff.mp hlegal
  refine ⟨q, ?_⟩
  rw [exec_synchronize_eq hready hq hsrc hdst hready.record hready.record,
    syncedDest_of_not_resets fun ⟨hrises, hsync, hfree⟩ => hfree ⟨hsync, hrises⟩, withOsc_self hready.record]

theorem nvoices_ne_zero {c : CfgDigital} (h : cfgWf c = true) : c.nvoices ≠ 0 := by
  simp only [cfgWf, Bool.and_eq_true, decide_eq_true_eq] at h
  omega

/-- Settles O41: the passes in any order lead to the state of the cycle, but for the order of the samples. -/
theorem cycleEqualsAnyOrderOfMicroOperations : Obligations.CycleEqualsAnyOrderOfMicroOperations := by
  intro s clocks syncs outputs hinv hr hidle hclocks hsyncs houtputs
  have hrun := runOf_threePasses (cfg := s.cfg.toCfg) hr hidle (nvoices_ne_zero hinv.cfgOk) hclocks hsyncs houtputs
  rw [outputFold_eq_cycleState hinv.count hidle houtputs] at hrun
  exact ⟨⟨cycleState s.cfg.toCfg s.toStateOf, s.cfg⟩,
    exec_next_iff.mpr ⟨perform_cycle_iff.mpr ⟨hr, hidle, rfl⟩, rfl⟩, runInstrs_next_iff.mpr ⟨hrun, rfl⟩⟩

/-- What OUTPUT returns, from the bit of the source's accumulator that it reads (R180). -/
theorem outSample_congr {S N : Type} (a : Analog S N) (m : ChipModel) (nl : N) (o : OscOf S) {source source' : OscOf S}
    (h : source.accumulator.getLsbD 23 = source'.accumulator.getLsbD 23) :
    outSample a m nl o source = outSample a m nl o source' := by
  have hindex : romIndex o source = romIndex o source' := by
    unfold romIndex ringActive
    rw [h]
  unfold outSample waveOut
  rw [hindex]

/-- The record of an oscillator after its OUTPUT. -/
theorem osc_of_exec_output {s s' : State} {v : Nat} (h : exec (.output v) s = .next s') :
    s'.osc v = if v < s.oscs.length then latch (outOf s.cfg.toCfg s.toStateOf v) (s.osc v) else s.osc v := by
  obtain ⟨hperform, hcfg⟩ := exec_next_iff.mp h
  obtain ⟨-, -, q, -, hs'⟩ := perform_output_iff.mp hperform
  rw [State.osc, hcfg, hs']
  refine (readOsc_modifyOsc s.cfg.toCfg s.toStateOf v v _).trans ?_
  simp only [true_and]
  rfl

/-- Settles O38: the record takes the sample, which sees one bit of the source's record. -/
theorem outputSeesOneBitOfTheSource : Obligations.OutputSeesOneBitOfTheSource := by
  intro s t s' t' v hcfg hmodel hnl hosc hbit hlength hs ht
  have hout : outOf s.cfg.toCfg s.toStateOf v = outOf t.cfg.toCfg t.toStateOf v := by
    calc outOf s.cfg.toCfg s.toStateOf v
        = outSample s.cfg.analog s.model s.nl (s.osc v) (s.osc (srcOf s.cfg.toCfgDigital v)) := rfl
      _ = outSample s.cfg.analog s.model s.nl (s.osc v) (t.osc (srcOf t.cfg.toCfgDigital v)) :=
        outSample_congr _ _ _ _ hbit
      _ = outSample t.cfg.analog t.model t.nl (t.osc v) (t.osc (srcOf t.cfg.toCfgDigital v)) := by
        rw [hcfg, hmodel, hnl, hosc]
  rw [osc_of_exec_output hs, osc_of_exec_output ht, hout, hosc, hlength]

end Sys2Proof.Machine
end

section
/-! PROOFS. Runs of cycles. A run of cycles iterates `cycleState` (`runOf_pseudoCycles`). What a cycle makes of one
record is said by `CycleRecord`; an invariant of one record over any number of cycles then needs only that a
`CycleRecord` keeps it (`exists_record_after_cycles`). -/

namespace Sys2Proof.Machine

/-! ### What a legal configuration says of the force -/

section Config
variable {c : CfgDigital}

theorem testForceMask_ne_zero (h : cfgWf c = true) : c.testForceMask ≠ 0#23 := by
  simp only [cfgWf, Bool.and_eq_true, decide_eq_true_eq] at h
  tauto

theorem testForceMask_unmasked (h : cfgWf c = true) (hclear : c.forceAppliesClear = true) :
    c.testForceMask &&& ~~~ noiseClearMask c.noiseTaps ≠ 0#23 := by
  simp only [cfgWf, Bool.and_eq_true, hclear, Bool.not_true, Bool.false_or, decide_eq_true_eq] at h
  exact h.2

theorem noiseOverwriteDelay_pos (h : cfgWf c = true) : 0 < c.noiseOverwriteDelay := by
  simp only [cfgWf, Bool.and_eq_true, decide_eq_true_eq] at h
  omega

end Config

section Cycles
variable {S N : Type} {cfg : Cfg S N} {m : ChipModel} {s : StateOf S N} {v : Nat} {o p : OscOf S}

/-- A run of cycles from `IDLE` completes (R220). -/
theorem runOf_pseudoCycles (n : Nat) (hr : s.hasReset = true) (hidle : s.seq = .idle) :
    runOf cfg (pseudoCycles n) s = .next ((cycleState cfg)^[n] s) := by
  induction n generalizing s with
  | zero => rfl
  | succ n ih =>
    have hfirst : perform cfg .cycle s = .next (cycleState cfg s) := perform_cycle_iff.mpr ⟨hr, hidle, rfl⟩
    have hshared := cycleState_shared cfg s
    rw [pseudoCycles, List.replicate_succ, runOf, hfirst, Function.iterate_succ_apply]
    exact ih (hshared.hasReset.trans hr) (hshared.seq.trans hidle)

/-! ### One record in a cycle -/

/-- The record `o` becomes `p` in a cycle: clocked, then perhaps its accumulator reset, not with sync off, then a sample
latched, the old one with code 0 (R161, R177, R220). -/
def CycleRecord (cfg : Cfg S N) (m : ChipModel) (o p : OscOf S) : Prop :=
  ∃ acc y, p = { clockOsc cfg m o with accumulator := acc, previousOutputVoltage := y } ∧
    (o.syncEnabled = false → acc = (clockOsc cfg m o).accumulator) ∧
    (o.waveformSelect = 0#4 → y = o.previousOutputVoltage)

/-- A listed oscillator before the output pass of a cycle. -/
theorem syncedState_record (hv : v < cfg.nvoices) (ho : s.oscs[v]? = some o) :
    ∃ acc, readOsc cfg (syncedState cfg s) v = { clockOsc cfg s.model o with accumulator := acc } ∧
      (o.syncEnabled = false → acc = (clockOsc cfg s.model o).accumulator) := by
  have hclocked : (clockedState cfg s).oscs[v]? = some (clockOsc cfg s.model o) := by
    rw [clockedState, clockPass_getElem? cfg s hv, ho, Option.map_some]
  obtain ⟨hlength, -⟩ := List.getElem?_eq_some_iff.mp hclocked
  have hread := readOsc_syncFold cfg (clockedState cfg s) (List.range cfg.nvoices) hlength
  rw [readOsc_eq_of_getElem? hclocked] at hread
  split_ifs at hread with hreset
  · refine ⟨0#24, hread, fun hsync => ?_⟩
    obtain ⟨u, -, hu⟩ := List.any_eq_true.mp hreset
    obtain ⟨-, -, hdest, -⟩ := (resetsVoice_iff ..).mp hu
    rw [readOsc_eq_of_getElem? hclocked, clockOsc_syncEnabled, hsync] at hdest
    exact absurd hdest Bool.false_ne_true
  · exact ⟨_, hread, fun _ => rfl⟩

/-- With code 0 the sample of a cycle is the held one (R177). -/
theorem outOf_syncedState_of_code_zero (hv : v < cfg.nvoices) (ho : s.oscs[v]? = some o)
    (hcode : o.waveformSelect = 0#4) :
    outOf cfg (syncedState cfg s) v = o.previousOutputVoltage := by
  obtain ⟨acc, hread, -⟩ := syncedState_record hv ho
  rw [outOf_hold cfg _ v (by simp [hread, hcode]), hread, clockOsc_previousOutputVoltage]

/-- A cycle makes a `CycleRecord` of every record (R220). -/
theorem cycleState_getElem? (hv : v < cfg.nvoices) (ho : s.oscs[v]? = some o) :
    ∃ p, (cycleState cfg s).oscs[v]? = some p ∧ CycleRecord cfg s.model o p := by
  obtain ⟨acc, hread, hacc⟩ := syncedState_record hv ho
  obtain ⟨hlength, -⟩ := List.getElem?_eq_some_iff.mp ho
  have hlatch : readOsc cfg (cycleState cfg s) v = _ := readOsc_outputFold_of_mem cfg (syncedState cfg s)
    List.nodup_range (List.mem_range.mpr hv) ((syncedState_shared cfg s).length.symm ▸ hlength)
  rw [hread] at hlatch
  refine ⟨_, getElem?_eq_readOsc ((cycleState_shared cfg s).length.symm ▸ hlength), acc, _, hlatch, hacc, ?_⟩
  exact outOf_syncedState_of_code_zero hv ho

/-! ### One record over any number of cycles -/

/-- A property of a record and of the number of cycles that every cycle carries on holds after any number of cycles. -/
theorem exists_record_after_cycles {P : Nat → OscOf S → Prop} (hv : v < cfg.nvoices) (ho : s.oscs[v]? = some o)
    (hstart : P 0 o) (hnext : ∀ n m p q, P n p → CycleRecord cfg m p q → P (n + 1) q) (n : Nat) :
    ∃ p, ((cycleState cfg)^[n] s).oscs[v]? = some p ∧ P n p := by
  induction n with
  | zero => exact ⟨o, ho, hstart⟩
  | succ n ih =>
    obtain ⟨p, hp, hPp⟩ := ih
    obtain ⟨q, hq, hcycle⟩ := cycleState_getElem? hv hp
    rw [Function.iterate_succ_apply']
    exact ⟨q, hq, hnext n _ p q hPp hcycle⟩

/-! ### The accumulator -/

/-- CLOCK with test off adds the frequency and sets the flag (R123, R124). -/
theorem clockOsc_accumulator_of_test_off (h : o.testHeld = false) :
    (clockOsc cfg m o).accumulator = advance o ∧ (clockOsc cfg m o).msbRising = msbRises o.accumulator (advance o) := by
  by_cases hn : noiseClockRises o.accumulator (advance o) = true
  · rw [clockOsc_of_noiseClockRises cfg m h hn]
    exact ⟨rfl, rfl⟩
  · rw [clockOsc_of_not_noiseClockRises cfg m h hn]
    exact ⟨rfl, rfl⟩

/-- The record after `n` cycles from accumulator 0 with frequency 4096, test and sync off (R127). -/
structure SlowPhase {S : Type} (n : Nat) (o : OscOf S) : Prop where
  frequency : o.frequency = 0x1000#16
  testOff : o.testHeld = false
  syncOff : o.syncEnabled = false
  accumulator : o.accumulator.toNat = n * 0x1000 % 2 ^ 24
  msbRising : 0 < n → (o.msbRising = true ↔ n % 4096 = 2048)

theorem SlowPhase.next {n : Nat} (h : SlowPhase n o) (hcycle : CycleRecord cfg m o p) : SlowPhase (n + 1) p := by
  obtain ⟨hfreq, htest, hsync, hacc, -⟩ := h
  obtain ⟨acc, y, rfl, hkept, -⟩ := hcycle
  obtain ⟨hadvance, hmsb⟩ := clockOsc_accumulator_of_test_off (cfg := cfg) (m := m) htest
  have hnext : (advance o).toNat = (n + 1) * 0x1000 % 2 ^ 24 := by
    rw [advance_toNat, hacc, hfreq]
    change (n * 0x1000 % 2 ^ 24 + 0x1000) % 2 ^ 24 = _
    omega
  refine ⟨by simpa using hfreq, by simpa using htest, by simpa using hsync, ?_, fun _ => ?_⟩
  · rw [← hnext, ← hadvance, ← hkept hsync]
  · dsimp only
    rw [hmsb, msbRises_eq_decide, decide_eq_true_eq, hacc, hnext]
    omega

/-! ### The held sample -/

/-- Code 0 and its sample are kept by a cycle (R177). -/
theorem CycleRecord.hold {y : S} (hcycle : CycleRecord cfg m o p)
    (h : o.waveformSelect = 0#4 ∧ o.previousOutputVoltage = y) :
    p.waveformSelect = 0#4 ∧ p.previousOutputVoltage = y := by
  obtain ⟨acc, z, rfl, -, hlatch⟩ := hcycle
  exact ⟨(clockOsc_waveformSelect cfg m o).trans h.1, (hlatch h.1).trans h.2⟩

/-- The samples that cycles yield for an oscillator with code 0 are the held one (R177, R224). -/
theorem results_after_cycles_of_code_zero (hv : v < cfg.nvoices) (ho : s.oscs[v]? = some o)
    (hcode : o.waveformSelect = 0#4) (n : Nat) : ∃ new, ((cycleState cfg)^[n] s).results = s.results ++ new ∧
      ∀ y, Result.sample v y ∈ new → y = o.previousOutputVoltage := by
  induction n with
  | zero => exact ⟨[], (List.append_nil _).symm, nofun⟩
  | succ n ih =>
    obtain ⟨new, hnew, hheld⟩ := ih
    obtain ⟨p, hp, hpcode, hplatch⟩ := exists_record_after_cycles hv ho
      (P := fun _ p => p.waveformSelect = 0#4 ∧ p.previousOutputVoltage = o.previousOutputVoltage) ⟨hcode, rfl⟩
      (fun _ _ _ _ h hcycle => hcycle.hold h) n
    rw [Function.iterate_succ_apply', cycleState_eq, passOver, outputFold_results cfg _ List.nodup_range,
      syncedState_results, hnew, List.append_assoc]
    refine ⟨_, rfl, fun y hy => ?_⟩
    rcases List.mem_append.mp hy with hold | hyield
    · exact hheld y hold
    · obtain ⟨u, -, hu⟩ := List.mem_map.mp hyield
      cases hu
      rw [outOf_syncedState_of_code_zero hv hp hpcode, hplatch]

/-! ### The recovery of the noise register -/

/-- The record `k` cycles after test was set on an oscillator with the register `r`: the countdown runs and the register
stands until the countdown is over, and then the register is not zero (R122, R148). -/
structure Recovering {S : Type} (c : CfgDigital) (r : NoiseReg) (k : Nat) (o : OscOf S) : Prop where
  testOn : o.testHeld = true
  running : k < c.noiseOverwriteDelay → o.noiseShiftRegister = r ∧ o.noiseOverwriteDelay = c.noiseOverwriteDelay - k
  finished : k = c.noiseOverwriteDelay → o.noiseShiftRegister ≠ 0#23 ∧ o.noiseOverwriteDelay = 0

theorem Recovering.next {r : NoiseReg} {k : Nat} (hcfg : cfgWf cfg.toCfgDigital = true)
    (h : Recovering cfg.toCfgDigital r k o) (hcycle : CycleRecord cfg m o p) :
    Recovering cfg.toCfgDigital r (k + 1) p := by
  obtain ⟨htest, hrunning, -⟩ := h
  obtain ⟨acc, y, rfl, -, -⟩ := hcycle
  refine ⟨by simpa using htest, fun hk => ?_, fun hk => ?_⟩
  · obtain ⟨hreg, hdelay⟩ := hrunning (by omega)
    rw [clockOsc_of_testHeld_of_ne_one cfg m htest (by omega)]
    exact ⟨hreg, by dsimp only; omega⟩
  · obtain ⟨-, hdelay⟩ := hrunning (by omega)
    rw [clockOsc_of_testHeld_of_eq_one cfg m htest (by omega) rfl]
    exact ⟨forcedRegister_ne_zero _ _ (testForceMask_ne_zero hcfg) (testForceMask_unmasked hcfg), rfl⟩

end Cycles

/-! ### The obligations -/

/-- A run of cycles on a state that carries its parameters. -/
theorem runInstrs_pseudoCycles {s : State} (n : Nat) (hr : s.hasReset = true) (hidle : s.seq = .idle) :
    runInstrs (pseudoCycles n) s = .next ⟨(cycleState s.cfg.toCfg)^[n] s.toStateOf, s.cfg⟩ :=
  runInstrs_next_iff.mpr ⟨runOf_pseudoCycles n hr hidle, rfl⟩

/-- Settles O48: `SlowPhase` holds at the start and every cycle carries it on. -/
theorem accumulatorWrapsWithItsPeriod : Obligations.AccumulatorWrapsWithItsPeriod := by
  intro s v o n h hfreq hacc htest hsync
  obtain ⟨p, hp, hphase⟩ := exists_record_after_cycles (cfg := s.cfg.toCfg) h.voice h.record (P := SlowPhase)
    ⟨hfreq, htest, hsync, by simp [hacc], nofun⟩ (fun _ _ _ _ hphase => hphase.next) n
  exact ⟨_, p, runInstrs_pseudoCycles n h.afterReset h.idle, hp, hphase.accumulator, hphase.msbRising⟩

/-- Settles O49: code 0 and its sample are kept by every cycle, which yields that sample. -/
theorem codeZeroHoldsTheSample : Obligations.CodeZeroHoldsTheSample := by
  intro s v o n h hcode
  obtain ⟨p, hp, -, hheld⟩ := exists_record_after_cycles (cfg := s.cfg.toCfg) h.voice h.record
    (P := fun _ p => p.waveformSelect = 0#4 ∧ p.previousOutputVoltage = o.previousOutputVoltage) ⟨hcode, rfl⟩
    (fun _ _ _ _ hold hcycle => hcycle.hold hold) n
  obtain ⟨new, hnew, hyields⟩ := results_after_cycles_of_code_zero (cfg := s.cfg.toCfg) h.voice h.record hcode n
  refine ⟨_, p, runInstrs_pseudoCycles n h.afterReset h.idle, hp, hheld, fun y hy => hyields y ?_⟩
  rwa [hnew, List.drop_left] at hy

/-- Settles O50: the write of CONTROL starts `Recovering`, which every cycle carries on to the force. -/
theorem holdingTestRecoversTheNoiseRegister : Obligations.HoldingTestRecoversTheNoiseRegister := by
  intro s v o d hinv h htest hd
  have hset := exec_write_eq h fun t => perform_wrControl_iff (d := d)
  have hready := h.withOsc (portControl s.cfg.toCfgDigital d o)
  have hstart : Recovering s.cfg.toCfgDigital o.noiseShiftRegister 0 (portControl s.cfg.toCfgDigital d o) := by
    rw [portControl, testRise_eq]
    exact ⟨hd, fun _ => ⟨rfl, if_pos ⟨hd, htest⟩⟩, fun h0 => absurd h0 (noiseOverwriteDelay_pos hinv.cfgOk).ne⟩
  have hafter : ∀ k, ∃ t p, runInstrs (.wrControl v d :: pseudoCycles k) s = .next t ∧ t.oscs[v]? = some p ∧
      Recovering s.cfg.toCfgDigital o.noiseShiftRegister k p := by
    intro k
    obtain ⟨p, hp, hrecovering⟩ := exists_record_after_cycles (cfg := s.cfg.toCfg) hready.voice hready.record hstart
      (fun _ _ _ _ hrecovering => hrecovering.next hinv.cfgOk) k
    exact ⟨_, p, (runInstrs_cons_next hset).trans (runInstrs_pseudoCycles k hready.afterReset hready.idle), hp,
      hrecovering⟩
  refine ⟨fun k hk => ?_, ?_⟩
  · obtain ⟨t, p, hrun, hp, hrecovering⟩ := hafter k
    exact ⟨t, p, hrun, hp, hrecovering.running hk⟩
  · obtain ⟨t, p, hrun, hp, hrecovering⟩ := hafter s.cfg.noiseOverwriteDelay
    exact ⟨t, p, hrun, hp, hrecovering.finished rfl⟩

end Sys2Proof.Machine
end

section
/-! PROOFS. The test configuration `CFG_LINEAR`, and the parameters as data. -/

namespace Sys2Proof.Machine

/-! ### The tables of `CFG_LINEAR` -/

/-- Twice a word has bit 0 clear, so the mask of the ideal triangle keeps it. -/
theorem shiftLeft_one_and_mask (p : Word12) : (p <<< 1) &&& 0xFFE#12 = p <<< 1 := by
  have hmask : 0xFFE#12 = BitVec.allOnes 12 <<< 1 := by decide
  rw [hmask, ← BitVec.shiftLeft_and_distrib, BitVec.and_allOnes]

/-- The ideal triangle, as arithmetic on the index: twice the index up to the peak, and down again (R208). -/
theorem linearTriangle_toNat (p : Word12) : (linearTriangle p).toNat =
    if p.toNat < 0x800 then 2 * p.toNat else 2 * (0xFFF - p.toNat) := by
  have hp := p.isLt
  have htop : p.getLsbD 11 = decide (0x800 ≤ p.toNat) := BitVec.msb_eq_decide p
  rw [linearTriangle, shiftLeft_one_and_mask, htop]
  by_cases h : p.toNat < 0x800
  · rw [if_pos h, if_neg (by simpa using h)]
    simp [Nat.shiftLeft_eq]
    omega
  · have hnot : p ^^^ 0xFFF#12 = ~~~p := BitVec.xor_allOnes
    rw [if_neg h, if_pos (by simpa using h), hnot]
    simp [Nat.shiftLeft_eq]
    omega

/-- In `CFG_LINEAR` the noise DAC of a word is its value: each set bit adds its power of two (R208). -/
theorem noiseDacBelow_linearAnalog {N : Type} (m : ChipModel) (n : Nat) (w : Word12) :
    noiseDacBelow (linearAnalog : Analog Int N) m 0 n w = ((w.toNat % 2 ^ n : Nat) : Int) := by
  induction n with
  | zero => simp [noiseDacBelow, Nat.mod_one]
  | succ n ih =>
    have hbit : w.getLsbD n = decide (w.toNat / 2 ^ n % 2 = 1) := Nat.testBit_eq_decide_div_mod_eq
    rw [noiseDacBelow_succ, ih, hbit, Nat.mod_pow_succ]
    rcases Nat.mod_two_eq_zero_or_one (w.toNat / 2 ^ n) with h | h
    · simp [h]
    · simp [h, dacRead, linearAnalog]

/-- Settles O54: each page by its ideal contents; a state that lists nothing has these contents as rationals. -/
theorem linearConfigurationTables : Obligations.LinearConfigurationTables := by
  refine ⟨?_, ?_⟩
  · rintro N a m nl p tri rfl htri
    obtain rfl : tri = linearTriangle p := BitVec.eq_of_toNat_eq (htri.trans (linearTriangle_toNat p).symm)
    refine ⟨rfl, fun i => Nat.cast_pow 2 i, rfl, rfl, rfl, fun t h3 h6 => ?_, rfl, rfl, rfl, rfl, fun w => ?_⟩
    · interval_cases t <;> rfl
    · rw [noiseDac_eq_noiseDacBelow, noiseDacBelow_linearAnalog, Nat.mod_eq_of_lt w.isLt]
  · rintro d a rfl hrest hadd hdacw hzero hwfrom
    rw [analog_of_nothing_listed d ⟨hadd, hdacw, hzero, hwfrom⟩, hrest]
    exact ⟨fun _ _ => rfl, fun _ => (Int.cast_natCast _).symm, fun _ _ => (Int.cast_natCast _).symm,
      fun _ _ _ _ => (Int.cast_natCast _).symm⟩

/-! ### The parameters as data -/

/-- The data with the values of `a` listed at these arguments. -/
def listing (a : Analog Sample NL) (d : CfgData) (sums : List (Sample × Sample))
    (weights : List (ChipModel × Nat)) (zeros : List ChipModel) (waves : List (ChipModel × NL × Nat × Word12)) :
    CfgData where
  toCfgDigital := d.toCfgDigital
  prevReset := d.prevReset
  addAt := sums.map fun x => (x, a.add x.1 x.2)
  dacwAt := weights.map fun x => (x, a.dacw x.1 x.2)
  zeroAt := zeros.map fun x => (x, a.zero x)
  wfromAt := waves.map fun x => (x, a.wfrom x.1 x.2.1 x.2.2.1 x.2.2.2)
  rest := d.rest

/-- Settles O55: a listed value is used where it is listed. -/
theorem plainDataStandForAnyContents : Obligations.PlainDataStandForAnyContents := by
  intro a d sums weights zeros waves
  refine ⟨listing a d sums weights zeros waves, rfl, rfl, fun x y h => ?_, fun m i h => ?_, fun m h => ?_,
    fun m nl t p h => ?_⟩
  · exact (analog_add ..).trans (withListed_map sums _ (fun x => a.add x.1 x.2) h)
  · exact (analog_dacw ..).trans (withListed_map weights _ (fun x => a.dacw x.1 x.2) h)
  · exact (analog_zero ..).trans (withListed_map zeros _ a.zero h)
  · exact (analog_wfrom ..).trans (withListed_map waves _ (fun x => a.wfrom x.1 x.2.1 x.2.2.1 x.2.2.2) h)

end Sys2Proof.Machine
end

section
/-! PROOFS. A finite run reads the analog parameters at finitely many arguments. `nearby a` is the filter of the
contents that agree with `a` at some finitely many arguments; what an operation does is the same for all nearby contents
(`perform_nearby`), so what a run does is (`runOf_nearby`), and some plain data agree wherever the run reads
(`plainDataStandForAnyContents`). -/

namespace Sys2Proof.Machine

open Filter

section Nearby
variable {S N : Type}

/-- `b` agrees with `a` at these arguments. -/
structure AgreesAt (sums : List (S × S)) (weights : List (ChipModel × Nat)) (zeros : List ChipModel)
    (waves : List (ChipModel × N × Nat × Word12)) (a b : Analog S N) : Prop where
  add : ∀ x y, (x, y) ∈ sums → b.add x y = a.add x y
  dacw : ∀ m i, (m, i) ∈ weights → b.dacw m i = a.dacw m i
  zero : ∀ m, m ∈ zeros → b.zero m = a.zero m
  wfrom : ∀ m nl t p, (m, nl, t, p) ∈ waves → b.wfrom m nl t p = a.wfrom m nl t p

/-- Agreement at more arguments is agreement at fewer. -/
theorem AgreesAt.mono {sums sums' : List (S × S)} {weights weights' : List (ChipModel × Nat)}
    {zeros zeros' : List ChipModel} {waves waves' : List (ChipModel × N × Nat × Word12)} {a b : Analog S N}
    (h : AgreesAt sums' weights' zeros' waves' a b) (hsums : sums ⊆ sums') (hweights : weights ⊆ weights')
    (hzeros : zeros ⊆ zeros') (hwaves : waves ⊆ waves') : AgreesAt sums weights zeros waves a b where
  add x y hx := h.add x y (hsums hx)
  dacw m i hi := h.dacw m i (hweights hi)
  zero m hm := h.zero m (hzeros hm)
  wfrom m nl t p ht := h.wfrom m nl t p (hwaves ht)

/-- The contents near `a`: a set of them is a neighbourhood when agreement with `a` at finitely many arguments puts
contents into it. -/
def nearby (a : Analog S N) : Filter (Analog S N) where
  sets := {U | ∃ sums weights zeros waves, ∀ b, AgreesAt sums weights zeros waves a b → b ∈ U}
  univ_sets := ⟨[], [], [], [], fun _ _ => trivial⟩
  sets_of_superset := by
    rintro U V ⟨sums, weights, zeros, waves, hU⟩ hUV
    exact ⟨sums, weights, zeros, waves, fun b hb => hUV (hU b hb)⟩
  inter_sets := by
    rintro U V ⟨sums, weights, zeros, waves, hU⟩ ⟨sums', weights', zeros', waves', hV⟩
    refine ⟨sums ++ sums', weights ++ weights', zeros ++ zeros', waves ++ waves', fun b hb => ⟨hU b ?_, hV b ?_⟩⟩
    · exact hb.mono (by simp) (by simp) (by simp) (by simp)
    · exact hb.mono (by simp) (by simp) (by simp) (by simp)

theorem eventually_nearby_iff {a : Analog S N} {P : Analog S N → Prop} : (∀ᶠ b in nearby a, P b) ↔
    ∃ sums weights zeros waves, ∀ b, AgreesAt sums weights zeros waves a b → P b := Iff.rfl

variable (a : Analog S N) (m : ChipModel)

theorem add_nearby (x y : S) : ∀ᶠ b in nearby a, b.add x y = a.add x y :=
  ⟨[(x, y)], [], [], [], fun _ hb => hb.add x y (List.mem_singleton.mpr rfl)⟩

theorem dacw_nearby (i : Nat) : ∀ᶠ b in nearby a, b.dacw m i = a.dacw m i :=
  ⟨[], [(m, i)], [], [], fun _ hb => hb.dacw m i (List.mem_singleton.mpr rfl)⟩

theorem zero_nearby : ∀ᶠ b in nearby a, b.zero m = a.zero m :=
  ⟨[], [], [m], [], fun _ hb => hb.zero m (List.mem_singleton.mpr rfl)⟩

theorem wfrom_nearby (nl : N) (t : Nat) (p : Word12) : ∀ᶠ b in nearby a, b.wfrom m nl t p = a.wfrom m nl t p :=
  ⟨[], [], [], [(m, nl, t, p)], fun _ hb => hb.wfrom m nl t p (List.mem_singleton.mpr rfl)⟩

theorem noiseDacBelow_nearby (zero : S) (n : Nat) (w : Word12) :
    ∀ᶠ b in nearby a, noiseDacBelow b m zero n w = noiseDacBelow a m zero n w := by
  induction n with
  | zero => exact .of_forall fun _ => rfl
  | succ n ih =>
    filter_upwards [ih, dacw_nearby a m n, add_nearby a (noiseDacBelow a m zero n w) (a.dacw m n)]
      with b hbelow hdacw hadd
    simp only [noiseDacBelow_succ, dacRead, hbelow, hdacw, hadd]

end Nearby

/-! ### Operations under nearby contents -/

section Operations
variable {S N : Type} (cfg : Cfg S N) (m : ChipModel) (o source : OscOf S) (s : StateOf S N) (v : Nat)

/-- The parameters with other analog contents. -/
def withAnalog (cfg : Cfg S N) (b : Analog S N) : Cfg S N := { cfg with toAnalog := b }

theorem noiseRecompute_nearby :
    ∀ᶠ b in nearby cfg.toAnalog, noiseRecompute (withAnalog cfg b) m o = noiseRecompute cfg m o := by
  filter_upwards [noiseDacBelow_nearby cfg.toAnalog m o.zeroLevelVoltage 12
    (noiseWord cfg.noiseTaps o.noiseShiftRegister)] with b hb
  rw [noiseRecompute_eq, noiseRecompute_eq, noiseDac_eq_noiseDacBelow, noiseDac_eq_noiseDacBelow, ← hb]
  rfl

theorem noiseStep_nearby :
    ∀ᶠ b in nearby cfg.toAnalog, noiseStep (withAnalog cfg b) m o = noiseStep cfg m o :=
  noiseRecompute_nearby cfg m { o with
    noiseShiftRegister := noiseClear cfg.noiseTaps o.waveformSelect (noiseShift o.noiseShiftRegister) }

theorem noiseForce_nearby :
    ∀ᶠ b in nearby cfg.toAnalog, noiseForce (withAnalog cfg b) m o = noiseForce cfg m o :=
  noiseRecompute_nearby cfg m { o with
    noiseShiftRegister := forcedRegister cfg.toCfgDigital o.waveformSelect o.noiseShiftRegister }

theorem countDown_nearby :
    ∀ᶠ b in nearby cfg.toAnalog, countDown (withAnalog cfg b) m o = countDown cfg m o := by
  by_cases h : o.noiseOverwriteDelay = 1
  · simp only [countDown, h]
    exact noiseForce_nearby cfg m _
  · exact .of_forall fun b => by rw [countDown_of_ne_one _ m h, countDown_of_ne_one _ m h]

theorem clockOsc_nearby : ∀ᶠ b in nearby cfg.toAnalog, clockOsc (withAnalog cfg b) m o = clockOsc cfg m o := by
  rcases Bool.eq_false_or_eq_true o.testHeld with ht | ht
  · simp only [clockOsc_of_testHeld _ m ht]
    exact countDown_nearby cfg m { o with msbRising := if cfg.msbStaleUnderTest = true then o.msbRising else false }
  · by_cases hn : noiseClockRises o.accumulator (advance o) = true
    · simp only [clockOsc_of_noiseClockRises _ m ht hn]
      exact noiseStep_nearby cfg m _
    · exact .of_forall fun b => by
        rw [clockOsc_of_not_noiseClockRises _ m ht hn, clockOsc_of_not_noiseClockRises _ m ht hn]

/-- A change of one record is the same near `a` where the changed record is. -/
theorem modifyOsc_nearby {a : Analog S N} {f : Analog S N → OscOf S → OscOf S} {g : OscOf S → OscOf S}
    (h : ∀ o, ∀ᶠ b in nearby a, f b o = g o) : ∀ᶠ b in nearby a, s.modifyOsc v (f b) = s.modifyOsc v g := by
  cases ho : s.oscs[v]? with
  | none =>
    have hlength := List.getElem?_eq_none_iff.mp ho
    exact .of_forall fun b => by simp only [StateOf.modifyOsc, List.modify_eq_self hlength]
  | some o =>
    filter_upwards [h o] with b hb
    have hoscs : (s.modifyOsc v (f b)).oscs = (s.modifyOsc v g).oscs := by
      rw [modifyOsc_oscs_eq_set _ ho, modifyOsc_oscs_eq_set _ ho, hb]
    exact congrArg (fun oscs => { s with oscs := oscs }) hoscs

theorem foldl_nearby {a : Analog S N} {f : Analog S N → StateOf S N → Nat → StateOf S N}
    {g : StateOf S N → Nat → StateOf S N} (h : ∀ s v, ∀ᶠ b in nearby a, f b s v = g s v) (l : List Nat) :
    ∀ᶠ b in nearby a, l.foldl (f b) s = l.foldl g s := by
  induction l generalizing s with
  | nil => exact .of_forall fun _ => rfl
  | cons v l ih =>
    filter_upwards [h s v, ih (g s v)] with b hfirst hrest
    rw [List.foldl_cons, List.foldl_cons, hfirst, hrest]

theorem map_nearby {a : Analog S N} {f : Analog S N → OscOf S → OscOf S} {g : OscOf S → OscOf S}
    (h : ∀ o, ∀ᶠ b in nearby a, f b o = g o) (l : List (OscOf S)) : ∀ᶠ b in nearby a, l.map (f b) = l.map g := by
  induction l with
  | nil => exact .of_forall fun _ => rfl
  | cons o l ih =>
    filter_upwards [h o, ih] with b hfirst hrest
    rw [List.map_cons, List.map_cons, hfirst, hrest]

theorem clockVoice_nearby : ∀ᶠ b in nearby cfg.toAnalog, clockVoice (withAnalog cfg b) s v = clockVoice cfg s v :=
  modifyOsc_nearby s v (clockOsc_nearby cfg s.model)

theorem outSample_nearby (nl : N) :
    ∀ᶠ b in nearby cfg.toAnalog, outSample b m nl o source = outSample cfg.toAnalog m nl o source := by
  filter_upwards [wfrom_nearby cfg.toAnalog m nl (pageNumber o.waveformSelect.toNat (pulseHigh o))
    (romIndex o source)] with b hb
  unfold outSample waveOut romRead
  rw [hb]

theorem outputVoice_nearby :
    ∀ᶠ b in nearby cfg.toAnalog, outputVoice (withAnalog cfg b) s v = outputVoice cfg s v := by
  filter_upwards [outSample_nearby cfg s.model (readOsc cfg s v) (readOsc cfg s (srcOf cfg.toCfgDigital v)) s.nl]
    with b hb
  have hout : outOf (withAnalog cfg b) s v = outOf cfg s v := hb
  rw [outputVoice, outputVoice, hout]

theorem cycleState_nearby : ∀ᶠ b in nearby cfg.toAnalog, cycleState (withAnalog cfg b) s = cycleState cfg s := by
  filter_upwards [foldl_nearby s (clockVoice_nearby cfg) (List.range cfg.nvoices),
    foldl_nearby (syncedState cfg s) (outputVoice_nearby cfg) (List.range cfg.nvoices)] with b hclock houtput
  calc cycleState (withAnalog cfg b) s
      = (List.range cfg.nvoices).foldl (outputVoice (withAnalog cfg b)) (passOver cfg.nvoices (syncVoice cfg)
          ((List.range cfg.nvoices).foldl (clockVoice (withAnalog cfg b)) s)) := rfl
    _ = (List.range cfg.nvoices).foldl (outputVoice (withAnalog cfg b)) (syncedState cfg s) := by
      rw [hclock]
      rfl
    _ = cycleState cfg s := houtput

theorem resetState_nearby : ∀ᶠ b in nearby cfg.toAnalog, resetState (withAnalog cfg b) s = resetState cfg s := by
  have hosc : ∀ o, ∀ᶠ b in nearby cfg.toAnalog, resetOsc (withAnalog cfg b) s.model o = resetOsc cfg s.model o :=
    fun o => noiseRecompute_nearby cfg s.model (resetOsc cfg s.model o)
  filter_upwards [map_nearby hosc s.oscs] with b hb
  rw [resetState, resetState, hb]

theorem configState_nearby (n : ChipModel) (nl : N) :
    ∀ᶠ b in nearby cfg.toAnalog, configState n nl (withAnalog cfg b) s = configState n nl cfg s := by
  filter_upwards [zero_nearby cfg.toAnalog n] with b hb
  exact congrArg (fun z => { s with model := n, nl := nl, oscs := s.oscs.map (setZeroLevel z) }) hb

/-- An operation reads finitely many arguments (R53, R54, R145, R207). -/
theorem perform_nearby (i : Instr N) :
    ∀ᶠ b in nearby cfg.toAnalog, perform (withAnalog cfg b) i s = perform cfg i s := by
  cases i with
  | wrFreqLo | wrFreqHi | wrPwLo | wrPwHi | wrControl | wrOther | rdOsc | synchronize => exact .of_forall fun _ => rfl
  | clock v => exact (clockVoice_nearby cfg s v).mono fun b hb => congrArg (microOp _ _ _ _) hb
  | output v => exact (outputVoice_nearby cfg s v).mono fun b hb => congrArg (microOp _ _ _ _) hb
  | cycle => exact (cycleState_nearby cfg s).mono fun b hb => congrArg (hostOp s) hb
  | reset => exact (resetState_nearby cfg s).mono fun b hb => congrArg Host.Outcome.next hb
  | config n nl =>
    exact (configState_nearby cfg s n nl).mono fun b hb =>
      congrArg (fun t => (if s.seq = .idle then .next t else .refused .outOfSequence : OutOf S N)) hb

/-- A finite run reads finitely many arguments. -/
theorem runOf_nearby (is : List (Instr N)) :
    ∀ᶠ b in nearby cfg.toAnalog, runOf (withAnalog cfg b) is s = runOf cfg is s := by
  induction is generalizing s with
  | nil => exact .of_forall fun _ => rfl
  | cons i is ih =>
    cases hi : perform cfg i s with
    | next t =>
      filter_upwards [perform_nearby cfg s i, ih t] with b hfirst hrest
      simp only [runOf, hfirst, hi, hrest]
    | fault f => exact nomatch f
    | refused r =>
      filter_upwards [perform_nearby cfg s i] with b hfirst
      simp only [runOf, hfirst, hi]

end Operations

/-- An operation on a state and its parameters, as an outcome of the step relation with the parameters put beside it. -/
theorem underCfg_eq_mapOutcome (op : Cfg Sample NL → StateOf Sample NL → OutOf Sample NL) (s : StateOf Sample NL)
    (d : CfgData) : State.underCfg ⟨s, d⟩ op = mapOutcome (fun t => ⟨t, d⟩) (op d.toCfg s) := by
  unfold State.underCfg
  dsimp only
  cases op d.toCfg s <;> rfl

/-- Settles O57: plain data that agree with the contents where the run reads them. -/
theorem runsUnderAnyContentsAreRunsOfTheMachine : Obligations.RunsUnderAnyContentsAreRunsOfTheMachine := by
  intro cfg is s
  obtain ⟨sums, weights, zeros, waves, hruns⟩ := eventually_nearby_iff.mp (runOf_nearby cfg s is)
  obtain ⟨d, hd, hp, hadd, hdacw, hzero, hwfrom⟩ := plainDataStandForAnyContents cfg.toAnalog
    { defaultCfg with toCfgDigital := cfg.toCfgDigital, prevReset := cfg.prevReset } sums weights zeros waves
  have hdigital : d.toCfgDigital = cfg.toCfgDigital := hd
  have hprev : d.prevReset = cfg.prevReset := hp
  have hcfg : d.toCfg = withAnalog cfg d.analog := by rw [withAnalog, ← hdigital, ← hprev]
  refine ⟨d, hdigital, hprev, ?_⟩
  rw [runInstrs_eq_runOf, underCfg_eq_mapOutcome, hcfg, hruns d.analog ⟨hadd, hdacw, hzero, hwfrom⟩]

end Sys2Proof.Machine
end

section
/-! PROOFS. The types of samples and of coefficients. Each function of the model commutes with the maps that carry the
parameters over, one lemma per function, in the order of their definitions; the decoder sees a coefficient only to hand
it on. -/

namespace Sys2Proof

/-! ### The decoder -/

section Decoder
variable {N N' : Type} (g : N → N') (n : Nat) (w : BitVec 24)

theorem map_decodeWrite (v : Nat) (sel : Nibble) (d : Byte) :
    (decodeWrite v sel d : Instr N).map g = decodeWrite v sel d := by
  unfold decodeWrite
  split <;> rfl

theorem map_withVoice (k : Nat → Instr N) :
    (withVoice n w k).map (Instr.map g) = withVoice n w fun v => (k v).map g := by
  unfold withVoice
  split_ifs <;> rfl

theorem map_plainVoice (k : Nat → Instr N) :
    (plainVoice n w k).map (Instr.map g) = plainVoice n w fun v => (k v).map g := by
  unfold plainVoice
  split_ifs
  · exact map_withVoice g n w k
  · rfl

theorem map_bareWord (i : Instr N) : (bareWord w i).map (Instr.map g) = bareWord w (i.map g) := by
  unfold bareWord
  split_ifs <;> rfl

theorem map_decodeConfig (nl : N) : (decodeConfig w nl).map (Instr.map g) = decodeConfig w (g nl) := by
  unfold decodeConfig
  split_ifs
  · split <;> rfl
  · rfl

theorem map_decodeWord (nl : N) : (decodeWord n w nl).map (Instr.map g) = decodeWord n w (g nl) := by
  unfold decodeWord
  split
  · rfl
  · split
    · rw [map_withVoice]
      simp only [map_decodeWrite]
    · split_ifs
      · rfl
      · rfl
      · exact map_withVoice ..
    · exact map_plainVoice ..
    · exact map_plainVoice ..
    · exact map_plainVoice ..
    · exact map_bareWord ..
    · exact map_bareWord ..
    · exact map_decodeConfig ..
    · rfl

theorem map_decode (op : OpWordOf N) :
    (decode n op).map (Instr.map g) = decode n (Machine.mapOpWord g op) := by
  unfold decode
  dsimp only [Machine.mapOpWord]
  split
  · exact map_decodeWord ..
  · rfl

end Decoder

namespace Machine

section Map
variable {S N S' N' : Type} {f : S → S'} {g : N → N'} {cfg : Cfg S N} {cfg' : Cfg S' N'}

/-! ### The ports -/

theorem map_portControl (c : CfgDigital) (d : Byte) (o : OscOf S) :
    (portControl c d o).map f = portControl c d (o.map f) := by
  rw [portControl_eq, portControl_eq]
  rfl

/-! ### One oscillator -/

section Osc
variable (h : CarriedOver f g cfg cfg') (m : ChipModel) (o source : OscOf S)
include h

theorem map_noiseDacBelow (zero : S) (n : Nat) (w : Word12) :
    f (noiseDacBelow cfg.toAnalog m zero n w) = noiseDacBelow cfg'.toAnalog m (f zero) n w := by
  induction n with
  | zero => rfl
  | succ n ih =>
    rw [noiseDacBelow_succ, noiseDacBelow_succ, ← ih, dacRead, dacRead, h.dacw, h.add]
    split_ifs <;> rfl

theorem map_noiseRecompute : (noiseRecompute cfg m o).map f = noiseRecompute cfg' m (o.map f) := by
  rw [noiseRecompute_eq, noiseRecompute_eq, h.digital, noiseDac_eq_noiseDacBelow, noiseDac_eq_noiseDacBelow, OscOf.map,
    map_noiseDacBelow h]
  rfl

theorem map_noiseStep : (noiseStep cfg m o).map f = noiseStep cfg' m (o.map f) := by
  rw [noiseStep, map_noiseRecompute h, noiseStep, h.digital]
  rfl

theorem map_noiseForce : (noiseForce cfg m o).map f = noiseForce cfg' m (o.map f) := by
  rw [noiseForce, map_noiseRecompute h, noiseForce, h.digital]
  rfl

theorem map_countDown : (countDown cfg m o).map f = countDown cfg' m (o.map f) := by
  by_cases h1 : o.noiseOverwriteDelay = 1
  · have h1' : (o.map f).noiseOverwriteDelay = 1 := h1
    simp only [countDown, h1, h1']
    exact map_noiseForce h m _
  · rw [countDown_of_ne_one cfg m h1, countDown_of_ne_one cfg' m (o := o.map f) h1]
    rfl

theorem map_clockOsc : (clockOsc cfg m o).map f = clockOsc cfg' m (o.map f) := by
  have hadvance : (advanceOsc o).map f = advanceOsc (o.map f) := rfl
  rcases Bool.eq_false_or_eq_true o.testHeld with ht | ht
  · rw [clockOsc_of_testHeld cfg m ht, clockOsc_of_testHeld cfg' m (o := o.map f) ht, map_countDown h, h.digital]
    rfl
  · by_cases hn : noiseClockRises o.accumulator (advance o) = true
    · rw [clockOsc_of_noiseClockRises cfg m ht hn, clockOsc_of_noiseClockRises cfg' m (o := o.map f) ht hn,
        map_noiseStep h, hadvance]
    · rw [clockOsc_of_not_noiseClockRises cfg m ht hn, clockOsc_of_not_noiseClockRises cfg' m (o := o.map f) ht hn,
        hadvance]

theorem map_resetOsc : (resetOsc cfg m o).map f = resetOsc cfg' m (o.map f) := by
  rw [resetOsc, map_noiseRecompute h, resetOsc, h.digital, h.prevReset]
  rfl

theorem map_outSample (nl : N) : f (outSample cfg.toAnalog m nl o source) =
    outSample cfg'.toAnalog m (g nl) (o.map f) (source.map f) := by
  have hcode : (o.map f).waveformSelect = o.waveformSelect := rfl
  unfold outSample
  rw [hcode]
  split
  · rfl
  iterate 7 exact (h.wfrom ..).symm
  · rfl
  · rfl

end Osc

/-! ### The state -/

section State
variable (h : CarriedOver f g cfg cfg') (s : StateOf S N) (v : Nat)

theorem map_modifyOsc {change : OscOf S → OscOf S} {change' : OscOf S' → OscOf S'}
    (hc : ∀ o, (change o).map f = change' (o.map f)) :
    (s.modifyOsc v change).map f g = (s.map f g).modifyOsc v change' := by
  have hoscs : (s.oscs.modify v change).map (OscOf.map f) = (s.oscs.map (OscOf.map f)).modify v change' := by
    apply List.ext_getElem?
    intro u
    rw [List.getElem?_map, List.getElem?_modify, List.getElem?_modify, List.getElem?_map]
    cases s.oscs[u]? with
    | none => rfl
    | some o => by_cases hvu : v = u <;> simp [hvu, hc]
  exact congrArg (fun oscs => { s.map f g with oscs := oscs }) hoscs

theorem map_yieldResult (r : Result S) : (s.yieldResult r).map f g = (s.map f g).yieldResult (r.map f) := by
  simp [StateOf.yieldResult, StateOf.map]

/-- A pass is carried over where each of its steps is. -/
theorem map_passOver {pass : StateOf S N → Nat → StateOf S N} {pass' : StateOf S' N' → Nat → StateOf S' N'}
    (hp : ∀ s v, (pass s v).map f g = pass' (s.map f g) v) (n : Nat) :
    (passOver n pass s).map f g = passOver n pass' (s.map f g) :=
  (List.foldl_hom (StateOf.map f g) fun s v => (hp s v).symm).symm

/-- A change of every record. -/
theorem map_map_oscs {change : OscOf S → OscOf S} {change' : OscOf S' → OscOf S'}
    (hc : ∀ o, (change o).map f = change' (o.map f)) (l : List (OscOf S)) :
    (l.map change).map (OscOf.map f) = (l.map (OscOf.map f)).map change' := by
  rw [List.map_map, List.map_map]
  exact List.map_congr_left fun o _ => hc o

include h

theorem map_readOsc : (readOsc cfg s v).map f = readOsc cfg' (s.map f g) v := by
  have hblank : (blankOsc cfg.prevReset).map f = blankOsc cfg'.prevReset := by
    rw [h.prevReset]
    rfl
  rw [readOsc, readOsc, ← hblank]
  exact (List.getD_map _ _ (OscOf.map f)).symm

theorem map_clockVoice : (clockVoice cfg s v).map f g = clockVoice cfg' (s.map f g) v :=
  map_modifyOsc s v (map_clockOsc h s.model)

theorem map_syncVoice : (syncVoice cfg s v).map f g = syncVoice cfg' (s.map f g) v := by
  have hresets : syncResets (readOsc cfg' (s.map f g) v) (readOsc cfg' (s.map f g) (dstOf cfg.toCfgDigital v))
      (readOsc cfg' (s.map f g) (srcOf cfg.toCfgDigital v)) = syncResets (readOsc cfg s v)
        (readOsc cfg s (dstOf cfg.toCfgDigital v)) (readOsc cfg s (srcOf cfg.toCfgDigital v)) := by
    rw [← map_readOsc h, ← map_readOsc h, ← map_readOsc h]
    rfl
  rw [syncVoice, syncVoice, h.digital, hresets]
  split_ifs
  · exact map_modifyOsc s _ fun _ => rfl
  · rfl

theorem map_outOf : f (outOf cfg s v) = outOf cfg' (s.map f g) v := by
  rw [outOf, outOf, map_outSample h, map_readOsc h, map_readOsc h, h.digital]
  rfl

theorem map_outputVoice : (outputVoice cfg s v).map f g = outputVoice cfg' (s.map f g) v := by
  rw [outputVoice, outputVoice, map_yieldResult, ← map_outOf h]
  exact congrArg (StateOf.yieldResult · _) (map_modifyOsc s v fun _ => rfl)

theorem map_cycleState : (cycleState cfg s).map f g = cycleState cfg' (s.map f g) := by
  rw [cycleState, map_passOver _ (map_outputVoice h), map_passOver _ (map_syncVoice h),
    map_passOver _ (map_clockVoice h), cycleState, h.digital]

theorem map_resetState : (resetState cfg s).map f g = resetState cfg' (s.map f g) :=
  congrArg (fun oscs => { s.map f g with oscs := oscs, seq := .idle, hasReset := true })
    (map_map_oscs (map_resetOsc h s.model) s.oscs)

theorem map_configState (m : ChipModel) (nl : N) :
    (configState m nl cfg s).map f g = configState m (g nl) cfg' (s.map f g) := by
  have hlevel : ∀ o : OscOf S, (setZeroLevel (zeroLevelOf cfg.toAnalog m) o).map f =
      setZeroLevel (zeroLevelOf cfg'.toAnalog m) (o.map f) := fun o => by
    rw [zeroLevelOf, zeroLevelOf, h.zero]
    rfl
  exact congrArg (fun oscs => { s.map f g with oscs := oscs, model := m, nl := g nl }) (map_map_oscs hlevel s.oscs)

end State

/-! ### The admissions -/

section Admission
variable {s n : StateOf S N} {n' : StateOf S' N'}

theorem map_hostOp (hn : n.map f g = n') : hostOp (s.map f g) n' = mapOutcome (StateOf.map f g) (hostOp s n) := by
  subst hn
  have hreset : (s.map f g).hasReset = s.hasReset := rfl
  have hseq : (s.map f g).seq = s.seq := rfl
  unfold hostOp
  rw [hreset, hseq]
  split_ifs <;> rfl

theorem map_hostVoiceOp {k k' : Nat} (hk : k' = k) (v : Nat) (hn : n.map f g = n') :
    hostVoiceOp k' v (s.map f g) n' = mapOutcome (StateOf.map f g) (hostVoiceOp k v s n) := by
  subst hk
  unfold hostVoiceOp
  split_ifs
  · rfl
  · exact map_hostOp hn

theorem map_microOp {k k' : Nat} (hk : k' = k) (v : Nat) {after after' : Option Sequencer} (hafter : after' = after)
    (hn : n.map f g = n') :
    microOp k' v (s.map f g) after' n' = mapOutcome (StateOf.map f g) (microOp k v s after n) := by
  subst hk hafter hn
  have hreset : (s.map f g).hasReset = s.hasReset := rfl
  unfold microOp
  rw [hreset]
  split_ifs
  · rfl
  · rfl
  · cases after' <;> rfl

end Admission

/-! ### Operations and steps -/

/-- A write to one of the five ports is no WR_OTHER (R107). -/
theorem perform_wrOther_refused {s : StateOf S N} {v : Nat} {sel : Nibble} {d : Byte} (h : ¬ 5 ≤ sel.toNat) :
    perform cfg (.wrOther v sel d) s = .refused (.invalidWord .badSelect) :=
  if_neg h

theorem map_nextOp (n : Nat) (ops : List (OpWordOf N)) : nextOp n (ops.map (mapOpWord g)) =
    (nextOp n ops).map fun p => (p.1.map g, p.2.map (mapOpWord g)) := by
  cases ops with
  | nil => rfl
  | cons op rest =>
    rw [List.map_cons, nextOp, nextOp, ← map_decode]
    cases decode n op <;> rfl

section Step
variable (h : CarriedOver f g cfg cfg') (s : StateOf S N)
include h

theorem map_perform_wrOther (v : Nat) (sel : Nibble) (d : Byte) : perform cfg' (.wrOther v sel d) (s.map f g) =
    mapOutcome (StateOf.map f g) (perform cfg (.wrOther v sel d) s) := by
  by_cases hsel : 5 ≤ sel.toNat
  · rw [← decodeWrite_of_five_le hsel, ← decodeWrite_of_five_le hsel, perform_decodeWrite, perform_decodeWrite]
    refine map_hostVoiceOp (congrArg CfgDigital.nvoices h.digital) v (map_modifyOsc s v fun o => ?_)
    rw [regWrite_other _ d o hsel, regWrite_other _ d _ hsel]
  · rw [perform_wrOther_refused hsel, perform_wrOther_refused hsel]
    rfl

theorem map_perform_config (m : ChipModel) (nl : N) : perform cfg' (.config m (g nl)) (s.map f g) =
    mapOutcome (StateOf.map f g) (perform cfg (.config m nl) s) := by
  by_cases hidle : s.seq = .idle
  · rw [perform_config_iff.mpr ⟨hidle, rfl⟩, perform_config_iff (s := s.map f g).mpr ⟨hidle, rfl⟩]
    exact congrArg Host.Outcome.next (map_configState h s m nl).symm
  · rw [perform_config_refused hidle, perform_config_refused (s := s.map f g) hidle]
    rfl

/-- An operation does to the carried-over state what it does to the state (R15, R37). -/
theorem map_perform (i : Instr N) :
    perform cfg' (i.map g) (s.map f g) = mapOutcome (StateOf.map f g) (perform cfg i s) := by
  have hk : cfg'.nvoices = cfg.nvoices := congrArg CfgDigital.nvoices h.digital
  cases i with
  | wrFreqLo v d => exact map_hostVoiceOp hk v (map_modifyOsc s v fun _ => rfl)
  | wrFreqHi v d => exact map_hostVoiceOp hk v (map_modifyOsc s v fun _ => rfl)
  | wrPwLo v d => exact map_hostVoiceOp hk v (map_modifyOsc s v fun _ => rfl)
  | wrPwHi v d => exact map_hostVoiceOp hk v (map_modifyOsc s v fun _ => rfl)
  | wrControl v d =>
    refine map_hostVoiceOp hk v (map_modifyOsc s v fun o => ?_)
    rw [map_portControl, h.digital]
  | wrOther v sel d => exact map_perform_wrOther h s v sel d
  | rdOsc v =>
    refine map_hostVoiceOp hk v ((map_yieldResult ..).trans ?_)
    rw [← map_readOsc h]
    rfl
  | clock v => exact map_microOp hk v rfl (map_clockVoice h s v)
  | synchronize v => exact map_microOp hk v (congrArg (seqSync · v s.seq) hk) (map_syncVoice h s v)
  | output v => exact map_microOp hk v (congrArg (seqOutput · v s.seq) hk) (map_outputVoice h s v)
  | cycle => exact map_hostOp (map_cycleState h s)
  | reset => exact congrArg Host.Outcome.next (map_resetState h s).symm
  | config m nl => exact map_perform_config h s m nl

theorem map_stepOf : stepOf cfg' (s.map f g) = mapOutcome (StateOf.map f g) (stepOf cfg s) := by
  have hinputs : (s.map f g).inputs = s.inputs.map (mapOpWord g) := rfl
  unfold stepOf
  rw [hinputs, h.digital, map_nextOp]
  cases nextOp cfg.nvoices s.inputs with
  | error r => rfl
  | ok p => exact map_perform h { s with inputs := p.2 } p.1

end Step

end Map

/-- Settles O56: operations and steps are carried over because each function of the model is. -/
theorem stepRelationIsTheSameForAllTypes : Obligations.StepRelationIsTheSameForAllTypes :=
  fun _ _ _ _ _ _ _ _ h s => ⟨map_perform h s, map_stepOf h s⟩

end Machine
end Sys2Proof
end
